-- ==== Sys2Proof/Word.lean ====
section
/-! DEFINITION. The word types of the block: bytes (00_scope.md R11) and the 32-bit words of the counters and port fields
(10_state.md R25, R51, 30_encoding.md R91). -/

namespace Sys2Proof

/-- 00_scope.md R11: 8 bits, an unsigned integer 0..255. -/
abbrev Byte := BitVec 8

/-- A 32-bit unsigned word (10_state.md R25, R51). -/
abbrev Word32 := BitVec 32

/-- A hypothesis, an integer 0..7 (10_state.md R27, 40_rotator.md R131). -/
abbrev Hyp := Fin 8

end Sys2Proof
end

