-- ==== Sys2Proof/Syntax.lean ====
section
/-! DEFINITION. The commands of the block (30_encoding.md R95, spec/opcode_table.json), one constructor a row, and its answers
(30_encoding.md R93). -/

namespace Sys2Proof

/-- A command with its operands assembled (30_encoding.md R95, R100): the small operand, then the payload. -/
inductive Instr where
  /-- `RESET m` (70_reset_and_hazards.md R340): bit 0 `CR`, bit 1 `FS`, bit 2 `DI`, bit 3 `DS`. -/
  | reset (mask : BitVec 4)
  /-- `ROT h [payload]` (40_rotator.md R133). -/
  | rot (h : Hyp) (payload : List Byte)
  /-- `CR.CLR` (41_correlator.md R141). -/
  | crClr
  /-- `CR.ADDW [payload]` (41_correlator.md R142). -/
  | crAddw (payload : List Byte)
  /-- `CR.RUN [payload]` (41_correlator.md R146). -/
  | crRun (payload : List Byte)
  /-- `CR.GET r` (41_correlator.md R148). -/
  | crGet (r : Byte)
  /-- `FS.PUT [payload]` (42_framesync.md R163). -/
  | fsPut (payload : List Byte)
  /-- `FS.UPDATE` (42_framesync.md R165). -/
  | fsUpdate
  /-- `FS.FINDSYNC` (42_framesync.md R179). -/
  | fsFindsync
  /-- `FS.GETFRAME` (42_framesync.md R190). -/
  | fsGetframe
  /-- `FS.GETBER` (42_framesync.md R192). -/
  | fsGetber
  /-- `FS.STATUS` (42_framesync.md R195). -/
  | fsStatus
  /-- `DI.PUSH [payload]` (43_deinterleaver.md R221). -/
  | diPush (payload : List Byte)
  /-- `DI.POP` (43_deinterleaver.md R226). -/
  | diPop
  /-- `DS.CFG g` (44_descrambler.md R256). -/
  | dsCfg (g : Byte)
  /-- `DS.APPLY [payload]` (44_descrambler.md R257). -/
  | dsApply (payload : List Byte)
  deriving DecidableEq, Repr

/-- The error names of 30_encoding.md R93 and 60_exceptions.md R301. -/
inductive ErrorCode where
  | illegal
  | emptyRef
  | shortBuf
  | len
  | full
  deriving DecidableEq, Repr

/-- The status of a response (30_encoding.md R93): done, the normal negative answer, or an error. -/
inductive Status where
  | ok
  | none
  | error (e : ErrorCode)
  deriving DecidableEq, Repr

/-- A response: one status, then a payload (30_encoding.md R90). -/
structure Response where
  status : Status
  payload : List Byte
  deriving DecidableEq, Repr

end Sys2Proof
end

