-- ==== Sys2Proof/WellFormed.lean ====
section
/-! DEFINITION. Which terms of `Instr` a command on the port can stand for: the checks of 30_encoding.md R96 steps 3 and 4 that do
not depend on a parameter or on state, and the 32 bits of `LEN` (30_encoding.md R91). -/

namespace Sys2Proof

/-- `LEN` is a 32-bit field (30_encoding.md R91). -/
def payloadFits (payload : List Byte) : Bool :=
  decide (payload.length < 2 ^ 32)

/-- An even payload for `ROT` (40_rotator.md R133), a group size that is not 0 for `DS.CFG` (30_encoding.md R96 step 3), a payload
that `LEN` can count. -/
def Instr.wellFormed : Instr → Bool
  | .reset _ => true
  | .rot _ payload => payloadFits payload && decide (payload.length % 2 = 0)
  | .crClr => true
  | .crAddw payload => payloadFits payload
  | .crRun payload => payloadFits payload
  | .crGet _ => true
  | .fsPut payload => payloadFits payload
  | .fsUpdate => true
  | .fsFindsync => true
  | .fsGetframe => true
  | .fsGetber => true
  | .fsStatus => true
  | .diPush payload => payloadFits payload
  | .diPop => true
  | .dsCfg g => decide (g ≠ 0)
  | .dsApply payload => payloadFits payload

end Sys2Proof
end

