-- ==== Sys2Proof/Decode.lean ====
section
/-! DEFINITION. From the bytes of the command port to a command (30_encoding.md R90 to R100): framing, the ordered checks of R96,
operand assembly; and the encoder, written from the same tables. -/

namespace Sys2Proof

/-- 30_encoding.md R91: the four bytes of a 32-bit field, most significant first. -/
def be32 (x : Word32) : List Byte :=
  [x.extractLsb' 24 8, x.extractLsb' 16 8, x.extractLsb' 8 8, x.extractLsb' 0 8]

/-- The fields of the header (30_encoding.md R91). -/
structure Header where
  op : Byte
  arg : Byte
  rsv : BitVec 16
  len : Word32
  deriving DecidableEq, Repr

/-- A complete command: header and payload (30_encoding.md R92). -/
structure Command where
  header : Header
  payload : List Byte
  deriving DecidableEq, Repr

/-- 30_encoding.md R91: byte 0 of the header is bits 63:56, so `OP` comes first and `LEN` last. -/
def takeHeader : List Byte → Option (Header × List Byte)
  | b0 :: b1 :: b2 :: b3 :: b4 :: b5 :: b6 :: b7 :: rest =>
    some ({ op := b0, arg := b1, rsv := b2 ++ b3, len := b4 ++ b5 ++ b6 ++ b7 }, rest)
  | _ => none

/-- 30_encoding.md R92, R99: the header, then `LEN` payload bytes; the end of a command is known without knowing the opcode.
`none` when the port does not hold a complete command yet. -/
def takeCommand (port : List Byte) : Option (Command × List Byte) :=
  match takeHeader port with
  | none => none
  | some (h, rest) =>
    if h.len.toNat ≤ rest.length then
      some ({ header := h, payload := rest.take h.len.toNat }, rest.drop h.len.toNat)
    else none

/-- The sixteen opcodes of 30_encoding.md R95. -/
inductive Opcode where
  | reset | rot | crClr | crAddw | crRun | crGet | fsPut | fsUpdate | fsFindsync | fsGetframe | fsGetber | fsStatus
  | diPush | diPop | dsCfg | dsApply
  deriving DecidableEq, Repr

/-- 30_encoding.md R95, column `OP`. -/
def Opcode.byte : Opcode → Byte
  | .reset => 0x01
  | .rot => 0x10
  | .crClr => 0x20
  | .crAddw => 0x21
  | .crRun => 0x22
  | .crGet => 0x23
  | .fsPut => 0x30
  | .fsUpdate => 0x31
  | .fsFindsync => 0x32
  | .fsGetframe => 0x33
  | .fsGetber => 0x34
  | .fsStatus => 0x35
  | .diPush => 0x40
  | .diPop => 0x41
  | .dsCfg => 0x50
  | .dsApply => 0x51

/-- The rows of 30_encoding.md R95, in its order. -/
def opcodeRows : List Opcode :=
  [.reset, .rot, .crClr, .crAddw, .crRun, .crGet, .fsPut, .fsUpdate, .fsFindsync, .fsGetframe, .fsGetber, .fsStatus,
    .diPush, .diPop, .dsCfg, .dsApply]

/-- 30_encoding.md R96 step 1, R97: the row of an `OP` byte, `none` for every value R95 does not define. -/
def opcodeOf (op : Byte) : Option Opcode :=
  opcodeRows.find? (fun o => o.byte == op)

/-- 30_encoding.md R100, column "reserved `ARG` bits", as a mask. -/
def Opcode.argReserved : Opcode → Byte
  | .reset => 0xF0
  | .rot => 0xF8
  | .crGet => 0x00
  | .dsCfg => 0x00
  | .crClr | .crAddw | .crRun | .fsPut | .fsUpdate | .fsFindsync | .fsGetframe | .fsGetber | .fsStatus | .diPush | .diPop
  | .dsApply => 0xFF

/-- 30_encoding.md R96 step 3: reserved `ARG` bits are 0, and `ARG` is not 0 for `DS.CFG`. -/
def Opcode.argOk (o : Opcode) (arg : Byte) : Bool :=
  (arg &&& o.argReserved == 0) && (o != .dsCfg || arg != 0)

/-- 30_encoding.md R96 step 4, R95 column `LEN`, but for `CR.ADDW` and `DS.APPLY`, whose lengths are `W` and `188 * DS.GROUP`:
a parameter and state, not bits of the command, so their own rules check them first (R142, R257). -/
def Opcode.lenOk : Opcode → Word32 → Bool
  | .reset, len | .crClr, len | .crGet, len | .fsUpdate, len | .fsFindsync, len | .fsGetframe, len | .fsGetber, len
  | .fsStatus, len | .diPop, len | .dsCfg, len => len == 0
  | .rot, len => len.toNat % 2 == 0
  | .crAddw, _ | .crRun, _ | .fsPut, _ | .diPush, _ | .dsApply, _ => true

/-- 30_encoding.md R100: `h = ARG[2:0]`. -/
def argHyp (arg : Byte) : Hyp :=
  Fin.ofNat 8 arg.toNat

/-- 30_encoding.md R100: the unit mask `ARG[3:0]`. -/
def argMask (arg : Byte) : BitVec 4 :=
  arg.extractLsb' 0 4

/-- 30_encoding.md R100: operand assembly, by opcode. -/
def Opcode.build (arg : Byte) (payload : List Byte) : Opcode → Instr
  | .reset => .reset (argMask arg)
  | .rot => .rot (argHyp arg) payload
  | .crClr => .crClr
  | .crAddw => .crAddw payload
  | .crRun => .crRun payload
  | .crGet => .crGet arg
  | .fsPut => .fsPut payload
  | .fsUpdate => .fsUpdate
  | .fsFindsync => .fsFindsync
  | .fsGetframe => .fsGetframe
  | .fsGetber => .fsGetber
  | .fsStatus => .fsStatus
  | .diPush => .diPush payload
  | .diPop => .diPop
  | .dsCfg => .dsCfg arg
  | .dsApply => .dsApply payload

/-- 30_encoding.md R96, steps 1 to 4 in order; the first that fails names the error (60_exceptions.md R304). -/
def decodeCommand (c : Command) : Except ErrorCode Instr :=
  match opcodeOf c.header.op with
  | none => .error .illegal
  | some o =>
    if c.header.rsv ≠ 0 then .error .illegal
    else if o.argOk c.header.arg = false then .error .illegal
    else if o.lenOk c.header.len = false then .error .len
    else .ok (o.build c.header.arg c.payload)

/-- What the block finds at the front of the command port: nothing complete yet, a command to be answered with an error, or a
command to be run; in the last two cases with the bytes after the command. -/
inductive Decoded where
  | incomplete
  | rejected (e : ErrorCode) (rest : List Byte)
  | command (i : Instr) (rest : List Byte)
  deriving DecidableEq, Repr

/-- The decoder, total on any bytes (30_encoding.md R96). A rejected command is consumed whole (R97). -/
def decode (port : List Byte) : Decoded :=
  match takeCommand port with
  | none => .incomplete
  | some (c, rest) =>
    match decodeCommand c with
    | .error e => .rejected e rest
    | .ok i => .command i rest

/-! ### The encoder -/

/-- The row of a command. -/
def Instr.opcode : Instr → Opcode
  | .reset _ => .reset
  | .rot _ _ => .rot
  | .crClr => .crClr
  | .crAddw _ => .crAddw
  | .crRun _ => .crRun
  | .crGet _ => .crGet
  | .fsPut _ => .fsPut
  | .fsUpdate => .fsUpdate
  | .fsFindsync => .fsFindsync
  | .fsGetframe => .fsGetframe
  | .fsGetber => .fsGetber
  | .fsStatus => .fsStatus
  | .diPush _ => .diPush
  | .diPop => .diPop
  | .dsCfg _ => .dsCfg
  | .dsApply _ => .dsApply

/-- The `ARG` byte of a command (30_encoding.md R100): the small operand in the used bits, 0 in the reserved ones. -/
def Instr.arg : Instr → Byte
  | .reset mask => mask.setWidth 8
  | .rot h _ => BitVec.ofNat 8 h.val
  | .crGet r => r
  | .dsCfg g => g
  | .crClr | .crAddw _ | .crRun _ | .fsPut _ | .fsUpdate | .fsFindsync | .fsGetframe | .fsGetber | .fsStatus | .diPush _
  | .diPop | .dsApply _ => 0

/-- The payload of a command (30_encoding.md R92). -/
def Instr.payload : Instr → List Byte
  | .rot _ payload | .crAddw payload | .crRun payload | .fsPut payload | .diPush payload | .dsApply payload => payload
  | .reset _ | .crClr | .crGet _ | .fsUpdate | .fsFindsync | .fsGetframe | .fsGetber | .fsStatus | .diPop | .dsCfg _ => []

/-- 30_encoding.md R91: the eight bytes of a header. -/
def headerBytes (h : Header) : List Byte :=
  h.op :: h.arg :: h.rsv.extractLsb' 8 8 :: h.rsv.extractLsb' 0 8 :: be32 h.len

/-- 30_encoding.md R90 to R92: the bytes of a command in transmission order. -/
def encode (i : Instr) : List Byte :=
  headerBytes { op := i.opcode.byte, arg := i.arg, rsv := 0, len := BitVec.ofNat 32 i.payload.length } ++ i.payload

/-! ### Responses on the port -/

/-- 30_encoding.md R93: the code of an error. -/
def ErrorCode.code : ErrorCode → Byte
  | .illegal => 0x80
  | .emptyRef => 0x81
  | .shortBuf => 0x82
  | .len => 0x83
  | .full => 0x84

/-- 30_encoding.md R93: the status byte. -/
def Status.code : Status → Byte
  | .ok => 0x00
  | .none => 0x01
  | .error e => e.code

/-- 30_encoding.md R90: one status byte, then the response payload. -/
def Response.bytes (r : Response) : List Byte :=
  r.status.code :: r.payload

/-! ### Words numbered as spec/opcode_table.json numbers them -/

/-- The bytes of a command whose first 64 bits are the header word (the table's bits 63:0, `OP` at 63:56) and whose later bits are
the payload, byte `k` at bits `64 + 8k` and up; bits from `nbits` on are 0 (DESIGN CHOICE, safe: log 12). -/
def tableWordBytes (nbits w : Nat) : List Byte :=
  let v := w % 2 ^ nbits
  (List.range 8).map (fun k => BitVec.ofNat 8 (v >>> (8 * (7 - k))))
    ++ (List.range (v % 2 ^ 32)).map (fun k => BitVec.ofNat 8 (v >>> (64 + 8 * k)))

/-- The instruction the decoder reads from such a word, `none` where it refuses. -/
def decodeTableWord (nbits w : Nat) : Option Instr :=
  match decode (tableWordBytes nbits w) with
  | .command i _ => some i
  | .rejected _ _ => none
  | .incomplete => none

end Sys2Proof
end

