-- ==== Sys2Proof/Config.lean ====
section
/-! DEFINITION. The parameters of an instance of the block (00_scope.md R8, R9) and the values the spec leaves open, as opaque
constants: nothing in Lean can evaluate them or prove a value of them. -/

namespace Sys2Proof

/-- The convolutional decoder an instance is wired to, named as plain data (42_framesync.md R160).
`external n` is the decoder with number `n` outside the block, uninterpreted (`Config.convDecode`).
`hardSlicer` is the test decoder that 95_test_vectors.md 2.5 defines and calls a legal value of the parameter. -/
inductive Decoder where
  | external (name : Nat)
  | hardSlicer
  deriving DecidableEq, Repr

/-- The parameters of 00_scope.md R8 under the names of that table, with the constraints of R8 and R9 as proof fields:
a configuration that the spec refuses (93_implementation_defined.md U5, U7, U9) cannot be built.
DESIGN CHOICE, safe: State carries this record and no step changes it (log 1). -/
structure Params where
  F : Nat
  C : Nat
  G : Nat
  guardCorr : Nat
  berSentinel : Word32
  decoder : Decoder
  I : Nat
  M : Nat
  lfsrSeed : BitVec 15
  ks0 : Byte
  W : Nat
  rMax : Nat
  corrT : Byte
  hF : 817 ≤ F
  hC : C % 2 = 0
  hG : G % 2 = 0
  hGC : G < C
  hI : 1 ≤ I
  hM : 1 ≤ M
  hW : 1 ≤ W
  hR : 1 ≤ rMax
  deriving DecidableEq, Repr

/-- 42_framesync.md R160: `ConvDecode`, a total function to a decoded frame of exactly `F` bytes and an error count, one for each
external decoder and each pair of lengths. The block applies it to buffers of exactly `C` bytes only. UNVERIFIED beyond
totality, determinism and the output length, which is all that R160 says (log 7). That the decoder of a real receiver is total and
returns exactly `F` bytes is the assumption that 60_exceptions.md R316 asks a model to list: UNVERIFIED, unsafe, it errs toward
proving if false (log 13). -/
opaque Config.convDecode (name C F : Nat) : List Byte → Vector Byte F × Nat

/-- 30_encoding.md R107, R108 give one byte to a word index and do not say what stands there when the index is above 255
(possible when `R_MAX` is above 256): a free value (log 8). -/
opaque Config.wideIndexByte : Nat → Byte

/-- 30_encoding.md R115 gives 32 bits to `FS.POS` and does not say what stands there when the position is 2^32 or more
(possible when `C` is that large): a free value (log 9). -/
opaque Config.widePosWord : Nat → Word32

/-- 00_scope.md R8, `G`: OPEN; half of it, since `G` is even (log 2). -/
opaque Config.halfGuard : Nat

/-- 00_scope.md R8, `GUARD_CORR`: OPEN (log 2). -/
opaque Config.guardCorr : Nat

/-- 00_scope.md R8, `W`: OPEN; one less than it, since it is at least 1 (log 2). -/
opaque Config.wordLenPred : Nat

/-- 00_scope.md R8, `R_MAX`: OPEN; one less than it, since it is at least 1 (log 2). -/
opaque Config.maxWordsPred : Nat

/-- The instance that `State.reset` describes: the reference values of 00_scope.md R8 where the table gives one, the opaque
constants above where it says OPEN. `C` is `26112 + G`, written so that it is seen to be positive without a value for `G` (log 2). -/
def Config.reference : Params where
  F := 1632
  C := Nat.succ (26111 + 2 * Config.halfGuard)
  G := 2 * Config.halfGuard
  guardCorr := Config.guardCorr
  berSentinel := 0xFFFFFFFF
  decoder := .external 0
  I := 12
  M := 17
  lfsrSeed := 0x00A9
  ks0 := 0xFF
  W := Config.wordLenPred + 1
  rMax := Config.maxWordsPred + 1
  corrT := 127
  hF := by decide
  hC := by omega
  hG := by omega
  hGC := by omega
  hI := by decide
  hM := by decide
  hW := by omega
  hR := by omega

end Sys2Proof
end

