-- ==== Sys2Proof/Machine/Keystream.lean ====
section
/-! DEFINITION. The energy-dispersal generator and its table (44_descrambler.md R250 to R253). -/

namespace Sys2Proof.Machine

/-- 00_scope.md R7: a transport packet is 188 bytes. -/
abbrev pkt : Nat := 188

/-- 44_descrambler.md R250: one step. The feedback bit is `s[14] ^ s[13]`, it is the output, and it enters at bit 0 while the old
bit 14 is dropped. -/
def lfsrStep (s : BitVec 15) : Bool × BitVec 15 :=
  let fb := s.getLsbD 14 ^^ s.getLsbD 13
  (fb, (s <<< 1) ||| (BitVec.ofBool fb).setWidth 15)

/-- 44_descrambler.md R252: `n` steps, each output bit shifted into `v` from below, so the first bit out ends highest. -/
def lfsrBits : Nat → Byte → BitVec 15 → Byte × BitVec 15
  | 0, v, s => (v, s)
  | n + 1, v, s => lfsrBits n ((v <<< 1) ||| (BitVec.ofBool (lfsrStep s).1).setWidth 8) (lfsrStep s).2

/-- 44_descrambler.md R252: "8 keystream bits per output byte, most-significant-bit first". -/
def lfsrByte (s : BitVec 15) : Byte × BitVec 15 :=
  lfsrBits 8 0 s

/-- 44_descrambler.md R252, the loop over the indices `i`, `i + 1`, ..: the register steps at every index, and the entry is forced
to zero at the packet boundaries. -/
def keystreamFrom : Nat → Nat → BitVec 15 → List Byte
  | 0, _, _ => []
  | n + 1, i, s => (if i % pkt = 0 then 0x00 else (lfsrByte s).1) :: keystreamFrom n (i + 1) (lfsrByte s).2

/-- `Keystream(g)` (44_descrambler.md R252): `188 * g` bytes, the first of them `KS0`, for which the register does not step. -/
def keystream (p : Params) (g : Nat) : List Byte :=
  match pkt * g with
  | 0 => []
  | n + 1 => p.ks0 :: keystreamFrom n 1 p.lfsrSeed

end Sys2Proof.Machine
end

