-- ==== Sys2Proof/Machine/Memory.lean ====
section
/-! DEFINITION. The address spaces of 20_memory.md R60 and the primitives `MemRead` and `MemWrite` of 00_scope.md R14. -/

namespace Sys2Proof.Machine

/-- One private address space (20_memory.md R60): the cells that hold a value, addresses strictly rising. An unlisted address
holds no value (10_state.md R56 "unspecified", "an absent value"; log 3). -/
abbrev Memory := List Host.Cell

/-- The canonical form: addresses strictly rising. No listed cell is equal to what an unlisted address reads as, which is no
value at all. -/
abbrev memWf (m : Memory) : Prop := m.Pairwise (fun x y => x.1 < y.1)

/-- The cells of the bytes `bs` at addresses `a`, `a + 1`, and on. -/
def cellsAt (a : Nat) : List Byte → Memory
  | [] => []
  | b :: bs => (a, b) :: cellsAt (a + 1) bs

/-- The byte at address `a`, if it holds a value. -/
def memByte (m : Memory) (a : Nat) : Option Byte :=
  (m.find? (fun c => c.1 == a)).map (fun c => c.2)

/-- `MemRead(S:a, n)` (00_scope.md R14): the bytes at `a .. a + n - 1`, if all of them hold a value. -/
def memRead (m : Memory) (a n : Nat) : Option (List Byte) :=
  let window := m.filter (fun c => decide (a ≤ c.1) && decide (c.1 < a + n))
  if window.length = n then some (window.map (fun c => c.2)) else none

/-- `MemWrite(S:a, n, v)` (00_scope.md R14) with `n` the length of `v`. -/
def memWrite (m : Memory) (a : Nat) (v : List Byte) : Memory :=
  m.filter (fun c => decide (c.1 < a)) ++ cellsAt a v ++ m.filter (fun c => decide (a + v.length ≤ c.1))

/-- Drops the cells at address `n` and above, which "hold no defined value" from here on (10_state.md R22, R38; log 6). -/
def memTruncate (m : Memory) (n : Nat) : Memory :=
  m.filter (fun c => decide (c.1 < n))

end Sys2Proof.Machine
end

