-- ==== Sys2Proof/Machine/Units.lean ====
section
/-! DEFINITION. The state of each unit (10_state.md sections 2 to 5) and its reset value (10_state.md R56). -/

namespace Sys2Proof.Machine

/-- FrameSynchronizer state (10_state.md R22 to R28). -/
structure Fs where
  /-- `FS.BUF`, space `SB` (R22): the elements below `FS.POS`. -/
  buf : Memory
  /-- `FS.POS` (R22). -/
  pos : Nat
  /-- `FS.PEND` (R23), oldest first. -/
  pend : List Byte
  /-- `FS.DEC[h]` (R24), spaces `DF0` to `DF7`. -/
  dec : Vector Memory 8
  /-- `FS.ERR[h]` (R25). -/
  err : Vector Word32 8
  /-- `FS.LOCKED` (R26). -/
  locked : Bool
  /-- `FS.ACTIVE` (R27). -/
  active : Hyp
  /-- `FS.READY` (R28). -/
  ready : Bool
  deriving DecidableEq, Repr

/-- ConvolutionalDeinterleaver state (10_state.md R35 to R39). -/
structure Di where
  /-- `DI.FIFO[b]` (R35), spaces `BR0` and on, each oldest first. -/
  fifo : List (List Byte)
  /-- `DI.COMM` (R36). -/
  comm : Nat
  /-- `DI.SYNCED` (R37). -/
  synced : Bool
  /-- `DI.FRAME` (R38), space `OF`: the elements below `DI.FILL`. -/
  frame : Memory
  /-- `DI.FILL` (R38). -/
  fill : Nat
  /-- `DI.OUTQ` (R39), oldest first. -/
  outq : List (List Byte)
  deriving DecidableEq, Repr

/-- Descrambler state (10_state.md R45, R46). -/
structure Ds where
  /-- `DS.GROUP` (R46). -/
  group : Nat
  /-- `DS.KS` (R45), space `KS`. -/
  ks : Memory
  deriving DecidableEq, Repr

/-- SyncCorrelator state (10_state.md R50 to R52). -/
structure Cr where
  /-- `CR.NW` (R50). -/
  nw : Nat
  /-- `CR.WORD[r]` (R50), spaces `RW0` and on. -/
  word : List Memory
  /-- `CR.BESTOFF[r]` (R51). -/
  bestOff : List Word32
  /-- `CR.BESTSCORE[r]` (R51). -/
  bestScore : List Word32
  /-- `CR.BESTWORD` (R52). -/
  bestWord : Nat
  /-- `CR.VALID` (R52). -/
  valid : Bool
  deriving DecidableEq, Repr

/-- 10_state.md R56, the `FS` rows. -/
def fsReset : Fs where
  buf := []
  pos := 0
  pend := []
  dec := #v[[], [], [], [], [], [], [], []]
  err := #v[0, 0, 0, 0, 0, 0, 0, 0]
  locked := false
  active := 0
  ready := false

/-- 10_state.md R35: branch `b` holds `M * (I - 1 - b)` placeholder bytes. -/
def branchLen (p : Params) (b : Nat) : Nat :=
  p.M * (p.I - 1 - b)

/-- 10_state.md R56, the `DI` rows: the zero pre-fill of the branches (43_deinterleaver.md R220). -/
def diReset (p : Params) : Di where
  fifo := (List.range p.I).map (fun b => List.replicate (branchLen p b) 0)
  comm := 0
  synced := false
  frame := []
  fill := 0
  outq := []

/-- 00_scope.md R7: `GROUP0`. -/
abbrev group0 : Nat := 8

/-- 44_descrambler.md R256: a group size and the table that belongs to it. -/
def dsOf (p : Params) (g : Nat) : Ds where
  group := g
  ks := cellsAt 0 (keystream p g)

/-- 10_state.md R56, the `DS` rows. -/
def dsReset (p : Params) : Ds :=
  dsOf p group0

/-- 10_state.md R56, the `CR` rows. -/
def crReset (p : Params) : Cr where
  nw := 0
  word := List.replicate p.rMax []
  bestOff := List.replicate p.rMax 0
  bestScore := List.replicate p.rMax 0
  bestWord := 0
  valid := false

end Sys2Proof.Machine
end

