-- ==== Sys2Proof/Machine/State.lean ====
section
/-! DEFINITION. The state of the machine: the four units of 10_state.md, the parameters of the instance, the two directions of the
command port and the reset pin; its value after reset; the reasons a step can stop. -/

namespace Sys2Proof.Machine

/-- The state. `fs`, `di`, `ds`, `cr` are the record of 10_state.md (45_host_pipeline.md R289); the rotator has none (R55).
`par` is configuration, not state of the spec: no step changes it (log 1). `cmdIn`, `rspOut` are the two directions of the
command port (30_encoding.md R90; log 4), `rstPin` the reset pin (70_reset_and_hazards.md R341; log 5). -/
structure State where
  par : Params
  fs : Fs
  di : Di
  ds : Ds
  cr : Cr
  /-- The bytes the host has sent and the block has not consumed, oldest first. -/
  cmdIn : List Byte
  /-- The responses of the block, oldest first. -/
  rspOut : List Response
  /-- The reset pin is asserted. -/
  rstPin : Bool
  deriving DecidableEq, Repr

/-- The state after reset of an instance with parameters `p` (10_state.md R56, 70_reset_and_hazards.md R342): every unit at its
reset value, the ports empty, the pin released. -/
def State.resetOf (p : Params) : State where
  par := p
  fs := fsReset
  di := diReset p
  ds := dsReset p
  cr := crReset p
  cmdIn := []
  rspOut := []
  rstPin := false

/-- The state after reset of the instance of `Config.reference` (log 2). -/
def State.reset : State :=
  State.resetOf Config.reference

/-- A state element or address space that can hold no value, or be missing: the spaces of 20_memory.md R60 by their names there,
and the two result registers of the correlator. -/
inductive Place where
  | sb
  | df (h : Hyp)
  | br (b : Nat)
  | frameOf
  | ks
  | rw (r : Nat)
  | bestOff (r : Nat)
  | bestScore (r : Nat)
  deriving DecidableEq, Repr

/-- Why the machine stops with a fault. -/
inductive Fault where
  /-- A rule read an element that holds no defined value (10_state.md R56). Raised by the reads of `FS.UPDATE`, `FS.FINDSYNC`,
  `FS.GETFRAME`, `DI.PUSH`, `CR.RUN`, `CR.GET`, `DS.APPLY`, and only in states that break the invariant of Safety.lean: "the rules
  read none of them before writing it" (70_reset_and_hazards.md R342). Safe. -/
  | absent (place : Place)
  deriving DecidableEq, Repr

/-- Why the machine refuses an instruction. -/
inductive Refusal where
  /-- The instruction has no meaning in the model yet: raised by an arm of `exec` and by nothing else; no arm raises it now. Safe. -/
  | notModelled (mnemonic : String)
  deriving DecidableEq, Repr

end Sys2Proof.Machine
end

