-- ==== Sys2Proof/Machine/Ops.lean ====
section
/-! DEFINITION. The shared operations of the meanings: answering a command, raising an error, resetting units, reading a space that
may hold no value. -/

namespace Sys2Proof.Machine

/-- The frame synchronizer of `s` replaced. -/
def State.setFs (s : State) (f : Fs) : State := { s with fs := f }

/-- The deinterleaver of `s` replaced. -/
def State.setDi (s : State) (d : Di) : State := { s with di := d }

/-- The descrambler of `s` replaced. -/
def State.setDs (s : State) (d : Ds) : State := { s with ds := d }

/-- The correlator of `s` replaced. -/
def State.setCr (s : State) (c : Cr) : State := { s with cr := c }

/-- 30_encoding.md R90: a command is answered with exactly one response, in command order; 20_memory.md R76: the block does not
wait for the host to take it. -/
def State.respond (s : State) (status : Status) (payload : List Byte) : State :=
  { s with rspOut := s.rspOut ++ [{ status := status, payload := payload }] }

/-- 60_exceptions.md R300, R305: taking an error. The response is the single status byte; no element of 10_state.md changes, no
program counter or status is saved, and control goes nowhere. There is no return from it (R306): the block is ready for the
next command. -/
def raiseError (e : ErrorCode) (s : State) : State :=
  s.respond (.error e) []

/-- The outcome of a computation that may read an absent element: the fault, or the state made from its result. -/
def finish {α : Type} (r : Except Fault α) (k : α → State) : Host.Outcome State Fault Refusal :=
  match r with
  | .error e => .fault e
  | .ok a => .next (k a)

/-- `MemRead(S:a, n)` on the space `m` named `place`; an element without a value is a fault, which no reachable state raises. -/
def readSpace (place : Place) (m : Memory) (a n : Nat) : Except Fault (List Byte) :=
  match memRead m a n with
  | none => .error (.absent place)
  | some v => .ok v

/-- 70_reset_and_hazards.md R340: every element of the units that the mask names goes to its value in 10_state.md R56; no element
of a unit not named changes. -/
def resetUnits (m : BitVec 4) (s : State) : State :=
  { s with
    cr := if m.getLsbD 0 then crReset s.par else s.cr
    fs := if m.getLsbD 1 then fsReset else s.fs
    di := if m.getLsbD 2 then diReset s.par else s.di
    ds := if m.getLsbD 3 then dsReset s.par else s.ds }

/-- 70_reset_and_hazards.md R341: the reset pin has the effect of `RESET 0x0F` on the state, gives no response, and abandons the
command in flight; after it the block waits for the first header byte of a command. DEDUCED, unsafe: every byte that was on the
command port is abandoned with it, and the assertion is used up (log 5). -/
def resetByPin (s : State) : State :=
  { resetUnits 0b1111 s with cmdIn := [], rstPin := false }

end Sys2Proof.Machine
end

