-- ==== Sys2Proof/Machine/Operands.lean ====
section
/-! DEFINITION. The fields of the responses (30_encoding.md section 6) and the decoder a parameter names (42_framesync.md R160). -/

namespace Sys2Proof.Machine

/-- 30_encoding.md R107, R108: one byte, a word index. Above 255 the spec states no value: a free one (log 8). -/
def indexByte (r : Nat) : Byte :=
  if r < 256 then BitVec.ofNat 8 r else Config.wideIndexByte r

/-- 30_encoding.md R115: `FS.POS` as a u32. From 2^32 on the spec states no value: a free one (log 9). -/
def posWord (n : Nat) : Word32 :=
  if n < 2 ^ 32 then BitVec.ofNat 32 n else Config.widePosWord n

/-- 95_test_vectors.md 2.5: bit `7 - i` is 1 iff soft bit `i` is at least 128. A soft bit beyond the buffer, which the configuration
T1 there does not have, counts as 0 (DESIGN CHOICE: log 7). -/
def sliceByte (soft : List Byte) : Byte :=
  (List.range 8).foldl (fun v i => (v <<< 1) ||| (BitVec.ofBool (decide (128 ≤ (soft.getD i 0).toNat))).setWidth 8) 0

/-- 95_test_vectors.md 2.5: `n` bytes sliced from the soft bits, eight each. -/
def sliceFrame : Nat → List Byte → List Byte
  | 0, _ => []
  | n + 1, soft => sliceByte (soft.take 8) :: sliceFrame n (soft.drop 8)

/-- 95_test_vectors.md 2.5: the number of weak soft bits, `64 <= B[k] <= 191`, among the `8F` that are sliced. -/
def weakCount (n : Nat) (soft : List Byte) : Nat :=
  (soft.take (8 * n)).countP (fun b => decide (64 ≤ b.toNat) && decide (b.toNat ≤ 191))

/-- `ConvDecode` of the instance (00_scope.md R8, 42_framesync.md R160): a decoded frame of `F` bytes and an error count. -/
def convDecode (p : Params) (soft : List Byte) : List Byte × Nat :=
  match p.decoder with
  | .external name => ((Config.convDecode name p.C p.F soft).1.toList, (Config.convDecode name p.C p.F soft).2)
  | .hardSlicer => (sliceFrame p.F soft, weakCount p.F soft)

end Sys2Proof.Machine
end

