-- ==== Sys2Proof/Machine/Flags.lean ====
section
/-! DEFINITION. The four flags of the block (10_state.md R57), each set and cleared by its own operation, and the two response bytes
that carry flags. There are no arithmetic condition codes (R57). -/

namespace Sys2Proof.Machine

/-- 42_framesync.md R179, found sync: `FS.LOCKED <- 1; FS.ACTIVE <- w`. -/
def lockOn (w : Hyp) (f : Fs) : Fs := { f with locked := true, active := w }

/-- 42_framesync.md R179, found sync: `FS.READY <- 1`. -/
def markReady (f : Fs) : Fs := { f with ready := true }

/-- 42_framesync.md R190: `FS.READY <- 0` when the frame is returned. -/
def clearReady (f : Fs) : Fs := { f with ready := false }

/-- 42_framesync.md R179, R183: a failed sync test while locked clears `FS.LOCKED` and `FS.READY`; while unlocked it clears nothing. -/
def loseLock (f : Fs) : Fs := if f.locked then { f with locked := false, ready := false } else f

/-- 43_deinterleaver.md R223: `DI.SYNCED <- 1`. -/
def markSynced (d : Di) : Di := { d with synced := true }

/-- 41_correlator.md R141, R142: `CR.VALID <- 0`. -/
def clearValid (c : Cr) : Cr := { c with valid := false }

/-- 41_correlator.md R146: `CR.VALID <- 1`. -/
def markValid (c : Cr) : Cr := { c with valid := true }

/-- 30_encoding.md R115: `S[0]` = `FS.LOCKED`, `S[1]` = `FS.READY`, `S[4:2]` = `FS.ACTIVE`, `S[7:5]` = 0. -/
def statusFlags (f : Fs) : Byte :=
  (0 : BitVec 3) ++ BitVec.ofNat 3 f.active.val ++ BitVec.ofBool f.ready ++ BitVec.ofBool f.locked

/-- 30_encoding.md R112: `B[7]` = `LOSS`, `B[6:3]` = 0, `B[2:0]` = the hypothesis found, 0 when there is none. -/
def syncByte (loss : Bool) (w : Option Hyp) : Byte :=
  BitVec.ofBool loss ++ (0 : BitVec 4) ++ BitVec.ofNat 3 (w.elim 0 (fun h => h.val))

end Sys2Proof.Machine
end

