-- ==== Sys2Proof/Machine/Correlator.lean ====
section
/-! DEFINITION. SyncCorrelator (41_correlator.md): `CR.CLR`, `CR.ADDW`, `CR.RUN`, `CR.GET`. -/

namespace Sys2Proof.Machine

/-- `Hard(x)` (41_correlator.md R140): 1 when `x >= CORR_T`. -/
def hardBit (p : Params) (x : Byte) : Bool :=
  decide (p.corrT.toNat ≤ x.toNat)

/-- `Match(x, e)` (41_correlator.md R140): "expected-1 stored as 0, expected-0 stored as 255"; any other element matches nothing. -/
def matchElem (p : Params) (x e : Byte) : Bool :=
  (hardBit p x && e == 0) || (!hardBit p x && e == 255)

/-- `Score(r, o)` (41_correlator.md R143) for the reference word `ref`: the matches of `ref` with the input from offset `o` on. -/
def score (p : Params) (ref buf : List Byte) (o : Nat) : Nat :=
  (List.zipWith (matchElem p) (buf.drop o) ref).countP id

/-- One step of the scan of 41_correlator.md R144 and R145: the pair is replaced only when the new score is greater. -/
def keepBetter (best : Nat × Nat) (cand : Nat × Nat) : Nat × Nat :=
  if best.2 < cand.2 then cand else best

/-- `(BestOff(r), BestScore(r))` (41_correlator.md R144): from `(0, 0)`, scanning the offsets `0 .. N - W` upward. -/
def bestOf (p : Params) (ref buf : List Byte) : Nat × Nat :=
  ((List.range (buf.length - p.W + 1)).map (fun o => (o, score p ref buf o))).foldl keepBetter (0, 0)

/-- `BestWord` (41_correlator.md R145): the smallest index at which the score is largest. -/
def bestWordOf (scores : List Nat) : Nat :=
  (scores.zipIdx.foldl (fun best x => keepBetter best (x.2, x.1)) (0, scores.headD 0)).1

/-- The reference words `0 .. NW - 1`, read from their spaces (20_memory.md R66). -/
def readWords (p : Params) (word : List Memory) : Nat → Except Fault (List (List Byte))
  | 0 => .ok []
  | n + 1 =>
    match readWords p word n with
    | .error e => .error e
    | .ok refs =>
      match readSpace (.rw n) (word.getD n []) 0 p.W with
      | .error e => .error e
      | .ok ref => .ok (refs ++ [ref])

/-- The result registers after a search (41_correlator.md R146): entries `0 .. NW - 1` written, the others kept, `CR.VALID` set. -/
def storeResults (bests : List (Nat × Nat)) (c : Cr) : Cr :=
  markValid { c with
    bestOff := bests.map (fun b => BitVec.ofNat 32 b.1) ++ c.bestOff.drop bests.length
    bestScore := bests.map (fun b => BitVec.ofNat 32 b.2) ++ c.bestScore.drop bests.length
    bestWord := bestWordOf (bests.map (fun b => b.2)) }

/-- `CR.CLR` (41_correlator.md R141, 30_encoding.md R106): the words keep their bytes but cannot be read. -/
def execCrClr (s : State) : Host.Outcome State Fault Refusal :=
  .next ((s.setCr (clearValid { s.cr with nw := 0 })).respond .ok [])

/-- `CR.ADDW [payload]` (41_correlator.md R142, 30_encoding.md R107): `ERR_LEN` before `ERR_FULL` (60_exceptions.md R304). -/
def execCrAddw (payload : List Byte) (s : State) : Host.Outcome State Fault Refusal :=
  .next (
    if payload.length ≠ s.par.W then raiseError .len s
    else if s.cr.nw = s.par.rMax then raiseError .full s
    else
      let r := s.cr.nw
      (s.setCr (clearValid { s.cr with
        word := s.cr.word.set r (memWrite (s.cr.word.getD r []) 0 payload)
        nw := r + 1 })).respond .ok [indexByte r])

/-- The answer of `CR.RUN` (30_encoding.md R108): the best word, its offset, its score. -/
def runAnswer (bests : List (Nat × Nat)) : List Byte :=
  let w := bestWordOf (bests.map (fun b => b.2))
  indexByte w :: (be32 (BitVec.ofNat 32 (bests.getD w (0, 0)).1) ++ be32 (BitVec.ofNat 32 (bests.getD w (0, 0)).2))

/-- `CR.RUN [payload]` (41_correlator.md R146): `ERR_EMPTY_REF` before `ERR_SHORT_BUF`; the payload is not kept. -/
def execCrRun (payload : List Byte) (s : State) : Host.Outcome State Fault Refusal :=
  if s.cr.nw = 0 then .next (raiseError .emptyRef s)
  else if payload.length < s.par.W then .next (raiseError .shortBuf s)
  else
    finish (readWords s.par s.cr.word s.cr.nw) (fun refs =>
      let bests := refs.map (fun ref => bestOf s.par ref payload)
      (s.setCr (storeResults bests s.cr)).respond .ok (runAnswer bests))

/-- A result register of the correlator, absent only in states that no run reaches. -/
def readResult (place : Place) (regs : List Word32) (r : Nat) : Except Fault Word32 :=
  match regs[r]? with
  | none => .error (.absent place)
  | some v => .ok v

/-- `CR.GET r` (41_correlator.md R148, 30_encoding.md R109). -/
def execCrGet (r : Byte) (s : State) : Host.Outcome State Fault Refusal :=
  if s.cr.valid = true ∧ r.toNat < s.cr.nw then
    match readResult (.bestOff r.toNat) s.cr.bestOff r.toNat with
    | .error e => .fault e
    | .ok off => finish (readResult (.bestScore r.toNat) s.cr.bestScore r.toNat) (fun sc => s.respond .ok (be32 off ++ be32 sc))
  else .next (s.respond .none [])

end Sys2Proof.Machine
end

