-- ==== Sys2Proof/Machine/Deinterleaver.lean ====
section
/-! DEFINITION. ConvolutionalDeinterleaver (43_deinterleaver.md): `DI.PUSH`, `DI.POP`. -/

namespace Sys2Proof.Machine

/-- 00_scope.md R7: a FEC frame is 204 bytes. -/
abbrev fecFrame : Nat := 204

/-- 43_deinterleaver.md R223: a byte that starts the first frame, `SYNC` or `ISYNC` (00_scope.md R7). -/
def isSyncByte (y : Byte) : Bool :=
  y == 0x47 || y == 0xB8

/-- `Accumulate(y)` (43_deinterleaver.md R224). -/
def accumulate (y : Byte) (d : Di) : Except Fault Di :=
  let frame := memWrite d.frame d.fill [y]
  if d.fill + 1 = fecFrame then
    match readSpace .frameOf frame 0 fecFrame with
    | .error e => .error e
    | .ok v => .ok { d with frame := memTruncate frame 0, fill := 0, outq := d.outq ++ [v] }
  else .ok { d with frame := frame, fill := d.fill + 1 }

/-- `Emit(y)` (43_deinterleaver.md R223): discarded before the first sync byte, which is itself accumulated. -/
def emit (y : Byte) (d : Di) : Except Fault Di :=
  if d.synced then accumulate y d
  else if isSyncByte y then accumulate y (markSynced d)
  else .ok d

/-- The branch `b`, which is there in every state that a run reaches. -/
def readBranch (d : Di) (b : Nat) : Except Fault (List Byte) :=
  match d.fifo[b]? with
  | none => .error (.absent (.br b))
  | some q => .ok q

/-- 43_deinterleaver.md R222: the push comes before the pop, so an empty branch emits `x` itself. Gives the emitted byte and the
branch after it. -/
def pushPop (q : List Byte) (x : Byte) : Byte × List Byte :=
  match q with
  | [] => (x, [])
  | y :: rest => (y, rest ++ [x])

/-- `Step(x)` (43_deinterleaver.md R222): the commutator advances whatever is emitted. -/
def diStep (p : Params) (x : Byte) (d : Di) : Except Fault Di :=
  match readBranch d d.comm with
  | .error e => .error e
  | .ok q =>
    emit (pushPop q x).1
      { d with fifo := d.fifo.set d.comm (pushPop q x).2, comm := (d.comm + 1) % p.I }

/-- 43_deinterleaver.md R221: `for k in 0 .. LEN-1: Step(payload[k])`. -/
def diSteps (p : Params) : List Byte → Di → Except Fault Di
  | [], d => .ok d
  | x :: xs, d =>
    match diStep p x d with
    | .error e => .error e
    | .ok d' => diSteps p xs d'

/-- `DI.PUSH [payload]` (43_deinterleaver.md R221, 30_encoding.md R116). -/
def execDiPush (payload : List Byte) (s : State) : Host.Outcome State Fault Refusal :=
  finish (diSteps s.par payload s.di) (fun d => (s.setDi d).respond .ok [])

/-- `DI.POP` (43_deinterleaver.md R226, 30_encoding.md R117). -/
def execDiPop (s : State) : Host.Outcome State Fault Refusal :=
  .next (
    match s.di.outq with
    | [] => s.respond .none []
    | v :: rest => (s.setDi { s.di with outq := rest }).respond .ok v)

end Sys2Proof.Machine
end

