-- ==== Sys2Proof/Machine/Descrambler.lean ====
section
/-! DEFINITION. Descrambler (44_descrambler.md): `DS.CFG`, `DS.APPLY`. -/

namespace Sys2Proof.Machine

/-- `DS.CFG g` (44_descrambler.md R256, 30_encoding.md R118): the table is recomputed only if the group size changes. -/
def execDsCfg (g : Byte) (s : State) : Host.Outcome State Fault Refusal :=
  .next (
    if g = 0 then raiseError .illegal s
    else if g.toNat ≠ s.ds.group then (s.setDs (dsOf s.par g.toNat)).respond .ok []
    else s.respond .ok [])

/-- 44_descrambler.md R257: `out[i] <- payload[i] ^ DS.KS[i]`. -/
def xorBytes (payload ks : List Byte) : List Byte :=
  List.zipWith (fun x k => x ^^^ k) payload ks

/-- `DS.APPLY [payload]` (44_descrambler.md R257, 30_encoding.md R119). -/
def execDsApply (payload : List Byte) (s : State) : Host.Outcome State Fault Refusal :=
  if payload.length ≠ pkt * s.ds.group then .next (raiseError .len s)
  else finish (readSpace .ks s.ds.ks 0 payload.length) (fun ks => s.respond .ok (xorBytes payload ks))

end Sys2Proof.Machine
end

