-- ==== Sys2Proof/Machine/Rotator.lean ====
section
/-! DEFINITION. SoftSymbolRotator (40_rotator.md): `ROT`. -/

namespace Sys2Proof.Machine

/-- `Neg(b)` (40_rotator.md R130): `254 - b`, and 0 for 255. -/
def negSoft (b : Byte) : Byte :=
  if b = 255 then 0 else 254 - b

/-- `Rot(h, (I, Q))` (40_rotator.md R131): the table, one row for each `h`. -/
def rotSymbol (h : Hyp) (i q : Byte) : Byte × Byte :=
  match h.val with
  | 0 => (i, q)
  | 1 => (negSoft q, i)
  | 2 => (negSoft i, negSoft q)
  | 3 => (q, negSoft i)
  | 4 => (i, negSoft q)
  | 5 => (q, i)
  | 6 => (negSoft i, q)
  | _ => (negSoft q, negSoft i)

/-- `RotBuf(h, B)` (40_rotator.md R134), symbol by symbol. R134 takes an even length only; a last byte without a partner, which no
rule passes in, stays as it is (DESIGN CHOICE, safe: log 10). -/
def rotBuf (h : Hyp) : List Byte → List Byte
  | i :: q :: rest => (rotSymbol h i q).1 :: (rotSymbol h i q).2 :: rotBuf h rest
  | rest => rest

/-- `ROT h [payload]` (40_rotator.md R133, 30_encoding.md R105). -/
def execRot (h : Hyp) (payload : List Byte) (s : State) : Host.Outcome State Fault Refusal :=
  .next (if payload.length % 2 = 1 then raiseError .len s else s.respond .ok (rotBuf h payload))

end Sys2Proof.Machine
end

