-- ==== Sys2Proof/Machine/FrameSync.lean ====
section
/-! DEFINITION. FrameSynchronizer (42_framesync.md): `FS.PUT`, `FS.UPDATE`, `FS.FINDSYNC`, `FS.GETFRAME`, `FS.GETBER`, `FS.STATUS`. -/

namespace Sys2Proof.Machine

/-! ### Feeding the buffer -/

/-- `TopUp()` (42_framesync.md R162). -/
def topUp (p : Params) (f : Fs) : Fs :=
  let n := min f.pend.length (p.C - f.pos)
  { f with buf := memWrite f.buf f.pos (f.pend.take n), pend := f.pend.drop n, pos := f.pos + n }

/-! ### The decode cycle -/

/-- The eight hypotheses, in order. -/
def allHyps : List Hyp := [0, 1, 2, 3, 4, 5, 6, 7]

/-- The decoded set `H` (42_framesync.md R170). -/
def decodedSet (f : Fs) : List Hyp :=
  if f.locked then [f.active] else allHyps

/-- 10_state.md R25, 42_framesync.md R172: a count above 2^32 - 1 is stored as 2^32 - 1. -/
def saturate32 (e : Nat) : Word32 :=
  BitVec.ofNat 32 (min e (2 ^ 32 - 1))

/-- The writes of a decode cycle on the full buffer `soft` (42_framesync.md R171, R172): `FS.DEC[h]` and `FS.ERR[h]` for `h` in `H`,
all at once (20_memory.md R72); the others keep their values (R173). -/
def decodeAll (p : Params) (soft : List Byte) (f : Fs) : Fs :=
  { f with
    dec := Vector.ofFn (fun h =>
      if h ∈ decodedSet f then memWrite f.dec[h] 0 (convDecode p (rotBuf h soft)).1 else f.dec[h])
    err := Vector.ofFn (fun h =>
      if h ∈ decodedSet f then saturate32 (convDecode p (rotBuf h soft)).2 else f.err[h]) }

/-- `DecodeCycle()` (42_framesync.md R172); `FS.POS = C` where it is called. -/
def decodeCycle (p : Params) (f : Fs) : Except Fault Fs :=
  match readSpace .sb f.buf 0 p.C with
  | .error e => .error e
  | .ok soft => .ok (decodeAll p soft f)

/-! ### The sync test -/

/-- 00_scope.md R13: the number of 1 bits of a byte. -/
def popcnt (v : Byte) : Nat :=
  (List.range 8).countP (fun i => v.getLsbD i)

/-- 42_framesync.md R175, 00_scope.md R7: the offsets tested and the byte expected at each. -/
def syncPattern : List (Nat × Byte) :=
  [(0, 0xB8), (204, 0x47), (408, 0x47), (612, 0x47), (816, 0x47)]

/-- `SyncErr(d)` (42_framesync.md R175) of a decoded frame; `none` if a tested byte holds no value, which the cycle that has just
written the frame rules out. -/
def syncErr (d : Memory) : Option Nat :=
  syncPattern.foldl
    (fun acc x => match acc, memByte d x.1 with
      | some n, some b => some (n + popcnt (b ^^^ x.2))
      | _, _ => none)
    (some 0)

/-- `SyncPresent(d)` (42_framesync.md R176): the summed bit errors are below 5. -/
def syncPresent (d : Memory) : Bool :=
  match syncErr d with
  | some n => decide (n < 5)
  | none => false

/-- 42_framesync.md R179: `P`, the members of `H` whose frames pass. -/
def passing (f : Fs) : List Hyp :=
  (decodedSet f).filter (fun h => syncPresent f.dec[h])

/-- `Select(P)` (42_framesync.md R181): the smallest member, `none` for the empty set. -/
def selectHyp (hyps : List Hyp) : Option Hyp :=
  hyps.min?

/-! ### Moving the buffer -/

/-- `Shift()` (42_framesync.md R177): the oldest soft bit is lost. -/
def shiftBuf (p : Params) (f : Fs) : Except Fault Fs :=
  match readSpace .sb f.buf 1 (p.C - 1) with
  | .error e => .error e
  | .ok v => .ok { f with buf := memTruncate (memWrite f.buf 0 v) (p.C - 1), pos := p.C - 1 }

/-- `Advance()` (42_framesync.md R178): the guard region becomes the start of the buffer; all of it is read before any is written. -/
def advanceBuf (p : Params) (f : Fs) : Except Fault Fs :=
  match readSpace .sb f.buf (p.C - p.G) p.G with
  | .error e => .error e
  | .ok g => .ok { f with buf := memTruncate (memWrite f.buf 0 g) p.G, pos := p.G }

/-! ### Searching and locking -/

/-- How one turn of the loop of 42_framesync.md R179 ends, one constructor for each action of the table of R182. -/
inductive Turn where
  /-- The buffer cannot be filled. -/
  | notFull (f : Fs)
  /-- Sync found on `w`. -/
  | found (w : Hyp) (f : Fs)
  /-- No sync; `loss` says that the lock was lost in this turn. -/
  | missed (loss : Bool) (f : Fs)
  deriving DecidableEq, Repr

/-- The second half of a turn (42_framesync.md R179): the sync test on the cycle that has just run, then lock and advance, or
unlock and shift. -/
def testSync (p : Params) (f : Fs) : Except Fault Turn :=
  match selectHyp (passing f) with
  | some w =>
    match advanceBuf p (lockOn w f) with
    | .error e => .error e
    | .ok g => .ok (.found w (markReady g))
  | none =>
    match shiftBuf p (loseLock f) with
    | .error e => .error e
    | .ok g => .ok (.missed f.locked g)

/-- One turn of the loop of 42_framesync.md R179. -/
def searchTurn (p : Params) (f : Fs) : Except Fault Turn :=
  if (topUp p f).pos < p.C then .ok (.notFull (topUp p f))
  else
    match decodeCycle p (topUp p f) with
    | .error e => .error e
    | .ok g => testSync p g

/-- What `FS.FINDSYNC` ends with: the state of the unit, `LOSS`, and the hypothesis found. -/
structure Search where
  fs : Fs
  loss : Bool
  found : Option Hyp
  deriving DecidableEq, Repr

/-- The loop of 42_framesync.md R179, at most `n` turns after the first. A missed turn leaves `FS.POS = C - 1`, so the next one needs
a pending byte: `len(FS.PEND) + 1` turns after the first are always enough (R180), and the last line is not reached (DEDUCED, safe: log 11). -/
def searchLoop (p : Params) : Nat → Bool → Fs → Except Fault Search
  | n, loss, f =>
    match searchTurn p f with
    | .error e => .error e
    | .ok (.notFull g) => .ok { fs := g, loss := loss, found := none }
    | .ok (.found w g) => .ok { fs := g, loss := loss, found := some w }
    | .ok (.missed lost g) =>
      match n with
      | n + 1 => searchLoop p n (loss || lost) g
      | 0 => .ok { fs := g, loss := loss || lost, found := none }

/-- The search of 42_framesync.md R179, with the bound of R180. -/
def findSync (p : Params) (f : Fs) : Except Fault Search :=
  searchLoop p (f.pend.length + 1) false f

/-! ### The commands -/

/-- `FS.PUT [payload]` (42_framesync.md R163, 30_encoding.md R110). -/
def execFsPut (payload : List Byte) (s : State) : Host.Outcome State Fault Refusal :=
  .next ((s.setFs (topUp s.par { s.fs with pend := s.fs.pend ++ payload })).respond .ok [])

/-- `FS.UPDATE` (42_framesync.md R165, 30_encoding.md R111): no sync test, no flag written. -/
def execFsUpdate (s : State) : Host.Outcome State Fault Refusal :=
  if (topUp s.par s.fs).pos < s.par.C then .next ((s.setFs (topUp s.par s.fs)).respond .none [])
  else finish (decodeCycle s.par (topUp s.par s.fs)) (fun f => (s.setFs f).respond .ok [])

/-- The status of a search: `OK` when a hypothesis was found, else `NONE` (30_encoding.md R112). -/
def searchStatus (r : Search) : Status :=
  if r.found.isSome then .ok else .none

/-- `FS.FINDSYNC` (42_framesync.md R179, 30_encoding.md R112). -/
def execFsFindsync (s : State) : Host.Outcome State Fault Refusal :=
  finish (findSync s.par s.fs) (fun r => (s.setFs r.fs).respond (searchStatus r) [syncByte r.loss r.found])

/-- `FS.GETFRAME` (42_framesync.md R190, 30_encoding.md R113). -/
def execFsGetframe (s : State) : Host.Outcome State Fault Refusal :=
  if s.fs.locked = true ∧ s.fs.ready = true then
    finish (readSpace (.df s.fs.active) s.fs.dec[s.fs.active] 0 s.par.F) (fun d => (s.setFs (clearReady s.fs)).respond .ok d)
  else .next (s.respond .none [])

/-- 42_framesync.md R192: `max(0, FS.ERR[FS.ACTIVE] - GUARD_CORR)` while locked, the sentinel while unlocked. -/
def berWord (p : Params) (f : Fs) : Word32 :=
  if f.locked then BitVec.ofNat 32 (f.err[f.active].toNat - p.guardCorr) else p.berSentinel

/-- `FS.GETBER` (42_framesync.md R192, 30_encoding.md R114): the status is `OK` in both cases. -/
def execFsGetber (s : State) : Host.Outcome State Fault Refusal :=
  .next (s.respond .ok (be32 (berWord s.par s.fs)))

/-- 30_encoding.md R115: the flags byte, the position, the eight error counts. -/
def statusRecord (f : Fs) : List Byte :=
  statusFlags f :: (be32 (posWord f.pos) ++ f.err.toList.flatMap be32)

/-- `FS.STATUS` (42_framesync.md R195, 30_encoding.md R115). -/
def execFsStatus (s : State) : Host.Outcome State Fault Refusal :=
  .next (s.respond .ok (statusRecord s.fs))

end Sys2Proof.Machine
end

