-- ==== Sys2Proof/Machine/System.lean ====
section
/-! DEFINITION. The system command `RESET` (70_reset_and_hazards.md). -/

namespace Sys2Proof.Machine

/-- `RESET m` (70_reset_and_hazards.md R340, 30_encoding.md R104). -/
def execReset (mask : BitVec 4) (s : State) : Host.Outcome State Fault Refusal :=
  .next ((resetUnits mask s).respond .ok [])

end Sys2Proof.Machine
end

