-- ==== Sys2Proof/Machine/Dispatch.lean ====
section
/-! DEFINITION. One arm a command (30_encoding.md R95, column "semantics"). -/

namespace Sys2Proof.Machine

def exec (i : Instr) (s : State) : Host.Outcome State Fault Refusal :=
  match i with
  | .reset mask => Sys2Proof.Machine.execReset mask s
  | .rot h payload => Sys2Proof.Machine.execRot h payload s
  | .crClr => Sys2Proof.Machine.execCrClr s
  | .crAddw payload => Sys2Proof.Machine.execCrAddw payload s
  | .crRun payload => Sys2Proof.Machine.execCrRun payload s
  | .crGet r => Sys2Proof.Machine.execCrGet r s
  | .fsPut payload => Sys2Proof.Machine.execFsPut payload s
  | .fsUpdate => Sys2Proof.Machine.execFsUpdate s
  | .fsFindsync => Sys2Proof.Machine.execFsFindsync s
  | .fsGetframe => Sys2Proof.Machine.execFsGetframe s
  | .fsGetber => Sys2Proof.Machine.execFsGetber s
  | .fsStatus => Sys2Proof.Machine.execFsStatus s
  | .diPush payload => Sys2Proof.Machine.execDiPush payload s
  | .diPop => Sys2Proof.Machine.execDiPop s
  | .dsCfg g => Sys2Proof.Machine.execDsCfg g s
  | .dsApply payload => Sys2Proof.Machine.execDsApply payload s

end Sys2Proof.Machine
end

