-- ==== Sys2Proof/Machine/Fetch.lean ====
section
/-! DEFINITION. Taking the next command from the command port (30_encoding.md R90, R92, R97). -/

namespace Sys2Proof.Machine

/-- What a step finds to do. -/
inductive Work where
  /-- The reset pin is asserted: the state after it (70_reset_and_hazards.md R341). -/
  | pin (s : State)
  /-- No complete command on the port: nothing happens between commands (60_exceptions.md R307). -/
  | idle
  /-- A command the decoder rejects, consumed whole: the state with its error answered (30_encoding.md R97, 60_exceptions.md R300). -/
  | rejected (s : State)
  /-- A command to run, on the state with it consumed. -/
  | run (i : Instr) (s : State)
  deriving DecidableEq, Repr

/-- The pin before the port; then the front of the port (30_encoding.md R96). -/
def nextWork (s : State) : Work :=
  if s.rstPin then .pin (resetByPin s)
  else
    match decode s.cmdIn with
    | .incomplete => .idle
    | .rejected e rest => .rejected (raiseError e { s with cmdIn := rest })
    | .command i rest => .run i { s with cmdIn := rest }

/-- The command whose bits are `w`, numbered as spec/opcode_table.json numbers them, as the whole contents of the command port,
with the pin released: what the host does to have the next step run it (log 4). -/
def placeCommand (s : State) (nbits w : Nat) : State :=
  { s with cmdIn := tableWordBytes nbits w, rstPin := false }

end Sys2Proof.Machine
end

