-- ==== Sys2Proof/Machine/Step.lean ====
section
/-! DEFINITION. One step of the block: the next command, atomically (20_memory.md R70). -/

namespace Sys2Proof.Machine

/-- One step (60_exceptions.md R313): the reset pin if it is asserted, else the next complete command of the command port, else
nothing. -/
def step (s : State) : Host.Outcome State Fault Refusal :=
  match nextWork s with
  | .pin t => .next t
  | .idle => .next s
  | .rejected t => .next t
  | .run i t => exec i t

/-- `s` with the instruction `w` where the next step takes its command from: the front of the command port. -/
def State.withFetchWord (s : State) (nbits w : Nat) : State :=
  placeCommand s nbits w

end Sys2Proof.Machine
end

