-- ==== Sys2Proof/Safety.lean ====
section
/-! DEFINITION. What holds of the state "after reset and after every command" (10_state.md R29, R40, and the ranges of R22 to R52),
in the terms the statements use. -/

namespace Sys2Proof.Machine

/-- The space `m` holds a value at the addresses `0 .. n - 1` and nowhere else. -/
abbrev holdsBelow (m : Memory) (n : Nat) : Prop :=
  m.map (fun c => c.1) = List.range n

/-- The bytes of a space, in address order. -/
def bytesOf (m : Memory) : List Byte :=
  m.map (fun c => c.2)

/-- The `FS` state (10_state.md R22, R24, R29 (a) to (c)): what holds of it between the turns of a search as well. -/
structure FsCore (p : Params) (f : Fs) : Prop where
  /-- R22: `FS.BUF[0 .. FS.POS)` are valid, the others hold no value. -/
  bufHolds : holdsBelow f.buf f.pos
  /-- R29 (a). -/
  posLe : f.pos ≤ p.C
  /-- R29 (b). -/
  readyLocked : f.ready = true → f.locked = true
  /-- R29 (c). -/
  lockedDecoded : f.locked = true → holdsBelow f.dec[f.active] p.F
  /-- R24: an array of `F` bytes, or not written since reset. -/
  decWhole : ∀ h : Hyp, f.dec[h] = [] ∨ holdsBelow f.dec[h] p.F

/-- The `FS` state between commands (10_state.md R29). -/
structure FsInv (p : Params) (f : Fs) : Prop extends FsCore p f where
  /-- R29 (d): a pending byte beside a buffer with room is there only after a found sync. -/
  pendSettled : f.pend = [] ∨ f.pos = p.C ∨ (f.pos = p.G ∧ f.locked = true)

/-- The `DI` state (10_state.md R35 to R40). -/
structure DiInv (p : Params) (d : Di) : Prop where
  /-- R35, R40: the length of every branch. -/
  branchLens : d.fifo.map List.length = (List.range p.I).map (branchLen p)
  /-- R36. -/
  commLt : d.comm < p.I
  /-- R38, R40. -/
  fillLt : d.fill < fecFrame
  /-- R38: `DI.FRAME[0 .. DI.FILL)` are valid, the others hold no value. -/
  frameHolds : holdsBelow d.frame d.fill
  /-- R40. -/
  unsynced : d.synced = false → d.fill = 0 ∧ d.outq = []
  /-- R39: frames of 204 bytes. -/
  outqFrames : ∀ v ∈ d.outq, v.length = fecFrame

/-- The `DS` state (10_state.md R45, R46). -/
structure DsInv (p : Params) (d : Ds) : Prop where
  /-- R46. -/
  groupPos : 1 ≤ d.group
  groupLe : d.group ≤ 255
  /-- R45: the table is a function of the group size and the parameters. -/
  table : d.ks = cellsAt 0 (keystream p d.group)

/-- The `CR` state (10_state.md R50 to R52). -/
structure CrInv (p : Params) (c : Cr) : Prop where
  /-- R50. -/
  nwLe : c.nw ≤ p.rMax
  wordCount : c.word.length = p.rMax
  /-- R50: a loaded word is `W` bytes. -/
  loaded : ∀ r, r < c.nw → holdsBelow (c.word.getD r []) p.W
  wordWhole : ∀ m ∈ c.word, m = [] ∨ holdsBelow m p.W
  /-- R51. -/
  offCount : c.bestOff.length = p.rMax
  scoreCount : c.bestScore.length = p.rMax
  /-- R52. -/
  bestWordLt : c.bestWord < p.rMax
  /-- R52: the results of a search that ran on the loaded words. -/
  validLoaded : c.valid = true → c.bestWord < c.nw

/-- The invariant of the block. -/
structure Inv (s : State) : Prop where
  fs : FsInv s.par s.fs
  di : DiInv s.par s.di
  ds : DsInv s.par s.ds
  cr : CrInv s.par s.cr

/-- A step answers: no fault, no refusal. -/
def answers (o : Host.Outcome State Fault Refusal) : Prop :=
  ∃ t, o = .next t

/-- A run of any length from `s`, whatever the host puts on the ports between the steps, never stops. -/
inductive SafeFor : Nat → State → Prop where
  | stop (s : State) : SafeFor 0 s
  | go (n : Nat) (s t : State) (h : step s = .next t)
      (k : ∀ cmd rsp pin, SafeFor n { t with cmdIn := cmd, rspOut := rsp, rstPin := pin }) : SafeFor (n + 1) s

end Sys2Proof.Machine
end

