-- ==== Sys2Proof/Certificates/Slice0/Obligations.lean ====
section
/-! DEFINITION. The statements for the provers, and the vocabulary they use, written from the rules of spec/ and not from the model's
own functions: an answered command, the port layouts, the first error of the tables of 30_encoding.md R96 and 60_exceptions.md
R301, the stream of soft bits, the sync test, the emitted bytes and the frames cut from them, the keystream by index. -/

namespace Sys2Proof.Spec

open Sys2Proof.Machine

/-- `s` with one more response, and nothing else changed (30_encoding.md R90). -/
def answered (s : State) (status : Status) (payload : List Byte) : State :=
  { s with rspOut := s.rspOut ++ [{ status := status, payload := payload }] }

/-- A 32-bit field, most significant byte first (30_encoding.md R91). -/
def u32 (n : Nat) : List Byte :=
  [24, 16, 8, 0].map (fun k => BitVec.ofNat 8 (n / 2 ^ k))

/-- The space `m` holds exactly the bytes `bs`, from address 0 on. -/
def holdsBytes (m : Memory) (bs : List Byte) : Prop :=
  holdsBelow m bs.length ∧ bytesOf m = bs

/-! ### Commands on the port -/

/-- The bytes of a command in transmission order (30_encoding.md R91, R92). -/
def commandBytes (h : Header) (payload : List Byte) : List Byte :=
  h.op :: h.arg :: BitVec.ofNat 8 (h.rsv.toNat / 256) :: BitVec.ofNat 8 h.rsv.toNat :: (u32 h.len.toNat ++ payload)

/-- The port of `s` holds a whole command and then `rest`; the pin is released. -/
structure OnPort (s : State) (h : Header) (payload rest : List Byte) : Prop where
  pin : s.rstPin = false
  whole : payload.length = h.len.toNat
  port : s.cmdIn = commandBytes h payload ++ rest

/-- The `OP` values that 30_encoding.md R97 lists as illegal. -/
def illegalOp (op : Nat) : Bool :=
  op == 0x00 || (0x02 ≤ op && op ≤ 0x0F) || (0x11 ≤ op && op ≤ 0x1F) || (0x24 ≤ op && op ≤ 0x2F)
    || (0x36 ≤ op && op ≤ 0x3F) || (0x42 ≤ op && op ≤ 0x4F) || (0x52 ≤ op && op ≤ 0xFF)

/-- A reserved `ARG` bit of this opcode is not 0 (30_encoding.md R100, third column). -/
def reservedArg (op arg : Nat) : Bool :=
  match op with
  | 0x01 => 16 ≤ arg
  | 0x10 => 8 ≤ arg
  | 0x23 => false
  | 0x50 => false
  | _ => arg != 0

/-- The error of a complete command, if it has one: the checks of 30_encoding.md R96 in order, then the command's own errors in the
order of 60_exceptions.md R304, with the conditions of the table of 60_exceptions.md R301. -/
def firstError (s : State) (h : Header) : Option ErrorCode :=
  if illegalOp h.op.toNat then some .illegal
  else if h.rsv ≠ 0 then some .illegal
  else if reservedArg h.op.toNat h.arg.toNat || (h.op.toNat == 0x50 && h.arg.toNat == 0) then some .illegal
  else
    match h.op.toNat with
    | 0x10 => if h.len.toNat % 2 = 1 then some .len else none
    | 0x21 => if h.len.toNat ≠ s.par.W then some .len else if s.cr.nw = s.par.rMax then some .full else none
    | 0x22 => if s.cr.nw = 0 then some .emptyRef else if h.len.toNat < s.par.W then some .shortBuf else none
    | 0x30 => none
    | 0x40 => none
    | 0x51 => if h.len.toNat ≠ 188 * s.ds.group then some .len else none
    | _ => if h.len.toNat ≠ 0 then some .len else none

/-- `match` and `mask` of a row of spec/opcode_table.json. -/
def tableRow : Opcode → BitVec 64 × BitVec 64
  | .reset => (0x0100000000000000, 0xFFF0FFFFFFFFFFFF)
  | .rot => (0x1000000000000000, 0xFFF8FFFF00000001)
  | .crClr => (0x2000000000000000, 0xFFFFFFFFFFFFFFFF)
  | .crAddw => (0x2100000000000000, 0xFFFFFFFF00000000)
  | .crRun => (0x2200000000000000, 0xFFFFFFFF00000000)
  | .crGet => (0x2300000000000000, 0xFF00FFFFFFFFFFFF)
  | .fsPut => (0x3000000000000000, 0xFFFFFFFF00000000)
  | .fsUpdate => (0x3100000000000000, 0xFFFFFFFFFFFFFFFF)
  | .fsFindsync => (0x3200000000000000, 0xFFFFFFFFFFFFFFFF)
  | .fsGetframe => (0x3300000000000000, 0xFFFFFFFFFFFFFFFF)
  | .fsGetber => (0x3400000000000000, 0xFFFFFFFFFFFFFFFF)
  | .fsStatus => (0x3500000000000000, 0xFFFFFFFFFFFFFFFF)
  | .diPush => (0x4000000000000000, 0xFFFFFFFF00000000)
  | .diPop => (0x4100000000000000, 0xFFFFFFFFFFFFFFFF)
  | .dsCfg => (0x5000000000000000, 0xFF00FFFFFFFFFFFF)
  | .dsApply => (0x5100000000000000, 0xFFFFFFFF00000000)

/-- The header as one 64-bit word (30_encoding.md R91). -/
def headerWord (h : Header) : BitVec 64 :=
  h.op ++ h.arg ++ h.rsv ++ h.len

/-- The length of a response payload by opcode and status (30_encoding.md R104 to R119). -/
def responseLength (p : Params) (i : Instr) (status : Status) : Nat :=
  match status with
  | .error _ => 0
  | .none =>
    match i with
    | .fsFindsync => 1
    | _ => 0
  | .ok =>
    match i with
    | .rot _ payload => payload.length
    | .crAddw _ => 1
    | .crRun _ => 9
    | .crGet _ => 8
    | .fsFindsync => 1
    | .fsGetframe => p.F
    | .fsGetber => 4
    | .fsStatus => 37
    | .diPop => 204
    | .dsApply payload => payload.length
    | .reset _ | .crClr | .fsPut _ | .fsUpdate | .diPush _ | .dsCfg _ => 0

/-- 30_encoding.md R94: `OP[7:4]`. -/
def unitNumber (i : Instr) : Nat :=
  i.opcode.byte.toNat / 16

/-! ### Rotation -/

/-- 40_rotator.md R130: `254 - b`, and 0 for 255, where the subtraction of naturals stops at 0. -/
def neg (b : Byte) : Byte :=
  BitVec.ofNat 8 (254 - b.toNat)

/-- 40_rotator.md R131: the table, by `c` and `r` with `h = 4 * c + r`. -/
def rot (h : Hyp) (i q : Byte) : Byte × Byte :=
  if h.val < 4 then
    if h.val % 4 = 0 then (i, q) else if h.val % 4 = 1 then (neg q, i) else if h.val % 4 = 2 then (neg i, neg q) else (q, neg i)
  else
    if h.val % 4 = 0 then (i, neg q) else if h.val % 4 = 1 then (q, i) else if h.val % 4 = 2 then (neg i, q) else (neg q, neg i)

/-- 00_scope.md R15: the value of a soft bit. -/
def softValue (b : Byte) : Int :=
  (b.toNat : Int) - 127

/-- A quarter turn counter-clockwise, `n` times. -/
def turns : Nat → Int × Int → Int × Int
  | 0, v => v
  | n + 1, v => turns n (-v.2, v.1)

/-- The table of 40_rotator.md R132, row `a`, column `b`. -/
def composed (a b : Hyp) : Nat :=
  (([[0, 1, 2, 3, 4, 5, 6, 7], [1, 2, 3, 0, 7, 4, 5, 6], [2, 3, 0, 1, 6, 7, 4, 5], [3, 0, 1, 2, 5, 6, 7, 4],
    [4, 5, 6, 7, 0, 1, 2, 3], [5, 6, 7, 4, 3, 0, 1, 2], [6, 7, 4, 5, 2, 3, 0, 1], [7, 4, 5, 6, 1, 2, 3, 0]] : List (List Nat)).getD
    a.val []).getD b.val 0

/-! ### Correlation -/

/-- 41_correlator.md R140. -/
def matchesElem (p : Params) (x e : Byte) : Bool :=
  (p.corrT.toNat ≤ x.toNat && e.toNat == 0) || (x.toNat < p.corrT.toNat && e.toNat == 255)

/-- 41_correlator.md R143. -/
def scoreAt (p : Params) (ref buf : List Byte) (o : Nat) : Nat :=
  ((List.range p.W).filter (fun j => matchesElem p (buf.getD (o + j) 0) (ref.getD j 0))).length

/-- The bytes of reference word `r` (10_state.md R50). -/
def wordOf (c : Cr) (r : Nat) : List Byte :=
  bytesOf (c.word.getD r [])

/-! ### The soft bits and the sync test -/

/-- The valid soft bits of the buffer, then the pending ones: what the host has put and the block still holds. -/
def stream (f : Fs) : List Byte :=
  bytesOf f.buf ++ f.pend

/-- `C` soft bits of a stream, from position `k` on. -/
def window (p : Params) (soft : List Byte) (k : Nat) : List Byte :=
  (soft.drop k).take p.C

/-- The bits in which two bytes differ. -/
def wrongBits (x y : Byte) : Nat :=
  ((List.range 8).filter (fun i => x.getLsbD i != y.getLsbD i)).length

/-- 42_framesync.md R175. -/
def syncErrOf (d : List Byte) : Nat :=
  wrongBits (d.getD 0 0) 0xB8 + wrongBits (d.getD 204 0) 0x47 + wrongBits (d.getD 408 0) 0x47 + wrongBits (d.getD 612 0) 0x47
    + wrongBits (d.getD 816 0) 0x47

/-- The frame that hypothesis `h` gives on the full buffer `full` (42_framesync.md R171, R172). -/
def frameOn (p : Params) (full : List Byte) (h : Hyp) : List Byte :=
  (convDecode p (rotBuf h full)).1

/-- 42_framesync.md R176 of that frame. -/
def passes (p : Params) (full : List Byte) (h : Hyp) : Prop :=
  syncErrOf (frameOn p full h) ≤ 4

/-- 42_framesync.md R170 for the decode cycle number `k` of a command that starts in `f`: only the first can be locked. -/
def tested (f : Fs) (k : Nat) (h : Hyp) : Prop :=
  k = 0 → f.locked = true → h = f.active

/-- 42_framesync.md R172, R173: `FS.DEC[h]` and `FS.ERR[h]` after a cycle on `full` that decodes the hypotheses of `H`, and after no
other. -/
def decoded (p : Params) (H : Hyp → Prop) (full : List Byte) (before after : Fs) : Prop :=
  ∀ h : Hyp,
    (H h → holdsBytes after.dec[h] (frameOn p full h) ∧ after.dec[h].length = p.F ∧
      after.err[h].toNat = min (convDecode p (rotBuf h full)).2 (2 ^ 32 - 1)) ∧
    (¬ H h → after.dec[h] = before.dec[h] ∧ after.err[h] = before.err[h])

/-! ### Deinterleaving -/

/-- 00_scope.md R7: `SYNC` or `ISYNC`. -/
def isSync (y : Byte) : Bool :=
  y.toNat == 0x47 || y.toNat == 0xB8

/-- The byte emitted for the payload byte number `n` (43_deinterleaver.md R222): its branch is visited at every `I`-th byte, and a
branch that holds `l` bytes emits what was pushed to it `l` visits ago. -/
def emitted (p : Params) (d : Di) (payload : List Byte) (n : Nat) : Byte :=
  let branch := d.fifo.getD ((d.comm + n) % p.I) []
  if n / p.I < branch.length then branch.getD (n / p.I) 0 else payload.getD (n - p.I * branch.length) 0

/-- All emitted bytes of a payload. -/
def emittedBytes (p : Params) (d : Di) (payload : List Byte) : List Byte :=
  (List.range payload.length).map (emitted p d payload)

/-- The bytes of a payload that go to branch `b`. -/
def branchInput (p : Params) (d : Di) (payload : List Byte) (b : Nat) : List Byte :=
  ((List.range payload.length).filter (fun n => (d.comm + n) % p.I == b)).map (fun n => payload.getD n 0)

/-- The bytes that are cut into frames (43_deinterleaver.md R223): from the first sync byte on. -/
def framed (d : Di) (es : List Byte) : List Byte :=
  if d.synced then bytesOf d.frame ++ es else es.dropWhile (fun y => !isSync y)

/-- The consecutive whole 204-byte frames of a sequence (43_deinterleaver.md R224). -/
def cuts (bs : List Byte) : List (List Byte) :=
  (List.range (bs.length / 204)).map (fun k => (bs.drop (204 * k)).take 204)

/-- 43_deinterleaver.md R225 (b): the byte emitted at input position `n` after reset. -/
def delayed (p : Params) (payload : List Byte) (n : Nat) : Byte :=
  let delay := p.I * (p.M * (p.I - 1 - n % p.I))
  if n < delay then 0 else payload.getD (n - delay) 0

/-- 43_deinterleaver.md R225 (a): the forward interleaver, branch `b` filled with `M * b` zeros. -/
def interleaved (p : Params) (source : List Byte) : List Byte :=
  (List.range source.length).map (fun n =>
    let delay := p.I * (p.M * (n % p.I))
    if n < delay then 0 else source.getD (n - delay) 0)

/-! ### Descrambling -/

/-- 44_descrambler.md R250: `fb = s[14] ^ s[13]`. -/
def feedback (s : Nat) : Nat :=
  (s / 2 ^ 14 + s / 2 ^ 13) % 2

/-- 44_descrambler.md R250: the register after `n` steps. -/
def registerAfter (seed : Nat) : Nat → Nat
  | 0 => seed
  | n + 1 => (2 * registerAfter seed n + feedback (registerAfter seed n)) % 2 ^ 15

/-- 44_descrambler.md R252: the byte generated for index `i`, eight steps, the first bit out highest; no step for index 0. -/
def generated (seed i : Nat) : Nat :=
  (List.range 8).foldl (fun v j => 2 * v + feedback (registerAfter seed (8 * (i - 1) + j))) 0

/-- 44_descrambler.md R252, R253: entry `i` of the table. -/
def keyByte (p : Params) (i : Nat) : Byte :=
  if i = 0 then p.ks0 else if i % 188 = 0 then 0x00 else BitVec.ofNat 8 (generated p.lfsrSeed.toNat i)

/-- The table of `g` packets. -/
def keyTable (p : Params) (g : Nat) : List Byte :=
  (List.range (188 * g)).map (keyByte p)

/-! ### Reset values (10_state.md R56) -/

structure CrAtReset (p : Params) (c : Cr) : Prop where
  nw : c.nw = 0
  valid : c.valid = false
  bestWord : c.bestWord = 0
  bestOff : c.bestOff = List.replicate p.rMax 0
  bestScore : c.bestScore = List.replicate p.rMax 0
  /-- Unspecified: no word holds a value. -/
  word : c.word.length = p.rMax ∧ ∀ r a, memByte (c.word.getD r []) a = none

structure FsAtReset (f : Fs) : Prop where
  pos : f.pos = 0
  pend : f.pend = []
  locked : f.locked = false
  ready : f.ready = false
  active : f.active = 0
  err : ∀ h : Hyp, f.err[h] = 0
  /-- Unspecified: no soft bit, no decoded byte holds a value. -/
  buf : ∀ a, memByte f.buf a = none
  dec : ∀ (h : Hyp) (a : Nat), memByte f.dec[h] a = none

structure DiAtReset (p : Params) (d : Di) : Prop where
  branches : d.fifo.length = p.I
  fifo : ∀ b, b < p.I → d.fifo.getD b [] = List.replicate (p.M * (p.I - 1 - b)) 0
  comm : d.comm = 0
  synced : d.synced = false
  fill : d.fill = 0
  outq : d.outq = []
  /-- Unspecified. -/
  frame : ∀ a, memByte d.frame a = none

structure DsAtReset (p : Params) (d : Ds) : Prop where
  group : d.group = 8
  ks : holdsBytes d.ks (keyTable p 8)

/-- Every memory of the state in its canonical form. -/
structure Canonical (s : State) : Prop where
  buf : memWf s.fs.buf
  dec : ∀ h : Hyp, memWf s.fs.dec[h]
  frame : memWf s.di.frame
  ks : memWf s.ds.ks
  word : ∀ m ∈ s.cr.word, memWf m

end Sys2Proof.Spec

section

open Sys2Proof Sys2Proof.Machine Sys2Proof.Spec

/-! ### Encoding -/

/-- 30_encoding.md R91, R92, R95, R99, R100: the decoder reads back every well-formed command with every operand, whatever follows it. -/
def Obligations.DecodeOfEncode : Prop :=
  ∀ (i : Instr) (rest : List Byte), i.wellFormed = true → decode (encode i ++ rest) = .command i rest

/-- 30_encoding.md R96, R97, R99: what the decoder accepts is a well-formed command written by the encoder, bit for bit, followed by
the rest: no reserved bit is skipped, and every command has one spelling. -/
def Obligations.EncodeOfDecode : Prop :=
  ∀ (port : List Byte) (i : Instr) (rest : List Byte), decode port = .command i rest →
    i.wellFormed = true ∧ port = encode i ++ rest

/-- 30_encoding.md R120: the worked encodings, and the worked responses as bytes. -/
def Obligations.WordsOfTheSpecDecode : Prop :=
  decode [0x01, 0x0F, 0x00, 0x00, 0x00, 0x00, 0x00, 0x00] = .command (.reset 0x0F) [] ∧
  decode [0x30, 0x00, 0x00, 0x00, 0x00, 0x00, 0x00, 0x03, 0x7F, 0x7F, 0x7F] = .command (.fsPut [0x7F, 0x7F, 0x7F]) [] ∧
  decode [0x32, 0x00, 0x00, 0x00, 0x00, 0x00, 0x00, 0x00] = .command .fsFindsync [] ∧
  decode [0x10, 0x05, 0x00, 0x00, 0x00, 0x00, 0x00, 0x02, 0xC8, 0x32] = .command (.rot 5 [0xC8, 0x32]) [] ∧
  decode [0x50, 0x08, 0x00, 0x00, 0x00, 0x00, 0x00, 0x00] = .command (.dsCfg 8) [] ∧
  decode [0x34, 0x00, 0x00, 0x00, 0x00, 0x00, 0x00, 0x00] = .command .fsGetber [] ∧
  decode [0x31, 0x00, 0x00, 0x01, 0x00, 0x00, 0x00, 0x00] = .rejected .illegal [] ∧
  (⟨.ok, [syncByte false (some 3)]⟩ : Response).bytes = [0x00, 0x03] ∧
  (⟨.none, [syncByte true none]⟩ : Response).bytes = [0x01, 0x80] ∧
  (⟨.ok, rotBuf 5 [0xC8, 0x32]⟩ : Response).bytes = [0x00, 0x32, 0xC8] ∧
  (⟨.ok, be32 0xFFFFFFFF⟩ : Response).bytes = [0x00, 0xFF, 0xFF, 0xFF, 0xFF] ∧
  (⟨.error .illegal, []⟩ : Response).bytes = [0x80]

/-- 30_encoding.md R96, last sentences: the decoder accepts a command of a row exactly when its header matches the row of
spec/opcode_table.json and, for `DS.CFG`, `ARG` is not 0. For `CR.ADDW` and `DS.APPLY` step 4 of R96 also needs `LEN = W` and
`LEN = 188 * DS.GROUP`: the decoder does not check these, their meanings do (`Obligations.CrAddwResult`,
`Obligations.DsApplyResult`). -/
def Obligations.MaskAndMatchSelectTheRow : Prop :=
  ∀ (o : Opcode) (h : Header) (payload rest : List Byte), payload.length = h.len.toNat →
    ((∃ i, decode (commandBytes h payload ++ rest) = .command i rest ∧ i.opcode = o) ↔
      (headerWord h &&& (tableRow o).2 = (tableRow o).1 ∧ (o = .dsCfg → h.arg ≠ 0)))

/-- 30_encoding.md R97. -/
def Obligations.IllegalCommandsAreConsumedAndAnswered : Prop :=
  ∀ (s : State) (h : Header) (payload rest : List Byte), OnPort s h payload rest →
    (illegalOp h.op.toNat = true ∨ h.rsv ≠ 0 ∨ reservedArg h.op.toNat h.arg.toNat = true) →
      step s = .next (answered { s with cmdIn := rest } (.error .illegal) [])

/-- 60_exceptions.md R300, R301, R304 (with 30_encoding.md R96): a command with an error is consumed whole and answered with the code
of its first error, and no element changes; a command without one is not answered with an error. The second half holds in states
that meet the invariant (`Obligations.StepKeepsInvariant`). -/
def Obligations.ErrorsAreTheFirstOfTheTable : Prop :=
  ∀ (s : State) (h : Header) (payload rest : List Byte), OnPort s h payload rest →
    (∀ e, firstError s h = some e → step s = .next (answered { s with cmdIn := rest } (.error e) [])) ∧
    (firstError s h = none → Inv s →
      ∃ t r, step s = .next t ∧ t.cmdIn = rest ∧ t.rspOut = s.rspOut ++ [r] ∧ ∀ e, r.status ≠ .error e)

/-- 30_encoding.md R90: each command gets exactly one response, after the earlier ones, and its payload has the length that opcode and
status fix. -/
def Obligations.EveryCommandIsAnsweredOnce : Prop :=
  ∀ (s : State) (h : Header) (payload rest : List Byte), OnPort s h payload rest → Inv s →
    ∃ t r, step s = .next t ∧ t.cmdIn = rest ∧ t.rspOut = s.rspOut ++ [r] ∧
      (∀ e, r.status = .error e → r.payload = []) ∧
      ∀ i, decode s.cmdIn = .command i rest → r.payload.length = responseLength s.par i r.status

/-- 30_encoding.md R93: the codes; bit 7 marks errors; after an error no payload follows and no state has changed. -/
def Obligations.StatusCodes : Prop :=
  (Status.ok.code = 0x00 ∧ Status.none.code = 0x01 ∧ (Status.error .illegal).code = 0x80 ∧ (Status.error .emptyRef).code = 0x81 ∧
    (Status.error .shortBuf).code = 0x82 ∧ (Status.error .len).code = 0x83 ∧ (Status.error .full).code = 0x84) ∧
  (∀ x : Status, x.code.getLsbD 7 = true ↔ ∃ e, x = .error e) ∧
  (∀ x y : Status, x.code = y.code → x = y) ∧
  (∀ r : Response, r.bytes = r.status.code :: r.payload) ∧
  (∀ (s t : State) (e : ErrorCode) (payload : List Byte), step s = .next t →
    t.rspOut = s.rspOut ++ [⟨.error e, payload⟩] →
      payload = [] ∧ t.par = s.par ∧ t.fs = s.fs ∧ t.di = s.di ∧ t.ds = s.ds ∧ t.cr = s.cr)

/-! ### The step -/

/-- A step runs the command at the front of the port, on the state with the command consumed (30_encoding.md R90, R96; 20_memory.md
R70). -/
def Obligations.StepRunsTheDecodedCommand : Prop :=
  ∀ (s : State) (i : Instr) (rest : List Byte), s.rstPin = false → decode s.cmdIn = .command i rest →
    step s = exec i { s with cmdIn := rest }

/-- 30_encoding.md R92, R99: nothing runs before the whole payload has arrived, and the end of a command is known from `LEN` alone.
That the block stands still meanwhile, as a step that changes nothing, is the model's choice (log 4). -/
def Obligations.IncompleteCommandWaits : Prop :=
  (∀ s : State, s.rstPin = false → s.cmdIn.length < 8 → step s = .next s) ∧
  (∀ (s : State) (h : Header) (part : List Byte), s.rstPin = false → s.cmdIn = commandBytes h part →
    part.length < h.len.toNat → step s = .next s) ∧
  (∀ (s : State) (h : Header) (payload rest : List Byte), OnPort s h payload rest → Inv s →
    ∃ t, step s = .next t ∧ t.cmdIn = rest ∧ t.cmdIn.length + (8 + h.len.toNat) = s.cmdIn.length)

/-- 70_reset_and_hazards.md R341: the effect of `RESET 0x0F` on the state, no response. That every byte on the command port is
abandoned, that responses already given stay, and that one step uses the assertion up is the model's choice (log 5). -/
def Obligations.ResetPinRestartsTheBlock : Prop :=
  ∀ s : State, s.rstPin = true →
    ∃ t, step s = .next t ∧ CrAtReset s.par t.cr ∧ FsAtReset t.fs ∧ DiAtReset s.par t.di ∧ DsAtReset s.par t.ds ∧
      t.par = s.par ∧ t.rspOut = s.rspOut ∧ t.cmdIn = [] ∧ t.rstPin = false

/-- 10_state.md R56: every element after reset, for every instance; after the pin and after `RESET` for the units its mask names. -/
def Obligations.ResetValues : Prop :=
  (∀ p : Params, CrAtReset p (State.resetOf p).cr ∧ FsAtReset (State.resetOf p).fs ∧ DiAtReset p (State.resetOf p).di ∧
    DsAtReset p (State.resetOf p).ds) ∧
  (∃ p : Params, State.reset = State.resetOf p) ∧
  (∀ s t : State, s.rstPin = true → step s = .next t →
    CrAtReset s.par t.cr ∧ FsAtReset t.fs ∧ DiAtReset s.par t.di ∧ DsAtReset s.par t.ds) ∧
  (∀ (m : BitVec 4) (s t : State), exec (.reset m) s = .next t →
    (m.getLsbD 0 = true → CrAtReset s.par t.cr) ∧ (m.getLsbD 1 = true → FsAtReset t.fs) ∧
    (m.getLsbD 2 = true → DiAtReset s.par t.di) ∧ (m.getLsbD 3 = true → DsAtReset s.par t.ds))

/-- The invariant of Safety.lean holds after reset (10_state.md R29 and R40, "after reset"). -/
def Obligations.ResetMeetsInvariant : Prop :=
  Inv State.reset ∧ ∀ p : Params, Inv (State.resetOf p)

/-- Every step keeps the invariant of Safety.lean (10_state.md R29 and R40, "after every command"; R22, R35 to R39, R45, R46, R50 to
R52). -/
def Obligations.StepKeepsInvariant : Prop :=
  ∀ s t : State, Inv s → step s = .next t → Inv t

/-- 20_memory.md R71, 70_reset_and_hazards.md R342: in every state that meets the invariant every command runs to completion, so no
absent element is read. -/
def Obligations.EveryCommandAnswers : Prop :=
  ∀ (i : Instr) (s : State), Inv s → ∃ t, exec i s = .next t ∧ Inv t

/-- A run of any length, with any traffic on the ports, never stops (20_memory.md R71; 30_encoding.md R97: no encoding is left
undefined). -/
def Obligations.RunsNeverStop : Prop :=
  ∀ (n : Nat) (s : State), Inv s → SafeFor n s

/-- Every memory keeps its canonical form, in every state, reachable or not (the model's convention, log 3). -/
def Obligations.MemoryStaysCanonical : Prop :=
  (∀ p : Params, Canonical (State.resetOf p)) ∧ ∀ s t : State, Canonical s → step s = .next t → Canonical t

/-- 00_scope.md R8: a parameter is not state; no command and no reset changes it (70_reset_and_hazards.md R340). -/
def Obligations.ParametersNeverChange : Prop :=
  ∀ s t : State, step s = .next t → t.par = s.par

/-- 20_memory.md R60, 30_encoding.md R94: a command changes only the unit that `OP[7:4]` selects, and takes no byte from the port. -/
def Obligations.UnitIsolation : Prop :=
  ∀ (i : Instr) (s t : State), exec i s = .next t →
    (unitNumber i ≠ 0 → (unitNumber i ≠ 2 → t.cr = s.cr) ∧ (unitNumber i ≠ 3 → t.fs = s.fs) ∧ (unitNumber i ≠ 4 → t.di = s.di) ∧
      (unitNumber i ≠ 5 → t.ds = s.ds)) ∧
    t.par = s.par ∧ t.cmdIn = s.cmdIn ∧ t.rstPin = s.rstPin ∧ ∃ r, t.rspOut = s.rspOut ++ [r]

/-- 10_state.md R26, R27, R28, R37, R52, R57: which commands can change each flag, and that only a reset clears `DI.SYNCED`. -/
def Obligations.FlagsAreWrittenOnlyByTheirCommands : Prop :=
  ∀ (i : Instr) (s t : State), exec i s = .next t →
    (t.fs.locked ≠ s.fs.locked → i = .fsFindsync ∨ ∃ m, i = .reset m ∧ m.getLsbD 1 = true) ∧
    (t.fs.active ≠ s.fs.active → i = .fsFindsync ∨ ∃ m, i = .reset m ∧ m.getLsbD 1 = true) ∧
    (t.fs.ready ≠ s.fs.ready → i = .fsFindsync ∨ i = .fsGetframe ∨ ∃ m, i = .reset m ∧ m.getLsbD 1 = true) ∧
    (t.fs.ready = true → s.fs.ready = false → i = .fsFindsync) ∧
    (t.di.synced ≠ s.di.synced → (∃ x, i = .diPush x) ∨ ∃ m, i = .reset m ∧ m.getLsbD 2 = true) ∧
    (s.di.synced = true → t.di.synced = false → ∃ m, i = .reset m ∧ m.getLsbD 2 = true) ∧
    (t.cr.valid ≠ s.cr.valid →
      i = .crClr ∨ (∃ x, i = .crAddw x) ∨ (∃ x, i = .crRun x) ∨ ∃ m, i = .reset m ∧ m.getLsbD 0 = true) ∧
    (t.cr.valid = true → s.cr.valid = false → ∃ x, i = .crRun x)

/-- 70_reset_and_hazards.md R373: what a command does and answers depends on the state of 10_state.md and the command alone, not on
the responses given before. -/
def Obligations.PastResponsesAreNotRead : Prop :=
  ∀ (s t : State) (other : List Response), step s = .next t →
    ∃ new, t.rspOut = s.rspOut ++ new ∧ step { s with rspOut := other } = .next { t with rspOut := other ++ new }

/-- 20_memory.md R67: `FS.GETBER`, `FS.STATUS`, `CR.GET`, `ROT`, `DS.APPLY` change no state and answer the same when repeated. -/
def Obligations.ReadsChangeNothing : Prop :=
  ∀ (i : Instr) (s t : State),
    (i = .fsGetber ∨ i = .fsStatus ∨ (∃ r, i = .crGet r) ∨ (∃ h x, i = .rot h x) ∨ (∃ x, i = .dsApply x)) →
    exec i s = .next t →
      ∃ r, t = { s with rspOut := s.rspOut ++ [r] } ∧ exec i t = .next { s with rspOut := s.rspOut ++ [r] ++ [r] }

/-- 30_encoding.md R98: the legal commands with no effect. `FS.PUT` with `LEN = 0` only tops up, so it has none where nothing is
pending or the buffer is full. -/
def Obligations.EmptyCommandsChangeNothing : Prop :=
  ∀ s : State,
    exec (.reset 0) s = .next (answered s .ok []) ∧
    (FsCore s.par s.fs → (s.fs.pend = [] ∨ s.fs.pos = s.par.C) → exec (.fsPut []) s = .next (answered s .ok [])) ∧
    exec (.diPush []) s = .next (answered s .ok []) ∧
    ∀ h : Hyp, exec (.rot h []) s = .next (answered s .ok [])

/-- 70_reset_and_hazards.md R344: every command is defined on the reset state. -/
def Obligations.EveryCommandIsDefinedOnReset : Prop :=
  ∀ p : Params,
    let s := State.resetOf p
    (∀ i : Instr, ∃ t, exec i s = .next t) ∧
    exec .fsGetframe s = .next (answered s .none []) ∧
    exec .diPop s = .next (answered s .none []) ∧
    (∀ r : Byte, exec (.crGet r) s = .next (answered s .none [])) ∧
    exec .fsGetber s = .next (answered s .ok (u32 p.berSentinel.toNat)) ∧
    (∀ x : List Byte, exec (.crRun x) s = .next (answered s (.error .emptyRef) [])) ∧
    (∀ x : List Byte, x.length = 188 * 8 → ∃ out, exec (.dsApply x) s = .next (answered s .ok out))

/-- 70_reset_and_hazards.md R340, 30_encoding.md R104: the units of the mask go to their reset values, the others keep theirs. -/
def Obligations.ResetCommandResult : Prop :=
  ∀ (m : BitVec 4) (s : State),
    ∃ t, exec (.reset m) s = .next t ∧
      t = { answered s .ok [] with cr := t.cr, fs := t.fs, di := t.di, ds := t.ds } ∧
      (m.getLsbD 0 = true → CrAtReset s.par t.cr) ∧ (m.getLsbD 0 = false → t.cr = s.cr) ∧
      (m.getLsbD 1 = true → FsAtReset t.fs) ∧ (m.getLsbD 1 = false → t.fs = s.fs) ∧
      (m.getLsbD 2 = true → DiAtReset s.par t.di) ∧ (m.getLsbD 2 = false → t.di = s.di) ∧
      (m.getLsbD 3 = true → DsAtReset s.par t.ds) ∧ (m.getLsbD 3 = false → t.ds = s.ds)

/-! ### Rotator -/

/-- 40_rotator.md R130, with its consequences. -/
def Obligations.NegFormula : Prop :=
  (∀ b : Byte, b.toNat ≤ 254 → (negSoft b).toNat = 254 - b.toNat) ∧ negSoft 255 = 0 ∧
  negSoft 127 = 127 ∧ negSoft 0 = 254 ∧ negSoft 254 = 0 ∧
  (∀ b : Byte, b.toNat ≤ 254 → negSoft (negSoft b) = b ∧ softValue (negSoft b) = -softValue b) ∧ negSoft (negSoft 255) = 254

/-- 40_rotator.md R131: the table, and what it means on soft values: `r` quarter turns after conjugating `c` times. -/
def Obligations.RotationTable : Prop :=
  (∀ (h : Hyp) (i q : Byte), rotSymbol h i q = rot h i q) ∧
  (∀ (h : Hyp) (i q : Byte), i ≠ 255 → q ≠ 255 →
    (softValue (rotSymbol h i q).1, softValue (rotSymbol h i q).2) =
      turns (h.val % 4) (softValue i, if h.val / 4 = 1 then -softValue q else softValue q))

/-- 40_rotator.md R132: the composition table, the inverses, and that every hypothesis is undone by exactly one; a zero-confidence
symbol stays so. -/
def Obligations.RotationsFormTheSquareGroup : Prop :=
  (∀ (a b : Hyp) (i q : Byte), i ≠ 255 → q ≠ 255 →
    rotSymbol b (rotSymbol a i q).1 (rotSymbol a i q).2 = rotSymbol (Fin.ofNat 8 (composed a b)) i q) ∧
  (∀ a : Hyp, ∃ b : Hyp, ((a ≠ 1 ∧ a ≠ 3 → b = a) ∧ (a = 1 → b = 3) ∧ (a = 3 → b = 1)) ∧
    ∀ x : Hyp, (∀ i q : Byte, i ≠ 255 → q ≠ 255 → rotSymbol x (rotSymbol a i q).1 (rotSymbol a i q).2 = (i, q)) ↔ x = b) ∧
  (∀ h : Hyp, rotSymbol h 127 127 = (127, 127))

/-- 40_rotator.md R133, R134, 30_encoding.md R105: an odd payload is an error; an even one is answered symbol by symbol, in order. -/
def Obligations.RotResult : Prop :=
  ∀ (h : Hyp) (payload : List Byte) (s : State),
    (payload.length % 2 = 1 → exec (.rot h payload) s = .next (answered s (.error .len) [])) ∧
    (payload.length % 2 = 0 →
      ∃ out, exec (.rot h payload) s = .next (answered s .ok out) ∧ out.length = payload.length ∧
        ∀ k, 2 * k + 1 < payload.length →
          (out.getD (2 * k) 0, out.getD (2 * k + 1) 0) = rot h (payload.getD (2 * k) 0) (payload.getD (2 * k + 1) 0))

/-! ### Correlator -/

/-- 41_correlator.md R140, R143: the score is the number of matching positions, at every candidate offset. -/
def Obligations.ScoreCountsMatches : Prop :=
  (∀ (p : Params) (x e : Byte), (matchElem p x e = true ↔
    (p.corrT.toNat ≤ x.toNat ∧ e = 0) ∨ (x.toNat < p.corrT.toNat ∧ e = 255)) ∧ (e ≠ 0 → e ≠ 255 → matchElem p x e = false)) ∧
  (∀ (p : Params) (ref buf : List Byte) (o : Nat), ref.length = p.W → o + p.W ≤ buf.length →
    score p ref buf o = scoreAt p ref buf o ∧ score p ref buf o ≤ p.W)

/-- 41_correlator.md R147 (c): the complemented word scores `W - Score`. -/
def Obligations.ComplementedWordScores : Prop :=
  ∀ (p : Params) (ref buf : List Byte) (o : Nat), ref.length = p.W → o + p.W ≤ buf.length → (∀ e ∈ ref, e = 0 ∨ e = 255) →
    score p (ref.map (fun e => 255 - e)) buf o = p.W - score p ref buf o

/-- 41_correlator.md R141, 30_encoding.md R106. -/
def Obligations.CrClrResult : Prop :=
  ∀ s : State, exec .crClr s = .next { answered s .ok [] with cr := { s.cr with nw := 0, valid := false } }

/-- 41_correlator.md R142, 30_encoding.md R107: the errors in their order; else the word is stored at `CR.NW`, and every byte of every
other word reads as before. The index byte is stated below 256 only: above it is a free value (log 8). -/
def Obligations.CrAddwResult : Prop :=
  ∀ (payload : List Byte) (s : State), CrInv s.par s.cr →
    (payload.length ≠ s.par.W → exec (.crAddw payload) s = .next (answered s (.error .len) [])) ∧
    (payload.length = s.par.W → s.cr.nw = s.par.rMax → exec (.crAddw payload) s = .next (answered s (.error .full) [])) ∧
    (payload.length = s.par.W → s.cr.nw < s.par.rMax →
      ∃ t b, exec (.crAddw payload) s = .next t ∧
        t = { answered s .ok [b] with cr := { s.cr with word := t.cr.word, nw := s.cr.nw + 1, valid := false } } ∧
        (s.cr.nw < 256 → b.toNat = s.cr.nw) ∧
        t.cr.word.length = s.cr.word.length ∧
        (∀ j, j < s.par.W → memByte (t.cr.word.getD s.cr.nw []) j = payload[j]?) ∧
        (∀ j, s.par.W ≤ j → memByte (t.cr.word.getD s.cr.nw []) j = memByte (s.cr.word.getD s.cr.nw []) j) ∧
        (∀ r, r ≠ s.cr.nw → t.cr.word.getD r [] = s.cr.word.getD r []))

/-- 41_correlator.md R144, R145, R146, 30_encoding.md R108: the errors in their order; else, for each loaded word, the first offset at
which its score is largest and that score, then the first word whose best score is largest. `LEN` has 32 bits, so does the
payload's length. The index byte is stated below 256 only (log 8). -/
def Obligations.CrRunFindsTheBest : Prop :=
  ∀ (payload : List Byte) (s : State), CrInv s.par s.cr → payload.length < 2 ^ 32 →
    (s.cr.nw = 0 → exec (.crRun payload) s = .next (answered s (.error .emptyRef) [])) ∧
    (s.cr.nw ≠ 0 → payload.length < s.par.W → exec (.crRun payload) s = .next (answered s (.error .shortBuf) [])) ∧
    (s.cr.nw ≠ 0 → s.par.W ≤ payload.length →
      ∃ (t : State) (b : Byte) (off best : Nat → Nat), exec (.crRun payload) s = .next t ∧
        t = { answered s .ok (b :: (u32 (off t.cr.bestWord) ++ u32 (best t.cr.bestWord))) with
              cr := { s.cr with bestOff := t.cr.bestOff, bestScore := t.cr.bestScore, bestWord := t.cr.bestWord, valid := true } } ∧
        (t.cr.bestWord < 256 → b.toNat = t.cr.bestWord) ∧
        (∀ r, r < s.cr.nw →
          (t.cr.bestOff.map BitVec.toNat)[r]? = some (off r) ∧ (t.cr.bestScore.map BitVec.toNat)[r]? = some (best r) ∧
          off r + s.par.W ≤ payload.length ∧ best r = scoreAt s.par (wordOf s.cr r) payload (off r) ∧
          (∀ o, o + s.par.W ≤ payload.length → scoreAt s.par (wordOf s.cr r) payload o ≤ best r) ∧
          (∀ o, o < off r → scoreAt s.par (wordOf s.cr r) payload o < best r)) ∧
        (∀ r, s.cr.nw ≤ r → t.cr.bestOff[r]? = s.cr.bestOff[r]? ∧ t.cr.bestScore[r]? = s.cr.bestScore[r]?) ∧
        t.cr.bestWord < s.cr.nw ∧ (∀ r, r < s.cr.nw → best r ≤ best t.cr.bestWord) ∧
        (∀ r, r < t.cr.bestWord → best r < best t.cr.bestWord))

/-- 41_correlator.md R148, 30_encoding.md R109. -/
def Obligations.CrGetResult : Prop :=
  ∀ (r : Byte) (s : State), CrInv s.par s.cr →
    (s.cr.valid = true → r.toNat < s.cr.nw →
      ∃ off best, s.cr.bestOff[r.toNat]? = some off ∧ s.cr.bestScore[r.toNat]? = some best ∧
        exec (.crGet r) s = .next (answered s .ok (u32 off.toNat ++ u32 best.toNat))) ∧
    (s.cr.valid = false ∨ s.cr.nw ≤ r.toNat → exec (.crGet r) s = .next (answered s .none []))

/-! ### Frame synchronizer -/

/-- 42_framesync.md R162, R163, 30_encoding.md R110: the payload joins the queue, as many bytes as fit move to the end of the buffer,
in order; every other byte of the buffer reads as before, and no other element changes. -/
def Obligations.FsPutResult : Prop :=
  ∀ (payload : List Byte) (s : State),
    let queue := s.fs.pend ++ payload
    let n := min queue.length (s.par.C - s.fs.pos)
    ∃ t, exec (.fsPut payload) s = .next t ∧
      t = { answered s .ok [] with fs := { s.fs with buf := t.fs.buf, pend := queue.drop n, pos := s.fs.pos + n } } ∧
      (∀ k, k < n → memByte t.fs.buf (s.fs.pos + k) = queue[k]?) ∧
      (∀ a, a < s.fs.pos ∨ s.fs.pos + n ≤ a → memByte t.fs.buf a = memByte s.fs.buf a) ∧
      (memWf s.fs.buf → n = 0 → t.fs.buf = s.fs.buf) ∧
      (s.fs.pos ≤ s.par.C → t.fs.pend = [] ∨ t.fs.pos = s.par.C)

/-- 42_framesync.md R164: two payloads in a row leave the state that their concatenation leaves. -/
def Obligations.FsPutSplits : Prop :=
  ∀ (a b : List Byte) (s : State), FsCore s.par s.fs →
    ∃ t u v, exec (.fsPut a) s = .next t ∧ exec (.fsPut b) t = .next u ∧ exec (.fsPut (a ++ b)) s = .next v ∧
      u = { v with rspOut := v.rspOut ++ [⟨.ok, []⟩] }

/-- 42_framesync.md R165, R170 to R173, 30_encoding.md R111: without a full buffer, `NONE` and the top-up; with one, a decode cycle of
the decoded set on it, every other hypothesis keeping its frame and count; no flag changes, and the buffer holds the soft bits as
received. -/
def Obligations.FsUpdateResult : Prop :=
  ∀ s : State, FsCore s.par s.fs →
    ((stream s.fs).length < s.par.C →
      ∃ t, exec .fsUpdate s = .next t ∧
        t = { answered s .none [] with fs := { s.fs with buf := t.fs.buf, pend := [], pos := (stream s.fs).length } } ∧
        holdsBytes t.fs.buf (stream s.fs)) ∧
    (s.par.C ≤ (stream s.fs).length →
      ∃ t, exec .fsUpdate s = .next t ∧
        t = { answered s .ok [] with
              fs := { s.fs with buf := t.fs.buf, pend := (stream s.fs).drop s.par.C, pos := s.par.C, dec := t.fs.dec, err := t.fs.err } } ∧
        holdsBytes t.fs.buf (window s.par (stream s.fs) 0) ∧
        decoded s.par (tested s.fs 0) (window s.par (stream s.fs) 0) s.fs t.fs)

/-- 42_framesync.md R174: the locked cycle gives the active hypothesis what the unlocked cycle would have given it. -/
def Obligations.LockedLaneEqualsUnlockedLane : Prop :=
  ∀ s : State, FsCore s.par s.fs → s.fs.locked = true → s.par.C ≤ (stream s.fs).length →
    ∃ t u, exec .fsUpdate s = .next t ∧ exec .fsUpdate { s with fs := { s.fs with locked := false } } = .next u ∧
      t.fs.dec[s.fs.active] = u.fs.dec[s.fs.active] ∧ t.fs.err[s.fs.active] = u.fs.err[s.fs.active]

/-- 42_framesync.md R175, R176: the sum of the wrong bits at the five offsets, at most 40, and the test that it is below 5. -/
def Obligations.SyncTestCountsWrongBits : Prop :=
  ∀ (m : Memory) (d : List Byte), holdsBytes m d → 817 ≤ d.length →
    syncErr m = some (syncErrOf d) ∧ syncErrOf d ≤ 40 ∧ (syncPresent m = true ↔ syncErrOf d < 5)

/-- 42_framesync.md R179, R182: without enough soft bits for one cycle, `NONE` at once and only the top-up, locked or not. -/
def Obligations.FindSyncWithoutData : Prop :=
  ∀ s : State, FsCore s.par s.fs → (stream s.fs).length < s.par.C →
    ∃ t, exec .fsFindsync s = .next t ∧
      t = { answered s .none [0x00] with fs := { s.fs with buf := t.fs.buf, pend := [], pos := (stream s.fs).length } } ∧
      holdsBytes t.fs.buf (stream s.fs)

/-- 42_framesync.md R170, R177 to R183, 30_encoding.md R112: the search locks on the first window of the stream on which a decoded
hypothesis passes, on the smallest hypothesis that passes there; the guard region starts the next buffer; the frame is ready; a
lock lost on the way is reported. -/
def Obligations.FindSyncLocksOnTheFirstPassingWindow : Prop :=
  ∀ (s : State) (k : Nat) (w : Hyp), FsCore s.par s.fs → k + s.par.C ≤ (stream s.fs).length →
    (∀ j, j < k → ∀ h, tested s.fs j h → ¬ passes s.par (window s.par (stream s.fs) j) h) →
    tested s.fs k w → passes s.par (window s.par (stream s.fs) k) w →
    (∀ h, h < w → tested s.fs k h → ¬ passes s.par (window s.par (stream s.fs) k) h) →
      ∃ t, exec .fsFindsync s = .next t ∧
        t = { answered s .ok [BitVec.ofNat 8 (w.val + if k ≠ 0 ∧ s.fs.locked = true then 128 else 0)] with
              fs := { s.fs with
                buf := t.fs.buf, pos := s.par.G, pend := (stream s.fs).drop (k + s.par.C), dec := t.fs.dec, err := t.fs.err,
                locked := true, active := w, ready := true } } ∧
        holdsBytes t.fs.buf ((window s.par (stream s.fs) k).drop (s.par.C - s.par.G)) ∧
        decoded s.par (tested s.fs k) (window s.par (stream s.fs) k) s.fs t.fs

/-- 42_framesync.md R177, R179, R180, R182, R183: when no window passes, the search ends with `NONE`, unlocked, nothing pending and
the last `C - 1` soft bits in the buffer; a lock lost on the way is reported and the ready frame withdrawn. -/
def Obligations.FindSyncFindsNothing : Prop :=
  ∀ s : State, FsCore s.par s.fs → s.par.C ≤ (stream s.fs).length →
    (∀ j, j + s.par.C ≤ (stream s.fs).length → ∀ h, tested s.fs j h → ¬ passes s.par (window s.par (stream s.fs) j) h) →
      ∃ t, exec .fsFindsync s = .next t ∧
        t = { answered s .none [if s.fs.locked = true then 0x80 else 0x00] with
              fs := { s.fs with
                buf := t.fs.buf, pos := s.par.C - 1, pend := [], dec := t.fs.dec, err := t.fs.err, locked := false, ready := false } } ∧
        holdsBytes t.fs.buf ((stream s.fs).drop ((stream s.fs).length - s.par.C + 1)) ∧
        decoded s.par (tested s.fs ((stream s.fs).length - s.par.C))
          (window s.par (stream s.fs) ((stream s.fs).length - s.par.C)) s.fs t.fs

/-- 42_framesync.md R184 (c): between a lock and the next loss the reported hypothesis is the active one. -/
def Obligations.HypothesisKeptBetweenLockAndLoss : Prop :=
  ∀ (s t : State) (b : Byte) (st : Status), FsCore s.par s.fs → s.fs.locked = true → exec .fsFindsync s = .next t →
    t.rspOut = s.rspOut ++ [⟨st, [b]⟩] → b.getLsbD 7 = false →
      t.fs.locked = true ∧ t.fs.active = s.fs.active ∧ (st = .ok → b.toNat = s.fs.active.val)

/-- 10_state.md R28, 42_framesync.md R190: after a found sync, `FS.GETFRAME` returns a frame of `F` bytes that passes the sync test. -/
def Obligations.FoundFrameIsReturned : Prop :=
  ∀ (s t : State) (b : Byte), FsCore s.par s.fs → exec .fsFindsync s = .next t → t.rspOut = s.rspOut ++ [⟨.ok, [b]⟩] →
    ∃ d, exec .fsGetframe t = .next { answered t .ok d with fs := { t.fs with ready := false } } ∧
      d.length = s.par.F ∧ syncErrOf d < 5 ∧ holdsBytes t.fs.dec[t.fs.active] d

/-- 42_framesync.md R190, 30_encoding.md R113: the whole frame of the active hypothesis, once. -/
def Obligations.GetFrameTakesTheFrameOnce : Prop :=
  (∀ s : State, FsCore s.par s.fs → s.fs.locked = true → s.fs.ready = true →
    ∃ t d, exec .fsGetframe s = .next t ∧ t = { answered s .ok d with fs := { s.fs with ready := false } } ∧
      holdsBytes s.fs.dec[s.fs.active] d ∧ d.length = s.par.F ∧ exec .fsGetframe t = .next (answered t .none [])) ∧
  (∀ s : State, (s.fs.locked = false ∨ s.fs.ready = false) → exec .fsGetframe s = .next (answered s .none []))

/-- 42_framesync.md R192, 30_encoding.md R114: the subtraction is on integers and floored at 0; unlocked, the sentinel. -/
def Obligations.GetBerResult : Prop :=
  ∀ s : State, exec .fsGetber s = .next (answered s .ok (u32 (
    if s.fs.locked = true then (max 0 ((s.fs.err[s.fs.active].toNat : Int) - s.par.guardCorr)).toNat else s.par.berSentinel.toNat)))

/-- 42_framesync.md R195, 30_encoding.md R115: the 37 bytes. The position is stated below 2^32 only: from there on its field is a free
value (log 9). -/
def Obligations.StatusResult : Prop :=
  ∀ s : State, ∃ flags position,
    exec .fsStatus s = .next (answered s .ok (flags :: (u32 position ++ (s.fs.err.toList.map (fun e => u32 e.toNat)).flatten))) ∧
      flags.getLsbD 0 = s.fs.locked ∧ flags.getLsbD 1 = s.fs.ready ∧ flags.toNat / 4 = s.fs.active.val ∧
      (s.fs.pos < 2 ^ 32 → position = s.fs.pos)

/-- 70_reset_and_hazards.md R362: `FS.UPDATE` replaces a ready frame by one that no sync test has seen, and the next `FS.FINDSYNC`
decodes the same buffer to the same frame. -/
def Obligations.UpdateReplacesReadyFrame : Prop :=
  ∀ s : State, FsCore s.par s.fs → s.fs.locked = true → s.fs.ready = true → s.par.C ≤ (stream s.fs).length →
    let new := frameOn s.par (window s.par (stream s.fs) 0) s.fs.active
    ∃ t, exec .fsUpdate s = .next t ∧ t.fs.ready = true ∧ t.fs.locked = true ∧
      exec .fsGetframe t = .next { answered t .ok new with fs := { t.fs with ready := false } } ∧
      ∀ u, exec .fsFindsync t = .next u → syncErrOf new < 5 → holdsBytes u.fs.dec[u.fs.active] new ∧ u.fs.active = s.fs.active

/-- 20_memory.md R68: a put adds its bytes to the stream, an update leaves it, a search drops a prefix and nothing else; only a reset
of the unit drops the rest. Queued frames leave only by `DI.POP`, oldest first, or a reset. -/
def Obligations.NothingIsDropped : Prop :=
  ∀ (i : Instr) (s t : State), FsCore s.par s.fs → exec i s = .next t →
    (∀ x, i = .fsPut x → stream t.fs = stream s.fs ++ x) ∧
    (i = .fsFindsync → ∃ k, stream t.fs = (stream s.fs).drop k) ∧
    ((∀ x, i ≠ .fsPut x) → i ≠ .fsFindsync → (∀ m, i = .reset m → m.getLsbD 1 = false) → stream t.fs = stream s.fs) ∧
    (i ≠ .diPop → (∀ m, i = .reset m → m.getLsbD 2 = false) → s.di.outq <+: t.di.outq) ∧
    (i = .diPop → t.di.outq = s.di.outq.drop 1)

/-! ### Deinterleaver -/

/-- 43_deinterleaver.md R221 to R224, 30_encoding.md R116: the emitted bytes, branch by branch; the frames cut from them, from the
first sync byte on; what stays in the branches, in the frame under assembly and in the commutator. -/
def Obligations.DiPushEmitsAndCuts : Prop :=
  ∀ (payload : List Byte) (s : State), DiInv s.par s.di →
    let es := emittedBytes s.par s.di payload
    let bs := framed s.di es
    ∃ t, exec (.diPush payload) s = .next t ∧
      t = { answered s .ok [] with
            di := { fifo := t.di.fifo, comm := (s.di.comm + payload.length) % s.par.I, synced := s.di.synced || es.any isSync,
                    frame := t.di.frame, fill := bs.length % 204, outq := s.di.outq ++ cuts bs } } ∧
      holdsBytes t.di.frame (bs.drop (204 * (bs.length / 204))) ∧
      t.di.fifo.length = s.par.I ∧
      ∀ b, b < s.par.I →
        t.di.fifo.getD b [] =
          (s.di.fifo.getD b [] ++ branchInput s.par s.di payload b).drop (branchInput s.par s.di payload b).length

/-- 43_deinterleaver.md R225 (b), (c), (d), from reset: each byte is emitted `I * M * (I - 1 - b)` positions after it is pushed; the
commutator counts modulo `I`; `floor((n - k0) / 204)` frames, cut from the first emitted sync byte on. -/
def Obligations.DiPushFromReset : Prop :=
  ∀ (payload : List Byte) (s : State), DiAtReset s.par s.di →
    ∃ t, exec (.diPush payload) s = .next t ∧ t.di.comm = payload.length % s.par.I ∧
      (∀ k0, k0 < payload.length → isSync (delayed s.par payload k0) = true →
        (∀ j, j < k0 → isSync (delayed s.par payload j) = false) →
          t.di.synced = true ∧ t.di.outq.length = (payload.length - k0) / 204 ∧
          ∀ m j, m < t.di.outq.length → j < 204 →
            (t.di.outq.getD m []).getD j 0 = delayed s.par payload (k0 + 204 * m + j)) ∧
      ((∀ j, j < payload.length → isSync (delayed s.par payload j) = false) → t.di.synced = false ∧ t.di.outq = [])

/-- 43_deinterleaver.md R225 (a): after a forward interleaver, the deinterleaver reproduces the source after `M * I * (I - 1)` bytes:
the queued frames are the 204-byte cuts of the source itself, from its first sync byte on. The bytes of the frame still under
assembly are stated by `Obligations.DiPushEmitsAndCuts`. -/
def Obligations.InterleaverRoundTrip : Prop :=
  ∀ (source : List Byte) (s : State), DiAtReset s.par s.di →
    ∃ t, exec (.diPush (interleaved s.par source)) s = .next t ∧
      t.di.outq =
        cuts ((source.take (source.length - s.par.M * s.par.I * (s.par.I - 1))).dropWhile (fun y => !isSync y))

/-- 43_deinterleaver.md R226, 30_encoding.md R117. -/
def Obligations.DiPopResult : Prop :=
  (∀ s : State, s.di.outq = [] → exec .diPop s = .next (answered s .none [])) ∧
  (∀ (s : State) (v : List Byte) (rest : List (List Byte)), s.di.outq = v :: rest →
    exec .diPop s = .next { answered s .ok v with di := { s.di with outq := rest } })

/-! ### Descrambler -/

/-- 44_descrambler.md R250: one step of the register. -/
def Obligations.LfsrStep : Prop :=
  ∀ s : BitVec 15,
    (lfsrStep s).1 = Bool.xor (s.getLsbD 14) (s.getLsbD 13) ∧ (lfsrStep s).2.getLsbD 0 = (lfsrStep s).1 ∧
      ∀ k, k < 14 → (lfsrStep s).2.getLsbD (k + 1) = s.getLsbD k

/-- 44_descrambler.md R252, R253: the table of every group size, entry by entry; the forced positions. -/
def Obligations.KeystreamTable : Prop :=
  ∀ (p : Params) (g : Nat),
    keystream p g = keyTable p g ∧
    (1 ≤ g → (keystream p g)[0]? = some p.ks0) ∧
    (∀ m, 1 ≤ m → m < g → (keystream p g)[188 * m]? = some 0x00)

/-- 44_descrambler.md R256, 30_encoding.md R118: group size 0 is an error, the current size changes nothing, another one gives its
table. -/
def Obligations.DsCfgResult : Prop :=
  ∀ (g : Byte) (s : State),
    (g = 0 → exec (.dsCfg g) s = .next (answered s (.error .illegal) [])) ∧
    (g ≠ 0 → g.toNat = s.ds.group → exec (.dsCfg g) s = .next (answered s .ok [])) ∧
    (g ≠ 0 → g.toNat ≠ s.ds.group →
      ∃ t, exec (.dsCfg g) s = .next t ∧ t = { answered s .ok [] with ds := { group := g.toNat, ks := t.ds.ks } } ∧
        holdsBytes t.ds.ks (keyTable s.par g.toNat))

/-- 44_descrambler.md R257, 30_encoding.md R119: a payload of the wrong length is an error; a group is exclusive-ored with the table
byte by byte. -/
def Obligations.DsApplyResult : Prop :=
  ∀ (payload : List Byte) (s : State), DsInv s.par s.ds →
    (payload.length ≠ 188 * s.ds.group → exec (.dsApply payload) s = .next (answered s (.error .len) [])) ∧
    (payload.length = 188 * s.ds.group →
      ∃ out, exec (.dsApply payload) s = .next (answered s .ok out) ∧ out.length = payload.length ∧
        ∀ k, k < payload.length → out.getD k 0 = payload.getD k 0 ^^^ keyByte s.par k)

/-- 44_descrambler.md R258 (a): applied twice, the group is back, whatever `KS0` is. -/
def Obligations.DsApplyTwice : Prop :=
  ∀ (payload : List Byte) (s : State), DsInv s.par s.ds → payload.length = 188 * s.ds.group →
    ∃ out, exec (.dsApply payload) s = .next (answered s .ok out) ∧
      exec (.dsApply out) (answered s .ok out) = .next (answered (answered s .ok out) .ok payload)

end
end

