-- ==== Sys2Proof/Laws/Memory.lean ====
section
/-! SUPPORT. What the memory primitives do: the canonical form is kept, a read after a write, and the spaces that hold exactly the
addresses below a bound. -/

namespace Sys2Proof.Machine

@[simp] theorem cellsAt_nil (a : Nat) : cellsAt a [] = [] := rfl

@[simp] theorem cellsAt_cons (a : Nat) (b : Byte) (bs : List Byte) :
    cellsAt a (b :: bs) = (a, b) :: cellsAt (a + 1) bs := rfl

@[simp] theorem length_cellsAt (a : Nat) (bs : List Byte) : (cellsAt a bs).length = bs.length := by
  induction bs generalizing a with
  | nil => rfl
  | cons b bs ih => simp [ih]

@[simp] theorem bytesOf_cellsAt (a : Nat) (bs : List Byte) : (cellsAt a bs).map (fun c => c.2) = bs := by
  induction bs generalizing a with
  | nil => rfl
  | cons b bs ih => simp [ih]

theorem addrs_cellsAt (a : Nat) (bs : List Byte) :
    (cellsAt a bs).map (fun c => c.1) = List.range' a bs.length := by
  induction bs generalizing a with
  | nil => rfl
  | cons b bs ih => simp [ih, List.range'_succ]

theorem cellsAt_append (a : Nat) (xs ys : List Byte) :
    cellsAt a (xs ++ ys) = cellsAt a xs ++ cellsAt (a + xs.length) ys := by
  induction xs generalizing a with
  | nil => simp
  | cons x xs ih => simp [ih, Nat.add_assoc, Nat.add_comm 1]

theorem mem_cellsAt {c : Host.Cell} {a : Nat} {bs : List Byte} (h : c ∈ cellsAt a bs) :
    a ≤ c.1 ∧ c.1 < a + bs.length := by
  have : c.1 ∈ (cellsAt a bs).map (fun c => c.1) := List.mem_map_of_mem h
  rw [addrs_cellsAt, List.mem_range'] at this
  obtain ⟨i, hi, e⟩ := this
  omega

/-- The cells of `bs` that pass an address test which no address of `bs` passes. -/
theorem filter_cellsAt_none {f : Nat → Bool} {a : Nat} {bs : List Byte}
    (h : ∀ i, a ≤ i → i < a + bs.length → f i = false) :
    (cellsAt a bs).filter (fun c => f c.1) = [] := by
  rw [List.filter_eq_nil_iff]
  intro c hc
  have := mem_cellsAt hc
  simp [h c.1 this.1 this.2]

/-- The cells of `bs` that pass an address test which every address of `bs` passes. -/
theorem filter_cellsAt_all {f : Nat → Bool} {a : Nat} {bs : List Byte}
    (h : ∀ i, a ≤ i → i < a + bs.length → f i = true) :
    (cellsAt a bs).filter (fun c => f c.1) = cellsAt a bs := by
  rw [List.filter_eq_self]
  intro c hc
  have := mem_cellsAt hc
  exact h c.1 this.1 this.2

/-- A space that holds exactly the addresses below `n` is the cells of its bytes. -/
theorem eq_cellsAt_of_addrs {m : Memory} {a n : Nat} (h : m.map (fun c => c.1) = List.range' a n) :
    m = cellsAt a (bytesOf m) := by
  induction m generalizing a n with
  | nil => rfl
  | cons c m ih =>
    cases n with
    | zero => simp at h
    | succ n =>
      rw [List.map_cons, List.range'_succ, List.cons.injEq] at h
      obtain ⟨h1, h2⟩ := h
      have := ih h2
      rw [bytesOf, List.map_cons, cellsAt_cons, ← h1, ← bytesOf]
      exact congrArg (c :: ·) (by rw [h1]; exact this)

theorem holdsBelow_iff {m : Memory} {n : Nat} :
    holdsBelow m n ↔ m = cellsAt 0 (bytesOf m) ∧ (bytesOf m).length = n := by
  constructor
  · intro h
    have h' : m.map (fun c => c.1) = List.range' 0 n := by rw [← List.range_eq_range']; exact h
    refine ⟨eq_cellsAt_of_addrs h', ?_⟩
    have := congrArg List.length h
    simpa [bytesOf] using this
  · rintro ⟨h1, h2⟩
    show m.map (fun c => c.1) = _
    rw [h1, addrs_cellsAt, h2, List.range_eq_range']

theorem holdsBelow_cellsAt (bs : List Byte) : holdsBelow (cellsAt 0 bs) bs.length := by
  show (cellsAt 0 bs).map (fun c => c.1) = _
  rw [addrs_cellsAt, List.range_eq_range']

/-- The bytes a space holds below its bound. -/
theorem exists_of_holdsBelow {m : Memory} {n : Nat} (h : holdsBelow m n) :
    ∃ bs : List Byte, bs.length = n ∧ m = cellsAt 0 bs :=
  ⟨bytesOf m, (holdsBelow_iff.mp h).2, (holdsBelow_iff.mp h).1⟩

@[simp] theorem holdsBelow_nil : holdsBelow ([] : Memory) 0 := rfl

/-! ### The canonical form -/

theorem memWf_cellsAt (a : Nat) (bs : List Byte) : memWf (cellsAt a bs) := by
  have : ((cellsAt a bs).map (fun c => c.1)).Pairwise (· < ·) := by
    rw [addrs_cellsAt]; exact List.pairwise_lt_range'
  exact List.pairwise_map.mp this

theorem memWf_of_holdsBelow {m : Memory} {n : Nat} (h : holdsBelow m n) : memWf m := by
  obtain ⟨bs, -, rfl⟩ := exists_of_holdsBelow h
  exact memWf_cellsAt 0 bs

theorem memWrite_keeps_wf {m : Memory} (h : memWf m) (a : Nat) (v : List Byte) : memWf (memWrite m a v) := by
  unfold memWf memWrite
  rw [List.pairwise_append, List.pairwise_append]
  refine ⟨⟨List.Pairwise.filter _ h, memWf_cellsAt a v, ?_⟩, List.Pairwise.filter _ h, ?_⟩
  · intro x hx y hy
    have := mem_cellsAt hy
    have := (List.mem_filter.mp hx).2
    simp at this
    omega
  · intro x hx y hy
    have hy := (List.mem_filter.mp hy).2
    simp at hy
    rcases List.mem_append.mp hx with hx | hx
    · have := (List.mem_filter.mp hx).2
      simp at this
      omega
    · have := mem_cellsAt hx
      omega

theorem memTruncate_keeps_wf {m : Memory} (h : memWf m) (n : Nat) : memWf (memTruncate m n) :=
  List.Pairwise.filter _ h

/-! ### Reading one byte -/

theorem memByte_cellsAt (a : Nat) (bs : List Byte) (k : Nat) :
    memByte (cellsAt a bs) k = if a ≤ k then bs[k - a]? else none := by
  induction bs generalizing a with
  | nil => simp [memByte]
  | cons b bs ih =>
    unfold memByte at *
    simp only [cellsAt_cons, List.find?_cons]
    by_cases h : a = k
    · subst h; simp
    · have hb : (a == k) = false := by simpa using h
      simp only [hb]
      rw [ih (a + 1)]
      by_cases h2 : a ≤ k
      · have e : k - a = (k - (a + 1)) + 1 := by omega
        simp only [if_pos h2, if_pos (show a + 1 ≤ k by omega), e, List.getElem?_cons_succ]
      · simp only [if_neg h2, if_neg (show ¬ a + 1 ≤ k by omega)]

theorem memByte_append (m m' : Memory) (k : Nat) : memByte (m ++ m') k = (memByte m k).or (memByte m' k) := by
  unfold memByte
  rw [List.find?_append]
  cases m.find? (fun c => c.1 == k) <;> simp

theorem memByte_filter (m : Memory) (f : Nat → Bool) (k : Nat) :
    memByte (m.filter (fun c => f c.1)) k = if f k then memByte m k else none := by
  induction m with
  | nil => simp [memByte]
  | cons c m ih =>
    unfold memByte at *
    by_cases hk : c.1 = k
    · subst hk
      by_cases hf : f c.1
      · simp [hf]
      · simp [hf] at *
        assumption
    · have hb : (c.1 == k) = false := by simpa using hk
      by_cases hf : f c.1 <;> simp [hf, hb] at * <;> assumption

/-- A byte that a write stored. -/
theorem memByte_memWrite_inside {m : Memory} {a k : Nat} {v : List Byte} (h1 : a ≤ k) (h2 : k < a + v.length) :
    memByte (memWrite m a v) k = v[k - a]? := by
  unfold memWrite
  rw [memByte_append, memByte_append, memByte_filter m (fun i => decide (i < a)),
    memByte_filter m (fun i => decide (a + v.length ≤ i)), memByte_cellsAt]
  have : ∃ b, v[k - a]? = some b := ⟨v[k - a], List.getElem?_eq_getElem (by omega)⟩
  obtain ⟨b, hb⟩ := this
  simp [h1, hb, Nat.not_lt.mpr h1]

/-- A byte outside a write. -/
theorem memByte_memWrite_outside {m : Memory} {a k : Nat} {v : List Byte} (h : k < a ∨ a + v.length ≤ k) :
    memByte (memWrite m a v) k = memByte m k := by
  unfold memWrite
  rw [memByte_append, memByte_append, memByte_filter m (fun i => decide (i < a)),
    memByte_filter m (fun i => decide (a + v.length ≤ i)), memByte_cellsAt]
  rcases h with h | h
  · have : ¬ a ≤ k := by omega
    have h3 : ¬ a + v.length ≤ k := by omega
    simp [h, this, h3]
  · have h1 : ¬ k < a := by omega
    have h2 : v[k - a]? = none := List.getElem?_eq_none (by omega)
    simp [h, h1, h2]

theorem memByte_memTruncate (m : Memory) (n k : Nat) :
    memByte (memTruncate m n) k = if k < n then memByte m k else none := by
  unfold memTruncate
  rw [memByte_filter m (fun i => decide (i < n))]
  simp

/-! ### Reading and writing the spaces that hold exactly the addresses below a bound -/

/-- Any window of the bytes of a space. -/
theorem memRead_cellsAt {bs : List Byte} {a n : Nat} (h : a + n ≤ bs.length) :
    memRead (cellsAt 0 bs) a n = some ((bs.drop a).take n) := by
  have e : bs = bs.take a ++ ((bs.drop a).take n ++ (bs.drop a).drop n) := by simp
  have l1 : (bs.take a).length = a := by simp; omega
  have l2 : ((bs.drop a).take n).length = n := by simp; omega
  have key : (cellsAt 0 bs).filter (fun c => decide (a ≤ c.1) && decide (c.1 < a + n))
      = cellsAt a ((bs.drop a).take n) := by
    conv_lhs => rw [e]
    rw [cellsAt_append, cellsAt_append, List.filter_append, List.filter_append, l1, l2,
      filter_cellsAt_none (f := fun i => decide (a ≤ i) && decide (i < a + n)),
      filter_cellsAt_all (f := fun i => decide (a ≤ i) && decide (i < a + n)),
      filter_cellsAt_none (f := fun i => decide (a ≤ i) && decide (i < a + n))]
    · simp
    · intro i h1 h2; simp; omega
    · intro i h1 h2; simp; omega
    · intro i h1 h2; simp; omega
  unfold memRead
  simp only [key, length_cellsAt, bytesOf_cellsAt, l2, if_true]

/-- All of the bytes of a space. -/
theorem memRead_all (bs : List Byte) : memRead (cellsAt 0 bs) 0 bs.length = some bs := by
  rw [memRead_cellsAt (by omega)]; simp

/-- Writing where the bytes of a space end. -/
theorem memWrite_end (bs v : List Byte) : memWrite (cellsAt 0 bs) bs.length v = cellsAt 0 (bs ++ v) := by
  unfold memWrite
  rw [filter_cellsAt_all (f := fun i => decide (i < bs.length)),
    filter_cellsAt_none (f := fun i => decide (bs.length + v.length ≤ i)), cellsAt_append]
  · simp
  · intro i h1 h2; simp; omega
  · intro i h1 h2; simp; omega

/-- Writing the start of a space. -/
theorem memWrite_start (bs v : List Byte) : memWrite (cellsAt 0 bs) 0 v = cellsAt 0 (v ++ bs.drop v.length) := by
  have h0 : (cellsAt 0 bs).filter (fun c => decide (c.1 < 0)) = [] :=
    filter_cellsAt_none (f := fun i => decide (i < 0)) (by intros; simp)
  unfold memWrite
  rw [h0, cellsAt_append]
  congr 1
  by_cases h : v.length ≤ bs.length
  · have e : bs = bs.take v.length ++ bs.drop v.length := by simp
    have l1 : (bs.take v.length).length = v.length := by simp; omega
    conv_lhs => rw [e]
    rw [cellsAt_append, List.filter_append, l1,
      filter_cellsAt_none (f := fun i => decide (0 + v.length ≤ i)),
      filter_cellsAt_all (f := fun i => decide (0 + v.length ≤ i))]
    · simp
    · intro i h1 h2; simp; omega
    · intro i h1 h2; simp; omega
  · rw [List.drop_eq_nil_of_le (by omega),
      filter_cellsAt_none (f := fun i => decide (0 + v.length ≤ i))]
    · rfl
    · intro i h1 h2; simp; omega

theorem memTruncate_cellsAt (bs : List Byte) (n : Nat) : memTruncate (cellsAt 0 bs) n = cellsAt 0 (bs.take n) := by
  unfold memTruncate
  by_cases h : n ≤ bs.length
  · have e : bs = bs.take n ++ bs.drop n := by simp
    have l1 : (bs.take n).length = n := by simp; omega
    conv_lhs => rw [e]
    rw [cellsAt_append, List.filter_append, l1,
      filter_cellsAt_all (f := fun i => decide (i < n)), filter_cellsAt_none (f := fun i => decide (i < n))]
    · simp
    · intro i h1 h2; simp; omega
    · intro i h1 h2; simp; omega
  · rw [List.take_of_length_le (by omega), filter_cellsAt_all (f := fun i => decide (i < n))]
    intro i h1 h2; simp; omega

/-- Writing a whole array. -/
theorem memWrite_whole {m : Memory} {v : List Byte} (h : m = [] ∨ holdsBelow m v.length) :
    memWrite m 0 v = cellsAt 0 v := by
  rcases h with rfl | h
  · simp [memWrite]
  · obtain ⟨bs, hl, rfl⟩ := exists_of_holdsBelow h
    rw [memWrite_start, List.drop_eq_nil_of_le (by omega), List.append_nil]

/-- The read of a space that holds its window. -/
theorem readSpace_ok {place : Place} {m : Memory} {a n : Nat} {v : List Byte} (h : memRead m a n = some v) :
    readSpace place m a n = .ok v := by
  simp [readSpace, h]

/-- The read of a space: the bytes of its window or a fault with its name, nothing else. -/
theorem readSpace_cases (place : Place) (m : Memory) (a n : Nat) :
    (∃ v, memRead m a n = some v ∧ v.length = n ∧ readSpace place m a n = .ok v) ∨
    (memRead m a n = none ∧ readSpace place m a n = .error (.absent place)) := by
  unfold readSpace
  cases h : memRead m a n with
  | none => exact .inr ⟨rfl, rfl⟩
  | some v =>
    refine .inl ⟨v, rfl, ?_, rfl⟩
    simp only [memRead] at h
    split at h
    · rename_i hl; simp only [Option.some.injEq] at h; subst h; simpa using hl
    · cases h

end Sys2Proof.Machine
end

