-- ==== Sys2Proof/Laws/State.lean ====
section
/-! SUPPORT. One lemma per field per update of State, all true by rfl, and what the shared operations of Machine/Ops.lean can answer. -/

namespace Sys2Proof.Machine

/-! ### `State.setFs` -/

@[simp] theorem setFs_par (s : State) (f : Fs) : (s.setFs f).par = s.par := rfl
@[simp] theorem setFs_fs (s : State) (f : Fs) : (s.setFs f).fs = f := rfl
@[simp] theorem setFs_di (s : State) (f : Fs) : (s.setFs f).di = s.di := rfl
@[simp] theorem setFs_ds (s : State) (f : Fs) : (s.setFs f).ds = s.ds := rfl
@[simp] theorem setFs_cr (s : State) (f : Fs) : (s.setFs f).cr = s.cr := rfl
@[simp] theorem setFs_cmdIn (s : State) (f : Fs) : (s.setFs f).cmdIn = s.cmdIn := rfl
@[simp] theorem setFs_rspOut (s : State) (f : Fs) : (s.setFs f).rspOut = s.rspOut := rfl
@[simp] theorem setFs_rstPin (s : State) (f : Fs) : (s.setFs f).rstPin = s.rstPin := rfl

/-! ### `State.setDi` -/

@[simp] theorem setDi_par (s : State) (d : Di) : (s.setDi d).par = s.par := rfl
@[simp] theorem setDi_fs (s : State) (d : Di) : (s.setDi d).fs = s.fs := rfl
@[simp] theorem setDi_di (s : State) (d : Di) : (s.setDi d).di = d := rfl
@[simp] theorem setDi_ds (s : State) (d : Di) : (s.setDi d).ds = s.ds := rfl
@[simp] theorem setDi_cr (s : State) (d : Di) : (s.setDi d).cr = s.cr := rfl
@[simp] theorem setDi_cmdIn (s : State) (d : Di) : (s.setDi d).cmdIn = s.cmdIn := rfl
@[simp] theorem setDi_rspOut (s : State) (d : Di) : (s.setDi d).rspOut = s.rspOut := rfl
@[simp] theorem setDi_rstPin (s : State) (d : Di) : (s.setDi d).rstPin = s.rstPin := rfl

/-! ### `State.setDs` -/

@[simp] theorem setDs_par (s : State) (d : Ds) : (s.setDs d).par = s.par := rfl
@[simp] theorem setDs_fs (s : State) (d : Ds) : (s.setDs d).fs = s.fs := rfl
@[simp] theorem setDs_di (s : State) (d : Ds) : (s.setDs d).di = s.di := rfl
@[simp] theorem setDs_ds (s : State) (d : Ds) : (s.setDs d).ds = d := rfl
@[simp] theorem setDs_cr (s : State) (d : Ds) : (s.setDs d).cr = s.cr := rfl
@[simp] theorem setDs_cmdIn (s : State) (d : Ds) : (s.setDs d).cmdIn = s.cmdIn := rfl
@[simp] theorem setDs_rspOut (s : State) (d : Ds) : (s.setDs d).rspOut = s.rspOut := rfl
@[simp] theorem setDs_rstPin (s : State) (d : Ds) : (s.setDs d).rstPin = s.rstPin := rfl

/-! ### `State.setCr` -/

@[simp] theorem setCr_par (s : State) (c : Cr) : (s.setCr c).par = s.par := rfl
@[simp] theorem setCr_fs (s : State) (c : Cr) : (s.setCr c).fs = s.fs := rfl
@[simp] theorem setCr_di (s : State) (c : Cr) : (s.setCr c).di = s.di := rfl
@[simp] theorem setCr_ds (s : State) (c : Cr) : (s.setCr c).ds = s.ds := rfl
@[simp] theorem setCr_cr (s : State) (c : Cr) : (s.setCr c).cr = c := rfl
@[simp] theorem setCr_cmdIn (s : State) (c : Cr) : (s.setCr c).cmdIn = s.cmdIn := rfl
@[simp] theorem setCr_rspOut (s : State) (c : Cr) : (s.setCr c).rspOut = s.rspOut := rfl
@[simp] theorem setCr_rstPin (s : State) (c : Cr) : (s.setCr c).rstPin = s.rstPin := rfl

/-! ### `State.respond` -/

@[simp] theorem respond_par (s : State) (st : Status) (pl : List Byte) : (s.respond st pl).par = s.par := rfl
@[simp] theorem respond_fs (s : State) (st : Status) (pl : List Byte) : (s.respond st pl).fs = s.fs := rfl
@[simp] theorem respond_di (s : State) (st : Status) (pl : List Byte) : (s.respond st pl).di = s.di := rfl
@[simp] theorem respond_ds (s : State) (st : Status) (pl : List Byte) : (s.respond st pl).ds = s.ds := rfl
@[simp] theorem respond_cr (s : State) (st : Status) (pl : List Byte) : (s.respond st pl).cr = s.cr := rfl
@[simp] theorem respond_cmdIn (s : State) (st : Status) (pl : List Byte) : (s.respond st pl).cmdIn = s.cmdIn := rfl
@[simp] theorem respond_rspOut (s : State) (st : Status) (pl : List Byte) : (s.respond st pl).rspOut = s.rspOut ++ [{ status := st, payload := pl }] := rfl
@[simp] theorem respond_rstPin (s : State) (st : Status) (pl : List Byte) : (s.respond st pl).rstPin = s.rstPin := rfl

/-! ### `raiseError` -/

@[simp] theorem raiseError_par (e : ErrorCode) (s : State) : (raiseError e s).par = s.par := rfl
@[simp] theorem raiseError_fs (e : ErrorCode) (s : State) : (raiseError e s).fs = s.fs := rfl
@[simp] theorem raiseError_di (e : ErrorCode) (s : State) : (raiseError e s).di = s.di := rfl
@[simp] theorem raiseError_ds (e : ErrorCode) (s : State) : (raiseError e s).ds = s.ds := rfl
@[simp] theorem raiseError_cr (e : ErrorCode) (s : State) : (raiseError e s).cr = s.cr := rfl
@[simp] theorem raiseError_cmdIn (e : ErrorCode) (s : State) : (raiseError e s).cmdIn = s.cmdIn := rfl
@[simp] theorem raiseError_rspOut (e : ErrorCode) (s : State) : (raiseError e s).rspOut = s.rspOut ++ [{ status := .error e, payload := [] }] := rfl
@[simp] theorem raiseError_rstPin (e : ErrorCode) (s : State) : (raiseError e s).rstPin = s.rstPin := rfl

/-! ### `resetUnits` -/

@[simp] theorem resetUnits_par (m : BitVec 4) (s : State) : (resetUnits m s).par = s.par := rfl
@[simp] theorem resetUnits_fs (m : BitVec 4) (s : State) : (resetUnits m s).fs = (if m.getLsbD 1 then fsReset else s.fs) := rfl
@[simp] theorem resetUnits_di (m : BitVec 4) (s : State) : (resetUnits m s).di = (if m.getLsbD 2 then diReset s.par else s.di) := rfl
@[simp] theorem resetUnits_ds (m : BitVec 4) (s : State) : (resetUnits m s).ds = (if m.getLsbD 3 then dsReset s.par else s.ds) := rfl
@[simp] theorem resetUnits_cr (m : BitVec 4) (s : State) : (resetUnits m s).cr = (if m.getLsbD 0 then crReset s.par else s.cr) := rfl
@[simp] theorem resetUnits_cmdIn (m : BitVec 4) (s : State) : (resetUnits m s).cmdIn = s.cmdIn := rfl
@[simp] theorem resetUnits_rspOut (m : BitVec 4) (s : State) : (resetUnits m s).rspOut = s.rspOut := rfl
@[simp] theorem resetUnits_rstPin (m : BitVec 4) (s : State) : (resetUnits m s).rstPin = s.rstPin := rfl

/-! ### `resetByPin`, `placeCommand`, `State.resetOf` -/

@[simp] theorem resetByPin_par (s : State) : (resetByPin s).par = s.par := rfl
@[simp] theorem resetByPin_fs (s : State) : (resetByPin s).fs = fsReset := rfl
@[simp] theorem resetByPin_di (s : State) : (resetByPin s).di = diReset s.par := rfl
@[simp] theorem resetByPin_ds (s : State) : (resetByPin s).ds = dsReset s.par := rfl
@[simp] theorem resetByPin_cr (s : State) : (resetByPin s).cr = crReset s.par := rfl
@[simp] theorem resetByPin_cmdIn (s : State) : (resetByPin s).cmdIn = [] := rfl
@[simp] theorem resetByPin_rspOut (s : State) : (resetByPin s).rspOut = s.rspOut := rfl
@[simp] theorem resetByPin_rstPin (s : State) : (resetByPin s).rstPin = false := rfl
@[simp] theorem placeCommand_par (s : State) (n w : Nat) : (placeCommand s n w).par = s.par := rfl
@[simp] theorem placeCommand_fs (s : State) (n w : Nat) : (placeCommand s n w).fs = s.fs := rfl
@[simp] theorem placeCommand_di (s : State) (n w : Nat) : (placeCommand s n w).di = s.di := rfl
@[simp] theorem placeCommand_ds (s : State) (n w : Nat) : (placeCommand s n w).ds = s.ds := rfl
@[simp] theorem placeCommand_cr (s : State) (n w : Nat) : (placeCommand s n w).cr = s.cr := rfl
@[simp] theorem placeCommand_cmdIn (s : State) (n w : Nat) : (placeCommand s n w).cmdIn = tableWordBytes n w := rfl
@[simp] theorem placeCommand_rspOut (s : State) (n w : Nat) : (placeCommand s n w).rspOut = s.rspOut := rfl
@[simp] theorem placeCommand_rstPin (s : State) (n w : Nat) : (placeCommand s n w).rstPin = false := rfl
@[simp] theorem resetOf_par (p : Params) : (State.resetOf p).par = p := rfl
@[simp] theorem resetOf_fs (p : Params) : (State.resetOf p).fs = fsReset := rfl
@[simp] theorem resetOf_di (p : Params) : (State.resetOf p).di = diReset p := rfl
@[simp] theorem resetOf_ds (p : Params) : (State.resetOf p).ds = dsReset p := rfl
@[simp] theorem resetOf_cr (p : Params) : (State.resetOf p).cr = crReset p := rfl
@[simp] theorem resetOf_cmdIn (p : Params) : (State.resetOf p).cmdIn = [] := rfl
@[simp] theorem resetOf_rspOut (p : Params) : (State.resetOf p).rspOut = [] := rfl
@[simp] theorem resetOf_rstPin (p : Params) : (State.resetOf p).rstPin = false := rfl

/-! ### `finish` -/

@[simp] theorem finish_ok {α : Type} (a : α) (k : α → State) : finish (.ok a) k = .next (k a) := rfl

@[simp] theorem finish_error {α : Type} (e : Fault) (k : α → State) : finish (.error e) k = .fault e := rfl

/-- A computation that ends in a next state had a result. -/
theorem finish_eq_next {α : Type} {r : Except Fault α} {k : α → State} {t : State} (h : finish r k = .next t) :
    ∃ a, r = .ok a ∧ t = k a := by
  cases r with
  | error e => cases h
  | ok a => exact ⟨a, rfl, (Host.Outcome.next.inj h).symm⟩

/-- What a step does, once: the pin, nothing, an error answered, or a command run. -/
theorem step_cases {s t : State} (h : step s = .next t) :
    (s.rstPin = true ∧ t = resetByPin s) ∨
    (s.rstPin = false ∧ decode s.cmdIn = .incomplete ∧ t = s) ∨
    (s.rstPin = false ∧ ∃ e rest, decode s.cmdIn = .rejected e rest ∧ t = raiseError e { s with cmdIn := rest }) ∨
    (s.rstPin = false ∧ ∃ i rest, decode s.cmdIn = .command i rest ∧ exec i { s with cmdIn := rest } = .next t) := by
  unfold step nextWork at h
  by_cases hp : s.rstPin = true
  · simp only [hp, if_true] at h
    exact .inl ⟨hp, (Host.Outcome.next.inj h).symm⟩
  · have hp' : s.rstPin = false := by simpa using hp
    rw [if_neg hp] at h
    cases hd : decode s.cmdIn with
    | incomplete =>
      simp only [hd] at h
      exact .inr (.inl ⟨hp', rfl, (Host.Outcome.next.inj h).symm⟩)
    | rejected e rest =>
      simp only [hd] at h
      exact .inr (.inr (.inl ⟨hp', e, rest, rfl, (Host.Outcome.next.inj h).symm⟩))
    | command i rest =>
      simp only [hd] at h
      exact .inr (.inr (.inr ⟨hp', i, rest, rfl, h⟩))

end Sys2Proof.Machine
end

