-- ==== Sys2Proof/Laws/Correlator.lean ====
section
/-! SUPPORT. The search of the correlator (41_correlator.md): which offset and which word win, and that the commands keep the
invariant. -/

namespace Sys2Proof.Machine

/-- The winner of a scan that replaces only by a greater score (41_correlator.md R144, R145): it is the start or one of the
candidates, nothing seen beats it, and a candidate that wins beats everything before it. -/
theorem foldl_keepBetter (cands : List (Nat × Nat)) (start : Nat × Nat) :
    let w := cands.foldl keepBetter start
    start.2 ≤ w.2 ∧ (∀ c ∈ cands, c.2 ≤ w.2) ∧
      ((w = start) ∨ ∃ before after, cands = before ++ w :: after ∧ start.2 < w.2 ∧ ∀ c ∈ before, c.2 < w.2) := by
  induction cands generalizing start with
  | nil => exact ⟨Nat.le_refl _, by simp, .inl rfl⟩
  | cons c cs ih =>
    simp only [List.foldl_cons]
    obtain ⟨h1, h2, h3⟩ := ih (keepBetter start c)
    by_cases hc : start.2 < c.2
    · have e : keepBetter start c = c := by simp [keepBetter, hc]
      rw [e] at h1 h2 h3 ⊢
      refine ⟨by omega, ?_, ?_⟩
      · intro x hx
        rcases List.mem_cons.mp hx with rfl | hx
        · exact h1
        · exact h2 x hx
      · right
        rcases h3 with h3 | ⟨b, a, h3, h4, h5⟩
        · exact ⟨[], cs, by simp [h3], by rw [h3]; exact hc, by simp⟩
        · refine ⟨c :: b, a, congrArg (c :: ·) h3, by omega, ?_⟩
          intro x hx
          rcases List.mem_cons.mp hx with rfl | hx
          · exact h4
          · exact h5 x hx
    · have e : keepBetter start c = start := by simp [keepBetter, hc]
      rw [e] at h1 h2 h3 ⊢
      refine ⟨h1, ?_, ?_⟩
      · intro x hx
        rcases List.mem_cons.mp hx with rfl | hx
        · omega
        · exact h2 x hx
      · rcases h3 with h3 | ⟨b, a, h3, h4, h5⟩
        · exact .inl h3
        · refine .inr ⟨c :: b, a, congrArg (c :: ·) h3, h4, ?_⟩
          intro x hx
          rcases List.mem_cons.mp hx with rfl | hx
          · omega
          · exact h5 x hx

/-- A prefix of `0 .. n - 1` ends before the element that follows it. -/
theorem lt_of_range_split {n k : Nat} {f : Nat → Nat × Nat} {before after : List (Nat × Nat)}
    (h : (List.range n).map f = before ++ f k :: after) (hf : ∀ i, (f i).1 = i) :
    k < n ∧ ∀ i, i < k → f i ∈ before := by
  have hl := congrArg List.length h
  have hk := congrArg (fun l => l[before.length]?) h
  simp only [List.length_map, List.length_range, List.length_append, List.length_cons] at hl
  have hb : before.length < n := by omega
  simp only [List.getElem?_map, List.getElem?_range hb, Option.map_some, List.getElem?_append_right (Nat.le_refl _),
    Nat.sub_self, List.getElem?_cons_zero, Option.some.injEq] at hk
  have hkk : before.length = k := by have := congrArg Prod.fst hk; rwa [hf, hf] at this
  refine ⟨hkk ▸ hb, ?_⟩
  intro i hi
  have hi' := congrArg (fun l => l[i]?) h
  have hib : i < before.length := by omega
  simp only [List.getElem?_map, List.getElem?_range (show i < n by omega), Option.map_some,
    List.getElem?_append_left hib] at hi'
  exact List.mem_of_getElem? hi'.symm

/-- 41_correlator.md R144: the smallest offset of the largest score. -/
theorem bestOf_spec (p : Params) (ref buf : List Byte) :
    (bestOf p ref buf).1 ≤ buf.length - p.W ∧
    (bestOf p ref buf).2 = score p ref buf (bestOf p ref buf).1 ∧
    (∀ o, o ≤ buf.length - p.W → score p ref buf o ≤ (bestOf p ref buf).2) ∧
    (∀ o, o < (bestOf p ref buf).1 → score p ref buf o < (bestOf p ref buf).2) := by
  have h := foldl_keepBetter ((List.range (buf.length - p.W + 1)).map (fun o => (o, score p ref buf o))) (0, 0)
  obtain ⟨-, h2, h3⟩ := h
  have hall : ∀ o, o ≤ buf.length - p.W → score p ref buf o ≤ (bestOf p ref buf).2 := fun o ho =>
    h2 (o, score p ref buf o) (List.mem_map.mpr ⟨o, List.mem_range.mpr (by omega), rfl⟩)
  rcases h3 with h3 | ⟨b, a, h3, -, h5⟩
  · have e : bestOf p ref buf = (0, 0) := h3
    refine ⟨by rw [e]; exact Nat.zero_le _, ?_, hall, by rw [e]; intro o ho; cases ho⟩
    have := hall 0 (Nat.zero_le _)
    rw [e] at this ⊢
    exact (Nat.le_zero.mp this).symm
  · have hw : (bestOf p ref buf).2 = score p ref buf (bestOf p ref buf).1 := by
      have hm : bestOf p ref buf ∈ (List.range (buf.length - p.W + 1)).map (fun o => (o, score p ref buf o)) := by
        rw [h3]; exact List.mem_append_right _ (List.mem_cons_self ..)
      obtain ⟨o, -, ho⟩ := List.mem_map.mp hm
      rw [← ho]
    have hs : (List.range (buf.length - p.W + 1)).map (fun o => (o, score p ref buf o))
        = b ++ (fun o => (o, score p ref buf o)) (bestOf p ref buf).1 :: a := by
      rw [h3]
      congr 2
      exact Prod.ext rfl hw
    obtain ⟨hk, hlt⟩ := lt_of_range_split hs (fun _ => rfl)
    exact ⟨by omega, hw, hall, fun o ho => h5 _ (hlt o ho)⟩

/-- 41_correlator.md R145: the smallest index of the largest score. -/
theorem bestWordOf_spec {scores : List Nat} (h : scores ≠ []) :
    ∃ best, scores[bestWordOf scores]? = some best ∧ (∀ x ∈ scores, x ≤ best) ∧
      ∀ r, r < bestWordOf scores → ∀ x, scores[r]? = some x → x < best := by
  obtain ⟨x0, xs, rfl⟩ := List.exists_cons_of_ne_nil h
  set scores := x0 :: xs with hsc
  have hz : scores.zipIdx.foldl (fun best x => keepBetter best (x.2, x.1)) (0, scores.headD 0)
      = (scores.zipIdx.map (fun x => (x.2, x.1))).foldl keepBetter (0, scores.headD 0) := by
    rw [List.foldl_map]
  have hr : scores.zipIdx.map (fun x => (x.2, x.1))
      = (List.range scores.length).map (fun i => (i, scores.getD i 0)) := by
    apply List.ext_getElem?
    intro i
    by_cases hi : i < scores.length
    · simp [List.getElem?_map, List.getElem?_zipIdx, List.getElem?_range hi, List.getElem?_eq_getElem hi]
    · rw [List.getElem?_eq_none (by simpa using Nat.not_lt.mp hi), List.getElem?_eq_none (by simpa using Nat.not_lt.mp hi)]
  obtain ⟨h1, h2, h3⟩ := foldl_keepBetter ((List.range scores.length).map (fun i => (i, scores.getD i 0))) (0, scores.headD 0)
  have hw : bestWordOf scores
      = (((List.range scores.length).map (fun i => (i, scores.getD i 0))).foldl keepBetter (0, scores.headD 0)).1 := by
    rw [bestWordOf, hz, hr]
  set w := ((List.range scores.length).map (fun i => (i, scores.getD i 0))).foldl keepBetter (0, scores.headD 0) with hwd
  have hall : ∀ x ∈ scores, x ≤ w.2 := by
    intro x hx
    obtain ⟨i, hi, rfl⟩ := List.mem_iff_getElem.mp hx
    refine h2 (i, scores[i]) (List.mem_map.mpr ⟨i, List.mem_range.mpr hi, ?_⟩)
    simp [List.getElem?_eq_getElem hi]
  rw [hw]
  rcases h3 with h3 | ⟨b, a, h3, -, h5⟩
  · refine ⟨w.2, by rw [h3]; simp [hsc], hall, by rw [h3]; intro r hr; cases hr⟩
  · have hm : w ∈ (List.range scores.length).map (fun i => (i, scores.getD i 0)) := by
      rw [h3]; exact List.mem_append_right _ (List.mem_cons_self ..)
    obtain ⟨k, hk, hkw⟩ := List.mem_map.mp hm
    have hk := List.mem_range.mp hk
    have h3' : (List.range scores.length).map (fun i => (i, scores.getD i 0))
        = b ++ (fun i => (i, scores.getD i 0)) k :: a := by rw [h3]; congr 2; exact hkw.symm
    obtain ⟨-, hlt⟩ := lt_of_range_split h3' (fun _ => rfl)
    refine ⟨w.2, ?_, hall, ?_⟩
    · rw [← hkw]; simp [List.getElem?_eq_getElem hk]
    · intro r hr x hx
      rw [← hkw] at hr
      have := h5 _ (hlt r hr)
      obtain ⟨hr', hx'⟩ := List.getElem?_eq_some_iff.mp hx
      simpa [List.getElem?_eq_getElem hr', hx'] using this

theorem bestWordOf_lt {scores : List Nat} (h : scores ≠ []) : bestWordOf scores < scores.length := by
  obtain ⟨b, hb, -⟩ := bestWordOf_spec h
  exact (List.getElem?_eq_some_iff.mp hb).1

/-! ### The words -/

theorem crInv_crReset (p : Params) : CrInv p (crReset p) where
  nwLe := Nat.zero_le _
  wordCount := by simp [crReset]
  loaded := by intro r hr; cases hr
  wordWhole := by intro m hm; exact .inl (List.eq_of_mem_replicate hm)
  offCount := by simp [crReset]
  scoreCount := by simp [crReset]
  bestWordLt := p.hR
  validLoaded := by intro h; cases h

/-- Under the invariant every loaded word can be read: `n` words of `W` bytes each. -/
theorem readWords_of_loaded {p : Params} {word : List Memory} (n : Nat)
    (h : ∀ r, r < n → holdsBelow (word.getD r []) p.W) :
    readWords p word n = .ok ((List.range n).map (fun r => bytesOf (word.getD r []))) := by
  induction n with
  | zero => rfl
  | succ n ih =>
    obtain ⟨bs, hl, hb⟩ := exists_of_holdsBelow (h n (Nat.lt_succ_self n))
    have hr : readSpace (.rw n) (word.getD n []) 0 p.W = .ok (bytesOf (word.getD n [])) := by
      apply readSpace_ok
      rw [hb, ← hl, memRead_all]
      simp [bytesOf]
    unfold readWords
    rw [ih (fun r hr => h r (Nat.lt_succ_of_lt hr))]
    simp only [hr, List.range_succ, List.map_append, List.map_cons, List.map_nil]

theorem CrInv.readWords {p : Params} {c : Cr} (h : CrInv p c) :
    readWords p c.word c.nw = .ok ((List.range c.nw).map (fun r => bytesOf (c.word.getD r []))) :=
  readWords_of_loaded c.nw h.loaded

theorem CrInv.clear {p : Params} {c : Cr} (h : CrInv p c) : CrInv p (clearValid { c with nw := 0 }) :=
  ⟨Nat.zero_le _, h.wordCount, (fun r hr => by cases hr), h.wordWhole, h.offCount, h.scoreCount, h.bestWordLt,
    (fun hv => by cases hv)⟩

/-- Loading a word keeps the invariant (41_correlator.md R142). -/
theorem CrInv.addWord {p : Params} {c : Cr} (h : CrInv p c) {v : List Byte} (hv : v.length = p.W) (hn : c.nw ≠ p.rMax) :
    memWrite (c.word.getD c.nw []) 0 v = cellsAt 0 v ∧
    CrInv p (clearValid { c with word := c.word.set c.nw (memWrite (c.word.getD c.nw []) 0 v), nw := c.nw + 1 }) := by
  have hlt : c.nw < p.rMax := Nat.lt_of_le_of_ne h.nwLe hn
  have hlen : c.nw < c.word.length := by rw [h.wordCount]; exact hlt
  have hw : memWrite (c.word.getD c.nw []) 0 v = cellsAt 0 v := by
    apply memWrite_whole
    rw [hv]
    apply h.wordWhole
    simp [List.getElem?_eq_getElem hlen]
  have hh : holdsBelow (cellsAt 0 v) p.W := by rw [← hv]; exact holdsBelow_cellsAt v
  refine ⟨hw, ⟨hlt, ?_, ?_, ?_, h.offCount, h.scoreCount, h.bestWordLt, (fun hv => by cases hv)⟩⟩
  · simp [clearValid, h.wordCount]
  · intro r hr
    show holdsBelow ((c.word.set c.nw _).getD r []) p.W
    rw [hw, List.getD_eq_getElem?_getD, List.getElem?_set]
    by_cases hc : c.nw = r
    · simp only [hc, if_true, hc ▸ hlen, Option.getD_some]; exact hh
    · rw [if_neg hc, ← List.getD_eq_getElem?_getD]
      have hr : r < c.nw + 1 := hr
      exact h.loaded r (by omega)
  · intro m hm
    have hm : m ∈ c.word.set c.nw (memWrite (c.word.getD c.nw []) 0 v) := hm
    rw [hw] at hm
    rcases List.mem_or_eq_of_mem_set hm with hm | rfl
    · exact h.wordWhole m hm
    · exact .inr hh

/-- The result registers after a search keep the invariant (41_correlator.md R146). -/
theorem CrInv.storeResults {p : Params} {c : Cr} (h : CrInv p c) {bests : List (Nat × Nat)} (hb : bests.length = c.nw)
    (hn : c.nw ≠ 0) : CrInv p (storeResults bests c) := by
  have hne : bests.map (fun b => b.2) ≠ [] := by
    intro h0
    have := congrArg List.length h0
    simp only [List.length_map, List.length_nil] at this
    omega
  have hlt : bestWordOf (bests.map (fun b => b.2)) < c.nw := by
    have := bestWordOf_lt hne
    simpa [hb] using this
  have hle := h.nwLe
  refine ⟨h.nwLe, h.wordCount, h.loaded, h.wordWhole, ?_, ?_, Nat.lt_of_lt_of_le hlt hle, fun _ => hlt⟩
  · simp [Machine.storeResults, markValid, hb, h.offCount]; omega
  · simp [Machine.storeResults, markValid, hb, h.scoreCount]; omega

theorem readResult_of_lt {place : Place} {regs : List Word32} {r : Nat} (h : r < regs.length) :
    readResult place regs r = .ok regs[r] := by
  simp [readResult, List.getElem?_eq_getElem h]

end Sys2Proof.Machine
end

