-- ==== Sys2Proof/Laws/Deinterleaver.lean ====
section
/-! SUPPORT. What the helpers of the deinterleaver do (43_deinterleaver.md), and that each keeps the invariant. -/

namespace Sys2Proof.Machine

/-- 43_deinterleaver.md R222: the length of the branch is the same after as before. -/
@[simp] theorem length_pushPop (q : List Byte) (x : Byte) : (pushPop q x).2.length = q.length := by
  cases q <;> simp [pushPop]

/-- 43_deinterleaver.md R222: pushed at the back, popped at the front. -/
theorem pushPop_eq (q : List Byte) (x : Byte) : (pushPop q x).1 :: (pushPop q x).2 = q ++ [x] := by
  cases q <;> rfl

@[simp] theorem length_branchLens (p : Params) : ((List.range p.I).map (branchLen p)).length = p.I := by simp

/-- Under the invariant there are `I` branches. -/
theorem DiInv.branchCount {p : Params} {d : Di} (h : DiInv p d) : d.fifo.length = p.I := by
  have := congrArg List.length h.branchLens
  simpa using this

/-- Under the invariant branch `b` is there with its length (10_state.md R35). -/
theorem DiInv.branch {p : Params} {d : Di} (h : DiInv p d) {b : Nat} (hb : b < p.I) :
    ∃ q, d.fifo[b]? = some q ∧ q.length = branchLen p b := by
  have hl : b < d.fifo.length := by rw [h.branchCount]; exact hb
  refine ⟨d.fifo[b], List.getElem?_eq_getElem hl, ?_⟩
  have := congrArg (fun l => l[b]?) h.branchLens
  simp only [List.getElem?_map, List.getElem?_eq_getElem hl, Option.map_some,
    List.getElem?_eq_getElem (show b < (List.range p.I).length by simpa using hb), List.getElem_range,
    Option.some.injEq] at this
  exact this

theorem diInv_diReset (p : Params) : DiInv p (diReset p) where
  branchLens := by simp [diReset, Function.comp_def]
  commLt := p.hI
  fillLt := Nat.zero_lt_succ _
  frameHolds := rfl
  unsynced := fun _ => ⟨rfl, rfl⟩
  outqFrames := by intro v hv; cases hv

/-- `Accumulate` under the invariant, with nothing said of whether the unit is synchronised (43_deinterleaver.md R224). -/
theorem accumulate_cases {d : Di} (y : Byte) (hf : holdsBelow d.frame d.fill) :
    (d.fill + 1 = fecFrame ∧
      accumulate y d = .ok { d with frame := [], fill := 0, outq := d.outq ++ [bytesOf d.frame ++ [y]] }) ∨
    (d.fill + 1 ≠ fecFrame ∧
      accumulate y d = .ok { d with frame := cellsAt 0 (bytesOf d.frame ++ [y]), fill := d.fill + 1 }) := by
  obtain ⟨bs, hl, hb⟩ := exists_of_holdsBelow hf
  have hw : memWrite d.frame d.fill [y] = cellsAt 0 (bs ++ [y]) := by rw [hb, ← hl, memWrite_end]
  have hbs : bytesOf d.frame = bs := by rw [hb]; simp [bytesOf]
  unfold accumulate
  simp only [hw, hbs]
  by_cases hc : d.fill + 1 = fecFrame
  · refine .inl ⟨hc, ?_⟩
    have hr : memRead (cellsAt 0 (bs ++ [y])) 0 fecFrame = some (bs ++ [y]) := by
      have := memRead_all (bs ++ [y])
      rwa [show (bs ++ [y]).length = fecFrame by rw [List.length_append, hl]; exact hc] at this
    simp only [if_pos hc, readSpace_ok hr, memTruncate_cellsAt]
    rfl
  · exact .inr ⟨hc, by simp only [if_neg hc]⟩

/-- `Accumulate` keeps the invariant of a synchronised unit. -/
theorem accumulate_inv {p : Params} {d : Di} (y : Byte) (h : DiInv p d) (hs : d.synced = true) :
    ∃ d', accumulate y d = .ok d' ∧ DiInv p d' ∧ d'.synced = true := by
  have hbl : (bytesOf d.frame).length = d.fill := (holdsBelow_iff.mp h.frameHolds).2
  rcases accumulate_cases y h.frameHolds with ⟨hc, e⟩ | ⟨hc, e⟩
  · refine ⟨_, e, ⟨h.branchLens, h.commLt, Nat.zero_lt_succ _, rfl, ?_, ?_⟩, hs⟩
    · intro hf; rw [show d.synced = false from hf] at hs; cases hs
    · intro v hv
      rcases List.mem_append.mp hv with hv | hv
      · exact h.outqFrames v hv
      · rw [List.mem_singleton.mp hv, List.length_append, hbl]; exact hc
  · have hlt := h.fillLt
    refine ⟨_, e, ⟨h.branchLens, h.commLt, by show d.fill + 1 < fecFrame; omega, ?_, ?_, h.outqFrames⟩, hs⟩
    · have := holdsBelow_cellsAt (bytesOf d.frame ++ [y])
      rwa [List.length_append, hbl] at this
    · intro hf; rw [show d.synced = false from hf] at hs; cases hs

theorem DiInv.markSynced {p : Params} {d : Di} (h : DiInv p d) : DiInv p (markSynced d) :=
  ⟨h.branchLens, h.commLt, h.fillLt, h.frameHolds, (fun hf => by cases hf), h.outqFrames⟩

/-- `Emit` keeps the invariant, and clears `DI.SYNCED` never (43_deinterleaver.md R223). -/
theorem emit_inv {p : Params} {d : Di} (y : Byte) (h : DiInv p d) :
    ∃ d', emit y d = .ok d' ∧ DiInv p d' ∧ (d.synced = true → d'.synced = true) := by
  unfold emit
  by_cases hs : d.synced = true
  · simp only [if_pos hs]
    obtain ⟨d', e, h1, h2⟩ := accumulate_inv y h hs
    exact ⟨d', e, h1, fun _ => h2⟩
  · simp only [if_neg hs]
    by_cases hy : isSyncByte y = true
    · simp only [if_pos hy]
      obtain ⟨d', e, h1, h2⟩ := accumulate_inv y h.markSynced rfl
      exact ⟨d', e, h1, fun _ => h2⟩
    · simp only [if_neg hy]
      exact ⟨d, rfl, h, id⟩

/-- The first half of `Step` keeps the invariant (43_deinterleaver.md R222). -/
theorem DiInv.rotateBranch {p : Params} {d : Di} (h : DiInv p d) {q : List Byte} (hq : d.fifo[d.comm]? = some q) (x : Byte) :
    DiInv p { d with fifo := d.fifo.set d.comm (pushPop q x).2, comm := (d.comm + 1) % p.I } where
  branchLens := by
    show (d.fifo.set d.comm (pushPop q x).2).map List.length = _
    rw [List.map_set, length_pushPop, ← h.branchLens]
    apply List.ext_getElem?
    intro i
    rw [List.getElem?_set]
    by_cases hi : d.comm = i
    · subst hi
      obtain ⟨hlt, he⟩ := List.getElem?_eq_some_iff.mp hq
      simp [hlt, he]
    · simp [hi]
  commLt := Nat.mod_lt _ p.hI
  fillLt := h.fillLt
  frameHolds := h.frameHolds
  unsynced := h.unsynced
  outqFrames := h.outqFrames

/-- `Step` answers and keeps the invariant (43_deinterleaver.md R222). -/
theorem diStep_inv {p : Params} {d : Di} (x : Byte) (h : DiInv p d) :
    ∃ q d', d.fifo[d.comm]? = some q ∧
      emit (pushPop q x).1 { d with fifo := d.fifo.set d.comm (pushPop q x).2, comm := (d.comm + 1) % p.I } = .ok d' ∧
      diStep p x d = .ok d' ∧ DiInv p d' ∧ (d.synced = true → d'.synced = true) := by
  obtain ⟨q, hq, -⟩ := h.branch h.commLt
  obtain ⟨d', e, h1, h2⟩ := emit_inv (pushPop q x).1 (h.rotateBranch hq x)
  refine ⟨q, d', hq, e, ?_, h1, h2⟩
  simp only [diStep, readBranch, hq]
  exact e

/-- All the steps of a `DI.PUSH` answer and keep the invariant. -/
theorem diSteps_inv {p : Params} (xs : List Byte) {d : Di} (h : DiInv p d) :
    ∃ d', diSteps p xs d = .ok d' ∧ DiInv p d' ∧ (d.synced = true → d'.synced = true) := by
  induction xs generalizing d with
  | nil => exact ⟨d, rfl, h, id⟩
  | cons x xs ih =>
    obtain ⟨-, d1, -, -, e1, h1, s1⟩ := diStep_inv x h
    obtain ⟨d2, e2, h2, s2⟩ := ih h1
    exact ⟨d2, by simp only [diSteps, e1, e2], h2, fun hs => s2 (s1 hs)⟩

/-- Pushing two payloads one after the other is pushing them together (43_deinterleaver.md R221). -/
theorem diSteps_append (p : Params) (xs ys : List Byte) (d : Di) :
    diSteps p (xs ++ ys) d =
      match diSteps p xs d with
      | .error e => .error e
      | .ok d' => diSteps p ys d' := by
  induction xs generalizing d with
  | nil => rfl
  | cons x xs ih =>
    simp only [List.cons_append, diSteps]
    cases diStep p x d with
    | error e => rfl
    | ok d' => exact ih d'

end Sys2Proof.Machine
end

