-- ==== Sys2Proof/Laws/Descrambler.lean ====
section
/-! SUPPORT. The keystream table and `DS.CFG`, `DS.APPLY` (44_descrambler.md). -/

namespace Sys2Proof.Machine

@[simp] theorem length_keystreamFrom (n i : Nat) (s : BitVec 15) : (keystreamFrom n i s).length = n := by
  induction n generalizing i s with
  | zero => rfl
  | succ n ih => simp [keystreamFrom, ih]

/-- 44_descrambler.md R252: `188 * g` bytes. -/
@[simp] theorem length_keystream (p : Params) (g : Nat) : (keystream p g).length = pkt * g := by
  unfold keystream
  split
  · rename_i h; simp [h]
  · rename_i n h; simp [h]

@[simp] theorem length_xorBytes {x k : List Byte} (h : x.length = k.length) : (xorBytes x k).length = x.length := by
  simp [xorBytes, h]

theorem dsInv_dsOf (p : Params) {g : Nat} (h1 : 1 ≤ g) (h2 : g ≤ 255) : DsInv p (dsOf p g) :=
  ⟨h1, h2, rfl⟩

theorem dsInv_dsReset (p : Params) : DsInv p (dsReset p) :=
  dsInv_dsOf p (by decide) (by decide)

/-- Under the invariant the whole table can be read. -/
theorem readKs_of_inv {p : Params} {d : Ds} (h : DsInv p d) :
    readSpace .ks d.ks 0 (pkt * d.group) = .ok (keystream p d.group) := by
  apply readSpace_ok
  rw [h.table]
  have := memRead_all (keystream p d.group)
  rwa [length_keystream] at this

/-- `DS.APPLY` on a whole group. -/
theorem execDsApply_group {s : State} (h : DsInv s.par s.ds) {x : List Byte} (hl : x.length = pkt * s.ds.group) :
    execDsApply x s = .next (s.respond .ok (xorBytes x (keystream s.par s.ds.group))) := by
  unfold execDsApply
  rw [if_neg (by simpa using hl), hl, readKs_of_inv h]
  rfl

/-- Everything `DS.CFG` can do to the descrambler. -/
theorem execDsCfg_cases {g : Byte} {s t : State} (h : execDsCfg g s = .next t) :
    (g = 0 ∧ t = raiseError .illegal s) ∨
    (g ≠ 0 ∧ g.toNat = s.ds.group ∧ t = s.respond .ok []) ∨
    (g ≠ 0 ∧ g.toNat ≠ s.ds.group ∧ t = (s.setDs (dsOf s.par g.toNat)).respond .ok []) := by
  have h := (Host.Outcome.next.inj h).symm
  by_cases hg : g = 0
  · rw [if_pos hg] at h
    exact .inl ⟨hg, h⟩
  · rw [if_neg hg] at h
    by_cases hc : g.toNat = s.ds.group
    · rw [if_neg (not_not.mpr hc)] at h
      exact .inr (.inl ⟨hg, hc, h⟩)
    · rw [if_pos hc] at h
      exact .inr (.inr ⟨hg, hc, h⟩)

end Sys2Proof.Machine
end

