-- ==== Sys2Proof/Laws/Encoding.lean ====
section
/-! SUPPORT. Framing and the ordered checks of the decoder (30_encoding.md R91, R92, R96), and what the encoder's words decode to. -/

namespace Sys2Proof

/-- 30_encoding.md R91: the four bytes of a field, joined again. -/
theorem be32_join (x : Word32) :
    x.extractLsb' 24 8 ++ x.extractLsb' 16 8 ++ x.extractLsb' 8 8 ++ x.extractLsb' 0 8 = x := by
  apply BitVec.eq_of_getLsbD_eq
  intro i hi
  simp only [BitVec.getLsbD_append, BitVec.getLsbD_extractLsb']
  by_cases h1 : i < 8
  · simp [h1]
  · by_cases h2 : i - 8 < 8
    · simp [h1, h2]; congr 1; omega
    · by_cases h3 : i - 8 - 8 < 8
      · simp [h1, h2, h3]; congr 1; omega
      · simp [h1, h2, h3, show i - 8 - 8 - 8 < 8 by omega]; congr 1; omega

theorem be16_join (x : BitVec 16) : x.extractLsb' 8 8 ++ x.extractLsb' 0 8 = x := by
  apply BitVec.eq_of_getLsbD_eq
  intro i hi
  simp only [BitVec.getLsbD_append, BitVec.getLsbD_extractLsb']
  by_cases h1 : i < 8
  · simp [h1]
  · simp [h1, show i - 8 < 8 by omega]; congr 1; omega

@[simp] theorem length_be32 (x : Word32) : (be32 x).length = 4 := rfl

@[simp] theorem length_headerBytes (h : Header) : (headerBytes h).length = 8 := rfl

/-- A header read back from its bytes (30_encoding.md R91). -/
theorem takeHeader_headerBytes (h : Header) (rest : List Byte) : takeHeader (headerBytes h ++ rest) = some (h, rest) := by
  cases h with
  | mk op arg rsv len =>
    simp only [headerBytes, be32, List.cons_append, List.nil_append, takeHeader]
    have h1 := be16_join rsv
    have h2 := be32_join len
    simp only [Option.some.injEq, Prod.mk.injEq, Header.mk.injEq, true_and, and_true]
    exact ⟨h1, h2⟩

/-- Eight bytes are the bytes of the header they hold (30_encoding.md R91). -/
theorem headerBytes_takeHeader {port rest : List Byte} {h : Header} (e : takeHeader port = some (h, rest)) :
    port = headerBytes h ++ rest := by
  unfold takeHeader at e
  split at e
  · rename_i b0 b1 b2 b3 b4 b5 b6 b7 r
    simp only [Option.some.injEq, Prod.mk.injEq] at e
    obtain ⟨rfl, rfl⟩ := e
    simp only [headerBytes, be32, List.cons_append, List.nil_append, List.cons.injEq, and_true, true_and]
    refine ⟨?_, ?_, ?_, ?_, ?_, ?_⟩ <;>
    · apply BitVec.eq_of_getLsbD_eq
      intro i hi
      simp only [BitVec.getLsbD_extractLsb', BitVec.getLsbD_append, hi, decide_true, Bool.true_and]
      split_ifs <;> first | omega | (congr 1; omega)
  · cases e

/-- A complete command at the front of the port (30_encoding.md R92). -/
theorem takeCommand_bytes (h : Header) {payload : List Byte} (hl : payload.length = h.len.toNat) (rest : List Byte) :
    takeCommand (headerBytes h ++ (payload ++ rest)) = some ({ header := h, payload := payload }, rest) := by
  unfold takeCommand
  rw [takeHeader_headerBytes]
  simp only [← hl, List.length_append, Nat.le_add_right, if_true, List.take_left, List.drop_left]

/-- What the port held when a complete command was taken from it. -/
theorem takeCommand_eq {port rest : List Byte} {c : Command} (e : takeCommand port = some (c, rest)) :
    port = headerBytes c.header ++ (c.payload ++ rest) ∧ c.payload.length = c.header.len.toNat := by
  unfold takeCommand at e
  cases hh : takeHeader port with
  | none => rw [hh] at e; cases e
  | some hr =>
    obtain ⟨h, r⟩ := hr
    rw [hh] at e
    simp only at e
    split at e
    · rename_i hle
      simp only [Option.some.injEq, Prod.mk.injEq] at e
      obtain ⟨rfl, rfl⟩ := e
      refine ⟨?_, by simpa using hle⟩
      rw [headerBytes_takeHeader hh]
      simp
    · cases e

@[simp] theorem opcodeOf_byte (o : Opcode) : opcodeOf o.byte = some o := by cases o <;> rfl

/-- Each `OP` byte has one row (30_encoding.md R95). -/
theorem byte_of_opcodeOf {op : Byte} {o : Opcode} (h : opcodeOf op = some o) : op = o.byte := by
  have := List.find?_some h
  exact (beq_iff_eq.mp this).symm

/-- A command of a defined row whose header passes the checks decodes to that row's command (30_encoding.md R96). -/
theorem decode_of_checks {h : Header} {o : Opcode} {payload : List Byte} (ho : h.op = o.byte) (hr : h.rsv = 0)
    (ha : o.argOk h.arg = true) (hlen : o.lenOk h.len = true) (hl : payload.length = h.len.toNat) (rest : List Byte) :
    decode (headerBytes h ++ (payload ++ rest)) = .command (o.build h.arg payload) rest := by
  unfold decode
  rw [takeCommand_bytes h hl]
  simp only [decodeCommand, ho, opcodeOf_byte, hr, ha, hlen, ne_eq, not_true_eq_false, if_false, Bool.true_eq_false]

/-- What a decoded command says of its header. -/
theorem checks_of_decode {port rest : List Byte} {i : Instr} (h : decode port = .command i rest) :
    ∃ (hd : Header) (o : Opcode) (payload : List Byte), port = headerBytes hd ++ (payload ++ rest) ∧
      payload.length = hd.len.toNat ∧ hd.op = o.byte ∧ hd.rsv = 0 ∧ o.argOk hd.arg = true ∧ o.lenOk hd.len = true ∧
      i = o.build hd.arg payload := by
  unfold decode at h
  cases ht : takeCommand port with
  | none => rw [ht] at h; cases h
  | some cr =>
    obtain ⟨c, r⟩ := cr
    rw [ht] at h
    simp only at h
    cases hd : decodeCommand c with
    | error e => rw [hd] at h; cases h
    | ok j =>
      rw [hd] at h
      simp only [Decoded.command.injEq] at h
      obtain ⟨rfl, rfl⟩ := h
      unfold decodeCommand at hd
      cases hop : opcodeOf c.header.op with
      | none => rw [hop] at hd; cases hd
      | some o =>
        rw [hop] at hd
        simp only at hd
        split at hd
        · cases hd
        · rename_i hr
          split at hd
          · cases hd
          · rename_i ha
            split at hd
            · cases hd
            · rename_i hl
              obtain ⟨h1, h2⟩ := takeCommand_eq ht
              exact ⟨c.header, o, c.payload, h1, h2, byte_of_opcodeOf hop, not_not.mp hr, by simpa using ha, by simpa using hl,
                (Except.ok.inj hd).symm⟩

@[simp] theorem argHyp_ofNat (h : Hyp) : argHyp (BitVec.ofNat 8 h.val) = h := by
  fin_cases h <;> rfl

@[simp] theorem argMask_setWidth (m : BitVec 4) : argMask (m.setWidth 8) = m := by
  revert m; decide

end Sys2Proof
end

