-- ==== Sys2Proof/Laws/FrameSync.lean ====
section
/-! SUPPORT. What the helpers of the frame synchronizer do (42_framesync.md) on a buffer that holds exactly its valid soft bits, and
that each keeps the invariant. -/

namespace Sys2Proof.Machine

/-! ### Rotation and decoding -/

@[simp] theorem length_rotBuf (h : Hyp) (bs : List Byte) : (rotBuf h bs).length = bs.length := by
  fun_induction rotBuf h bs with
  | case1 i q rest ih => simp [ih]
  | case2 => rfl

@[simp] theorem length_sliceFrame (n : Nat) (soft : List Byte) : (sliceFrame n soft).length = n := by
  induction n generalizing soft with
  | zero => rfl
  | succ n ih => simp [sliceFrame, ih]

/-- 42_framesync.md R160: a decoded frame is exactly `F` bytes. -/
@[simp] theorem length_convDecode (p : Params) (soft : List Byte) : (convDecode p soft).1.length = p.F := by
  unfold convDecode
  split <;> simp

@[simp] theorem decodedSet_decodeAll (p : Params) (soft : List Byte) (f : Fs) :
    decodedSet (decodeAll p soft f) = decodedSet f := rfl

theorem decodeAll_dec (p : Params) (soft : List Byte) (f : Fs) (h : Hyp) :
    (decodeAll p soft f).dec[h] =
      if h ∈ decodedSet f then memWrite f.dec[h] 0 (convDecode p (rotBuf h soft)).1 else f.dec[h] := by
  simp [decodeAll]

theorem decodeAll_err (p : Params) (soft : List Byte) (f : Fs) (h : Hyp) :
    (decodeAll p soft f).err[h] =
      if h ∈ decodedSet f then saturate32 (convDecode p (rotBuf h soft)).2 else f.err[h] := by
  simp [decodeAll]

theorem mem_decodedSet_of_locked {f : Fs} (h : f.locked = true) : f.active ∈ decodedSet f := by
  simp [decodedSet, h]

theorem mem_decodedSet_of_unlocked {f : Fs} (h : f.locked = false) (x : Hyp) : x ∈ decodedSet f := by
  simp only [decodedSet, h, Bool.false_eq_true, if_false]
  revert x
  decide

/-- A decoded frame of the cycle that has just run is whole. -/
theorem decodeAll_dec_of_mem {p : Params} {soft : List Byte} {f : Fs} {h : Hyp}
    (w : f.dec[h] = [] ∨ holdsBelow f.dec[h] p.F) (m : h ∈ decodedSet f) :
    (decodeAll p soft f).dec[h] = cellsAt 0 (convDecode p (rotBuf h soft)).1 := by
  rw [decodeAll_dec, if_pos m, memWrite_whole (by simpa using w)]

/-! ### `TopUp` -/

@[simp] theorem topUp_dec (p : Params) (f : Fs) : (topUp p f).dec = f.dec := rfl
@[simp] theorem topUp_err (p : Params) (f : Fs) : (topUp p f).err = f.err := rfl
@[simp] theorem topUp_locked (p : Params) (f : Fs) : (topUp p f).locked = f.locked := rfl
@[simp] theorem topUp_active (p : Params) (f : Fs) : (topUp p f).active = f.active := rfl
@[simp] theorem topUp_ready (p : Params) (f : Fs) : (topUp p f).ready = f.ready := rfl

theorem topUp_pos (p : Params) (f : Fs) : (topUp p f).pos = f.pos + min f.pend.length (p.C - f.pos) := rfl

theorem topUp_pend (p : Params) (f : Fs) : (topUp p f).pend = f.pend.drop (min f.pend.length (p.C - f.pos)) := rfl

/-- `TopUp` on the sequence of valid soft bits (42_framesync.md R162). -/
theorem topUp_buf {p : Params} {f : Fs} {bs : List Byte} (hb : f.buf = cellsAt 0 bs) (hl : bs.length = f.pos) :
    (topUp p f).buf = cellsAt 0 (bs ++ f.pend.take (p.C - f.pos)) := by
  show memWrite f.buf f.pos (f.pend.take (min f.pend.length (p.C - f.pos))) = _
  rw [hb, ← hl, memWrite_end]
  congr 2
  rcases Nat.le_total f.pend.length (p.C - bs.length) with h | h
  · rw [Nat.min_eq_left h, List.take_length, List.take_of_length_le h]
  · rw [Nat.min_eq_right h]

/-- After `TopUp`, nothing is pending or the buffer is full (42_framesync.md R162). -/
theorem topUp_settles (p : Params) {f : Fs} (h : f.pos ≤ p.C) :
    (topUp p f).pend = [] ∨ (topUp p f).pos = p.C := by
  rw [topUp_pend, topUp_pos]
  rcases Nat.le_total f.pend.length (p.C - f.pos) with h' | h'
  · left; rw [Nat.min_eq_left h', List.drop_length]
  · right; rw [Nat.min_eq_right h']; omega

theorem fsInv_fsReset (p : Params) : FsInv p fsReset where
  bufHolds := rfl
  posLe := Nat.zero_le _
  readyLocked := by intro h; cases h
  lockedDecoded := by intro h; cases h
  decWhole := by intro h; left; fin_cases h <;> rfl
  pendSettled := .inl rfl

/-- `TopUp` keeps everything of the invariant but its last clause, which it settles. -/
theorem FsCore.topUp {p : Params} {f : Fs} (h : FsCore p f) : FsInv p (topUp p f) := by
  obtain ⟨bs, hlen, hbuf⟩ := exists_of_holdsBelow h.bufHolds
  have hp := h.posLe
  refine ⟨⟨?_, ?_, h.readyLocked, h.lockedDecoded, h.decWhole⟩, ?_⟩
  · rw [topUp_buf hbuf hlen]
    have := holdsBelow_cellsAt (bs ++ f.pend.take (p.C - f.pos))
    rwa [List.length_append, List.length_take, hlen, Nat.min_comm, ← topUp_pos] at this
  · rw [topUp_pos]; omega
  · rcases topUp_settles p hp with h | h
    · exact .inl h
    · exact .inr (.inl h)

theorem FsInv.topUp {p : Params} {f : Fs} (h : FsInv p f) : FsInv p (topUp p f) :=
  h.toFsCore.topUp

/-! ### `DecodeCycle` -/

/-- A full buffer can be decoded. -/
theorem decodeCycle_full {p : Params} {f : Fs} (h : holdsBelow f.buf f.pos) (hp : f.pos = p.C) :
    decodeCycle p f = .ok (decodeAll p (bytesOf f.buf) f) := by
  obtain ⟨bs, hlen, hbuf⟩ := exists_of_holdsBelow h
  unfold decodeCycle
  rw [readSpace_ok (v := bs) (by rw [hbuf, ← hp, ← hlen]; exact memRead_all bs)]
  simp [hbuf, bytesOf]

/-- Everything a decode cycle can do. -/
theorem decodeCycle_ok {p : Params} {f g : Fs} (h : decodeCycle p f = .ok g) :
    ∃ soft, memRead f.buf 0 p.C = some soft ∧ soft.length = p.C ∧ g = decodeAll p soft f := by
  unfold decodeCycle at h
  rcases readSpace_cases .sb f.buf 0 p.C with ⟨v, hv, hl, hr⟩ | ⟨-, hr⟩
  · rw [hr] at h
    exact ⟨v, hv, hl, (Except.ok.inj h).symm⟩
  · rw [hr] at h
    cases h

theorem FsInv.decodeAll {p : Params} {f : Fs} (h : FsInv p f) (soft : List Byte) : FsInv p (decodeAll p soft f) where
  bufHolds := h.bufHolds
  posLe := h.posLe
  readyLocked := h.readyLocked
  lockedDecoded := by
    intro hl
    show holdsBelow ((Machine.decodeAll p soft f).dec[f.active]) p.F
    rw [decodeAll_dec_of_mem (h.decWhole _) (mem_decodedSet_of_locked hl)]
    have := holdsBelow_cellsAt (convDecode p (rotBuf f.active soft)).1
    rwa [length_convDecode] at this
  decWhole := by
    intro x
    by_cases m : x ∈ decodedSet f
    · right
      rw [decodeAll_dec_of_mem (h.decWhole x) m]
      have := holdsBelow_cellsAt (convDecode p (rotBuf x soft)).1
      rwa [length_convDecode] at this
    · rw [decodeAll_dec, if_neg m]
      exact h.decWhole x
  pendSettled := h.pendSettled

/-! ### `Shift` and `Advance` -/

/-- `Shift` on a full buffer: the oldest soft bit is gone, the others move down by one (42_framesync.md R177). -/
theorem shiftBuf_full {p : Params} {f : Fs} {bs : List Byte} (hb : f.buf = cellsAt 0 bs) (hl : bs.length = p.C) :
    shiftBuf p f = .ok { f with buf := cellsAt 0 (bs.drop 1), pos := p.C - 1 } := by
  have hC : 0 < p.C := Nat.lt_of_le_of_lt (Nat.zero_le _) p.hGC
  have hr : memRead f.buf 1 (p.C - 1) = some (bs.drop 1) := by
    rw [hb, memRead_cellsAt (by omega), List.take_of_length_le (by simp; omega)]
  unfold shiftBuf
  rw [readSpace_ok hr]
  simp only [hb, memWrite_start, memTruncate_cellsAt]
  have : (bs.drop 1).length = p.C - 1 := by simp; omega
  rw [← this, List.take_left]

/-- `Advance` on a full buffer: the guard region is all that stays (42_framesync.md R178). -/
theorem advanceBuf_full {p : Params} {f : Fs} {bs : List Byte} (hb : f.buf = cellsAt 0 bs) (hl : bs.length = p.C) :
    advanceBuf p f = .ok { f with buf := cellsAt 0 (bs.drop (p.C - p.G)), pos := p.G } := by
  have hG := p.hGC
  have hd : (bs.drop (p.C - p.G)).length = p.G := by simp; omega
  have hr : memRead f.buf (p.C - p.G) p.G = some (bs.drop (p.C - p.G)) := by
    rw [hb, memRead_cellsAt (by omega), List.take_of_length_le (by omega)]
  unfold advanceBuf
  rw [readSpace_ok hr]
  simp only [hb, memWrite_start, memTruncate_cellsAt]
  rw [List.take_left' hd]

/-! ### The search -/

@[simp] theorem lockOn_buf (w : Hyp) (f : Fs) : (lockOn w f).buf = f.buf := rfl
@[simp] theorem lockOn_pend (w : Hyp) (f : Fs) : (lockOn w f).pend = f.pend := rfl

@[simp] theorem loseLock_buf (f : Fs) : (loseLock f).buf = f.buf := by unfold loseLock; split <;> rfl
@[simp] theorem loseLock_pos (f : Fs) : (loseLock f).pos = f.pos := by unfold loseLock; split <;> rfl
@[simp] theorem loseLock_pend (f : Fs) : (loseLock f).pend = f.pend := by unfold loseLock; split <;> rfl
@[simp] theorem loseLock_dec (f : Fs) : (loseLock f).dec = f.dec := by unfold loseLock; split <;> rfl
@[simp] theorem loseLock_err (f : Fs) : (loseLock f).err = f.err := by unfold loseLock; split <;> rfl
@[simp] theorem loseLock_active (f : Fs) : (loseLock f).active = f.active := by unfold loseLock; split <;> rfl

@[simp] theorem loseLock_locked (f : Fs) : (loseLock f).locked = false := by
  unfold loseLock; split
  · rfl
  · rename_i h; simpa using h

theorem loseLock_ready {f : Fs} (h : f.ready = true → f.locked = true) : (loseLock f).ready = false := by
  unfold loseLock; split
  · rfl
  · rename_i hl
    cases hr : f.ready
    · rfl
    · exact absurd (h hr) hl

/-- `Select` gives a member (42_framesync.md R181). -/
theorem selectHyp_mem {hyps : List Hyp} {w : Hyp} (h : selectHyp hyps = some w) : w ∈ hyps :=
  List.min?_mem h

/-- What a turn can end with: every case of the table of 42_framesync.md R182, with what
each leaves. `soft` is the full buffer the cycle decoded. -/
theorem searchTurn_cases {p : Params} {f : Fs} (h : FsCore p f) :
    ((topUp p f).pos < p.C ∧ searchTurn p f = .ok (.notFull (topUp p f))) ∨
    (∃ soft, soft.length = p.C ∧ (topUp p f).pos = p.C ∧ (topUp p f).buf = cellsAt 0 soft ∧
      ∃ w, selectHyp (passing (decodeAll p soft (topUp p f))) = some w ∧
        searchTurn p f = .ok (.found w
          { decodeAll p soft (topUp p f) with
            buf := cellsAt 0 (soft.drop (p.C - p.G)), pos := p.G, locked := true, active := w, ready := true })) ∨
    (∃ soft, soft.length = p.C ∧ (topUp p f).pos = p.C ∧ (topUp p f).buf = cellsAt 0 soft ∧
      selectHyp (passing (decodeAll p soft (topUp p f))) = none ∧
        searchTurn p f = .ok (.missed f.locked
          { loseLock (decodeAll p soft (topUp p f)) with buf := cellsAt 0 (soft.drop 1), pos := p.C - 1 })) := by
  have h1 := h.topUp
  by_cases hc : (Machine.topUp p f).pos < p.C
  · exact .inl ⟨hc, by simp [searchTurn, hc]⟩
  · have hp : (Machine.topUp p f).pos = p.C := Nat.le_antisymm h1.posLe (Nat.not_lt.mp hc)
    obtain ⟨soft, hl, hb⟩ := exists_of_holdsBelow h1.bufHolds
    have hl' : soft.length = p.C := hl.trans hp
    have hdc : decodeCycle p (Machine.topUp p f) = .ok (Machine.decodeAll p soft (Machine.topUp p f)) := by
      rw [decodeCycle_full h1.bufHolds hp]
      simp [hb, bytesOf]
    have hst : searchTurn p f = testSync p (Machine.decodeAll p soft (Machine.topUp p f)) := by
      simp only [searchTurn, if_neg hc, hdc]
    cases hs : selectHyp (passing (Machine.decodeAll p soft (Machine.topUp p f))) with
    | some w =>
      refine .inr (.inl ⟨soft, hl', hp, hb, w, hs, ?_⟩)
      have ha := advanceBuf_full (f := lockOn w (Machine.decodeAll p soft (Machine.topUp p f))) (bs := soft) hb hl'
      simp only [hst, testSync, hs, ha]
      rfl
    | none =>
      refine .inr (.inr ⟨soft, hl', hp, hb, hs, ?_⟩)
      have ha := shiftBuf_full (f := loseLock (Machine.decodeAll p soft (Machine.topUp p f))) (bs := soft)
        (by rw [loseLock_buf]; exact hb) hl'
      simp only [hst, testSync, hs, ha]
      rfl

/-- What a turn keeps, whichever way it ends. -/
theorem searchTurn_inv {p : Params} {f : Fs} (h : FsCore p f) :
    ∃ r, searchTurn p f = .ok r ∧
      match r with
      | .notFull g => FsInv p g ∧ g.pend = [] ∧ g.pos < p.C
      | .found w g => FsInv p g ∧ g.locked = true ∧ g.active = w ∧ g.ready = true ∧ g.pos = p.G
      | .missed lost g =>
        (topUp p f).pos = p.C ∧ lost = f.locked ∧ g.locked = false ∧ g.pos = p.C - 1 ∧ g.pend = (topUp p f).pend ∧
          FsCore p g := by
  have hC : 0 < p.C := Nat.lt_of_le_of_lt (Nat.zero_le _) p.hGC
  have hG := p.hGC
  rcases searchTurn_cases h with ⟨hc, e⟩ | ⟨soft, hl, hp, hb, w, hw, e⟩ | ⟨soft, hl, hp, hb, hn, e⟩
  · refine ⟨_, e, h.topUp, ?_, hc⟩
    rcases topUp_settles p h.posLe with h' | h'
    · exact h'
    · omega
  · have hd := h.topUp.decodeAll soft
    have hm : w ∈ decodedSet (Machine.topUp p f) := by
      have := selectHyp_mem hw
      exact (List.mem_filter.mp this).1
    refine ⟨_, e, ⟨⟨?_, ?_, fun _ => rfl, ?_, hd.decWhole⟩, .inr (.inr ⟨rfl, rfl⟩)⟩, rfl, rfl, rfl, rfl⟩
    · have := holdsBelow_cellsAt (soft.drop (p.C - p.G))
      rwa [show (soft.drop (p.C - p.G)).length = p.G by simp; omega] at this
    · exact Nat.le_of_lt hG
    · intro _
      show holdsBelow ((Machine.decodeAll p soft (Machine.topUp p f)).dec[w]) p.F
      rw [decodeAll_dec_of_mem (h.topUp.decWhole w) hm]
      have := holdsBelow_cellsAt (convDecode p (rotBuf w soft)).1
      rwa [length_convDecode] at this
  · have hd := h.topUp.decodeAll soft
    refine ⟨_, e, hp, rfl, loseLock_locked _, rfl, ?_, ?_, Nat.sub_le _ _, ?_, ?_, ?_⟩
    · show (loseLock (Machine.decodeAll p soft (Machine.topUp p f))).pend = _
      rw [loseLock_pend]
      rfl
    · have := holdsBelow_cellsAt (soft.drop 1)
      rwa [show (soft.drop 1).length = p.C - 1 by simp; omega] at this
    · intro hr
      have hr' : (loseLock (Machine.decodeAll p soft (Machine.topUp p f))).ready = true := hr
      rw [loseLock_ready hd.readyLocked] at hr'
      cases hr'
    · intro hl'
      have hl' : (loseLock (Machine.decodeAll p soft (Machine.topUp p f))).locked = true := hl'
      rw [loseLock_locked] at hl'
      cases hl'
    · intro x
      show (loseLock (Machine.decodeAll p soft (Machine.topUp p f))).dec[x] = [] ∨ _
      rw [loseLock_dec]
      exact hd.decWhole x

/-- What a search ends with (42_framesync.md R179, R180). -/
def goodSearch (p : Params) (r : Search) : Prop :=
  FsInv p r.fs ∧
    match r.found with
    | some w => r.fs.locked = true ∧ r.fs.active = w ∧ r.fs.ready = true ∧ r.fs.pos = p.G
    | none => r.fs.pend = [] ∧ r.fs.pos < p.C

/-- The search goes on after a missed turn: one soft bit of room is left, so each further turn takes a pending byte, and fuel for
the pending bytes is enough. -/
theorem searchLoop_room {p : Params} (n : Nat) (loss : Bool) {f : Fs} (h : FsCore p f) (hp : f.pos = p.C - 1)
    (hn : f.pend.length ≤ n) : ∃ r, searchLoop p n loss f = .ok r ∧ goodSearch p r := by
  have hC : 0 < p.C := Nat.lt_of_le_of_lt (Nat.zero_le _) p.hGC
  induction n generalizing loss f with
  | zero =>
    obtain ⟨r, e, hr⟩ := searchTurn_inv h
    unfold searchLoop
    simp only [e]
    cases r with
    | notFull g => exact ⟨_, rfl, hr.1, hr.2⟩
    | found w g => exact ⟨_, rfl, hr.1, hr.2⟩
    | missed lost g =>
      have := hr.1
      rw [topUp_pos] at this
      omega
  | succ n ih =>
    obtain ⟨r, e, hr⟩ := searchTurn_inv h
    unfold searchLoop
    simp only [e]
    cases r with
    | notFull g => exact ⟨_, rfl, hr.1, hr.2⟩
    | found w g => exact ⟨_, rfl, hr.1, hr.2⟩
    | missed lost g =>
      obtain ⟨h1, -, -, h2, h3, h4⟩ := hr
      refine ih _ h4 h2 ?_
      rw [h3, topUp_pend, List.length_drop]
      rw [topUp_pos] at h1
      omega

/-- `FS.FINDSYNC` always ends, with a state that meets the invariant; if nothing was found, nothing is pending and the buffer is not
full (42_framesync.md R180). -/
theorem findSync_inv {p : Params} {f : Fs} (h : FsCore p f) : ∃ r, findSync p f = .ok r ∧ goodSearch p r := by
  obtain ⟨r, e, hr⟩ := searchTurn_inv h
  unfold findSync searchLoop
  simp only [e]
  cases r with
  | notFull g => exact ⟨_, rfl, hr.1, hr.2⟩
  | found w g => exact ⟨_, rfl, hr.1, hr.2⟩
  | missed lost g =>
    obtain ⟨-, -, -, h2, h3, h4⟩ := hr
    refine searchLoop_room _ _ h4 h2 ?_
    rw [h3, topUp_pend, List.length_drop]
    omega

end Sys2Proof.Machine
end

