-- ==== Sys2Proof/Laws/Invariant.lean ====
section
/-! SUPPORT. Each meaning, from a state that meets the invariant, answers a next state that meets it (10_state.md R29, R40). -/

namespace Sys2Proof.Machine

/-- The invariant does not look at the ports. -/
theorem Inv.of_units {s t : State} (h : Inv s) (hp : t.par = s.par) (hf : t.fs = s.fs) (hd : t.di = s.di)
    (hs : t.ds = s.ds) (hc : t.cr = s.cr) : Inv t :=
  ⟨hp ▸ hf ▸ h.fs, hp ▸ hd ▸ h.di, hp ▸ hs ▸ h.ds, hp ▸ hc ▸ h.cr⟩

theorem Inv.respond {s : State} (h : Inv s) (st : Status) (pl : List Byte) : Inv (s.respond st pl) :=
  h.of_units rfl rfl rfl rfl rfl

theorem Inv.raiseError {s : State} (h : Inv s) (e : ErrorCode) : Inv (raiseError e s) :=
  h.of_units rfl rfl rfl rfl rfl

theorem Inv.setFs {s : State} (h : Inv s) {f : Fs} (hf : FsInv s.par f) : Inv (s.setFs f) := ⟨hf, h.di, h.ds, h.cr⟩

theorem Inv.setDi {s : State} (h : Inv s) {d : Di} (hd : DiInv s.par d) : Inv (s.setDi d) := ⟨h.fs, hd, h.ds, h.cr⟩

theorem Inv.setDs {s : State} (h : Inv s) {d : Ds} (hd : DsInv s.par d) : Inv (s.setDs d) := ⟨h.fs, h.di, hd, h.cr⟩

theorem Inv.setCr {s : State} (h : Inv s) {c : Cr} (hc : CrInv s.par c) : Inv (s.setCr c) := ⟨h.fs, h.di, h.ds, hc⟩

theorem Inv.resetUnits {s : State} (h : Inv s) (m : BitVec 4) : Inv (resetUnits m s) where
  fs := by
    show FsInv s.par (if m.getLsbD 1 then fsReset else s.fs)
    split
    · exact fsInv_fsReset _
    · exact h.fs
  di := by
    show DiInv s.par (if m.getLsbD 2 then diReset s.par else s.di)
    split
    · exact diInv_diReset _
    · exact h.di
  ds := by
    show DsInv s.par (if m.getLsbD 3 then dsReset s.par else s.ds)
    split
    · exact dsInv_dsReset _
    · exact h.ds
  cr := by
    show CrInv s.par (if m.getLsbD 0 then crReset s.par else s.cr)
    split
    · exact crInv_crReset _
    · exact h.cr

/-- The reset pin leaves the reset value of every unit, whatever held before. -/
theorem inv_resetByPin (s : State) : Inv (resetByPin s) :=
  ⟨fsInv_fsReset _, diInv_diReset _, dsInv_dsReset _, crInv_crReset _⟩

theorem execReset_inv (m : BitVec 4) {s : State} (h : Inv s) : ∃ t, execReset m s = .next t ∧ Inv t :=
  ⟨_, rfl, (h.resetUnits m).respond _ _⟩

theorem execRot_inv (x : Hyp) (pl : List Byte) {s : State} (h : Inv s) : ∃ t, execRot x pl s = .next t ∧ Inv t := by
  refine ⟨_, rfl, ?_⟩
  split
  · exact h.raiseError _
  · exact h.respond _ _

theorem execCrClr_inv {s : State} (h : Inv s) : ∃ t, execCrClr s = .next t ∧ Inv t :=
  ⟨_, rfl, (h.setCr h.cr.clear).respond _ _⟩

theorem execCrAddw_inv (pl : List Byte) {s : State} (h : Inv s) : ∃ t, execCrAddw pl s = .next t ∧ Inv t := by
  refine ⟨_, rfl, ?_⟩
  split
  · exact h.raiseError _
  · rename_i hl
    split
    · exact h.raiseError _
    · rename_i hn
      exact (h.setCr (h.cr.addWord (not_not.mp hl) hn).2).respond _ _

/-- `CR.RUN` on loaded words and a long enough input (41_correlator.md R146). -/
theorem execCrRun_ok {pl : List Byte} {s : State} (h : CrInv s.par s.cr) (hn : s.cr.nw ≠ 0) (hl : s.par.W ≤ pl.length) :
    execCrRun pl s =
      .next ((s.setCr (storeResults
        ((List.range s.cr.nw).map (fun r => bestOf s.par (bytesOf (s.cr.word.getD r [])) pl)) s.cr)).respond .ok
        (runAnswer ((List.range s.cr.nw).map (fun r => bestOf s.par (bytesOf (s.cr.word.getD r [])) pl)))) := by
  unfold execCrRun
  rw [if_neg hn, if_neg (by omega), h.readWords, finish_ok, List.map_map]
  rfl

theorem execCrRun_inv (pl : List Byte) {s : State} (h : Inv s) : ∃ t, execCrRun pl s = .next t ∧ Inv t := by
  by_cases hn : s.cr.nw = 0
  · exact ⟨_, by rw [execCrRun, if_pos hn], h.raiseError _⟩
  · by_cases hl : pl.length < s.par.W
    · exact ⟨_, by rw [execCrRun, if_neg hn, if_pos hl], h.raiseError _⟩
    · refine ⟨_, execCrRun_ok h.cr hn (Nat.not_lt.mp hl), ?_⟩
      exact (h.setCr (h.cr.storeResults (by simp) hn)).respond _ _

/-- `CR.GET r` of a loaded word while the results are valid (41_correlator.md R148). -/
theorem execCrGet_ok {r : Byte} {s : State} (h : CrInv s.par s.cr) (hv : s.cr.valid = true) (hr : r.toNat < s.cr.nw) :
    ∃ off sc, s.cr.bestOff[r.toNat]? = some off ∧ s.cr.bestScore[r.toNat]? = some sc ∧
      execCrGet r s = .next (s.respond .ok (be32 off ++ be32 sc)) := by
  have hle := h.nwLe
  have h1 : r.toNat < s.cr.bestOff.length := by rw [h.offCount]; omega
  have h2 : r.toNat < s.cr.bestScore.length := by rw [h.scoreCount]; omega
  refine ⟨_, _, List.getElem?_eq_getElem h1, List.getElem?_eq_getElem h2, ?_⟩
  unfold execCrGet
  rw [if_pos ⟨hv, hr⟩]
  simp only [readResult_of_lt h1, readResult_of_lt h2, finish_ok]

theorem execCrGet_inv (r : Byte) {s : State} (h : Inv s) : ∃ t, execCrGet r s = .next t ∧ Inv t := by
  by_cases hc : s.cr.valid = true ∧ r.toNat < s.cr.nw
  · obtain ⟨_, _, -, -, e⟩ := execCrGet_ok h.cr hc.1 hc.2
    exact ⟨_, e, h.respond _ _⟩
  · exact ⟨_, by rw [execCrGet, if_neg hc], h.respond _ _⟩

/-- Appending to the pending queue leaves all of the invariant but its last clause. -/
theorem FsInv.append {p : Params} {f : Fs} (h : FsInv p f) (pl : List Byte) :
    FsCore p { f with pend := f.pend ++ pl } :=
  ⟨h.bufHolds, h.posLe, h.readyLocked, h.lockedDecoded, h.decWhole⟩

theorem execFsPut_inv (pl : List Byte) {s : State} (h : Inv s) : ∃ t, execFsPut pl s = .next t ∧ Inv t :=
  ⟨_, rfl, (h.setFs (h.fs.append pl).topUp).respond _ _⟩

/-- `FS.UPDATE` on a buffer that can be filled (42_framesync.md R165). -/
theorem execFsUpdate_full {s : State} (h : FsInv s.par s.fs) (hp : (topUp s.par s.fs).pos = s.par.C) :
    execFsUpdate s =
      .next ((s.setFs (decodeAll s.par (bytesOf (topUp s.par s.fs).buf) (topUp s.par s.fs))).respond .ok []) := by
  unfold execFsUpdate
  rw [if_neg (by omega), decodeCycle_full h.topUp.bufHolds hp, finish_ok]

theorem execFsUpdate_inv {s : State} (h : Inv s) : ∃ t, execFsUpdate s = .next t ∧ Inv t := by
  by_cases hp : (topUp s.par s.fs).pos < s.par.C
  · exact ⟨_, by rw [execFsUpdate, if_pos hp], (h.setFs h.fs.topUp).respond _ _⟩
  · have := h.fs.topUp.posLe
    exact ⟨_, execFsUpdate_full h.fs (by omega), (h.setFs (h.fs.topUp.decodeAll _)).respond _ _⟩

theorem execFsFindsync_inv {s : State} (h : Inv s) : ∃ t, execFsFindsync s = .next t ∧ Inv t := by
  obtain ⟨r, e, hr⟩ := findSync_inv h.fs.toFsCore
  exact ⟨_, by rw [execFsFindsync, e, finish_ok], (h.setFs hr.1).respond _ _⟩

theorem FsInv.clearReady {p : Params} {f : Fs} (h : FsInv p f) : FsInv p (clearReady f) :=
  ⟨⟨h.bufHolds, h.posLe, (fun hr => by cases hr), h.lockedDecoded, h.decWhole⟩, h.pendSettled⟩

/-- `FS.GETFRAME` on a ready frame (42_framesync.md R190). -/
theorem execFsGetframe_ready {s : State} (h : FsInv s.par s.fs) (hl : s.fs.locked = true) (hr : s.fs.ready = true) :
    execFsGetframe s = .next ((s.setFs (clearReady s.fs)).respond .ok (bytesOf s.fs.dec[s.fs.active])) := by
  obtain ⟨bs, hlen, hb⟩ := exists_of_holdsBelow (h.lockedDecoded hl)
  unfold execFsGetframe
  rw [if_pos ⟨hl, hr⟩, readSpace_ok (v := bs) (by rw [hb, ← hlen]; exact memRead_all bs), finish_ok]
  congr 2
  rw [hb]
  simp [bytesOf]

theorem execFsGetframe_inv {s : State} (h : Inv s) : ∃ t, execFsGetframe s = .next t ∧ Inv t := by
  by_cases hc : s.fs.locked = true ∧ s.fs.ready = true
  · exact ⟨_, execFsGetframe_ready h.fs hc.1 hc.2, (h.setFs h.fs.clearReady).respond _ _⟩
  · exact ⟨_, by rw [execFsGetframe, if_neg hc], h.respond _ _⟩

theorem execFsGetber_inv {s : State} (h : Inv s) : ∃ t, execFsGetber s = .next t ∧ Inv t :=
  ⟨_, rfl, h.respond _ _⟩

theorem execFsStatus_inv {s : State} (h : Inv s) : ∃ t, execFsStatus s = .next t ∧ Inv t :=
  ⟨_, rfl, h.respond _ _⟩

theorem execDiPush_inv (pl : List Byte) {s : State} (h : Inv s) : ∃ t, execDiPush pl s = .next t ∧ Inv t := by
  obtain ⟨d, e, hd, -⟩ := diSteps_inv pl h.di
  exact ⟨_, by rw [execDiPush, e, finish_ok], (h.setDi hd).respond _ _⟩

theorem DiInv.pop {p : Params} {d : Di} (h : DiInv p d) {v : List Byte} {rest : List (List Byte)} (ho : d.outq = v :: rest) :
    DiInv p { d with outq := rest } :=
  ⟨h.branchLens, h.commLt, h.fillLt, h.frameHolds,
    (fun hs => absurd (h.unsynced hs).2 (by rw [ho]; exact List.cons_ne_nil _ _)),
    (fun x hx => h.outqFrames x (by rw [ho]; exact List.mem_cons_of_mem _ hx))⟩

theorem execDiPop_inv {s : State} (h : Inv s) : ∃ t, execDiPop s = .next t ∧ Inv t := by
  refine ⟨_, rfl, ?_⟩
  cases ho : s.di.outq with
  | nil => exact h.respond _ _
  | cons v rest => exact (h.setDi (h.di.pop ho)).respond _ _

theorem execDsCfg_inv (g : Byte) {s : State} (h : Inv s) : ∃ t, execDsCfg g s = .next t ∧ Inv t := by
  refine ⟨_, rfl, ?_⟩
  split
  · exact h.raiseError _
  · rename_i hg
    split
    · refine (h.setDs (dsInv_dsOf _ ?_ ?_)).respond _ _
      · exact Nat.one_le_iff_ne_zero.mpr (fun h0 => hg (BitVec.eq_of_toNat_eq h0))
      · have := g.isLt; omega
    · exact h.respond _ _

theorem execDsApply_inv (pl : List Byte) {s : State} (h : Inv s) : ∃ t, execDsApply pl s = .next t ∧ Inv t := by
  by_cases hl : pl.length = pkt * s.ds.group
  · exact ⟨_, execDsApply_group h.ds hl, h.respond _ _⟩
  · exact ⟨_, by rw [execDsApply, if_pos hl], h.raiseError _⟩

end Sys2Proof.Machine
end

