-- ==== Sys2Proof/Laws/PerInstr.lean ====
section
/-! SUPPORT. The statements made one instruction at a time (LAWS.json "per_instruction"). -/

/-- The bytes the encoder writes for a well-formed command decode to that command, with every operand, and nothing after them is
taken (30_encoding.md R90 to R100). -/
def Sys2Proof.Laws.RoundTrip.Statement (i : Sys2Proof.Instr) : Prop :=
  i.wellFormed = true → ∀ rest : List Sys2Proof.Byte, Sys2Proof.decode (Sys2Proof.encode i ++ rest) = .command i rest

namespace Sys2Proof.Laws.RoundTrip

/-- The shared part: the checks of 30_encoding.md R96 on the header that the encoder writes. -/
theorem of_checks (i : Instr) (hl : i.payload.length < 2 ^ 32) (ha : i.opcode.argOk i.arg = true)
    (hlen : i.opcode.lenOk (BitVec.ofNat 32 i.payload.length) = true) (hb : i.opcode.build i.arg i.payload = i)
    (rest : List Byte) : decode (encode i ++ rest) = .command i rest := by
  have := decode_of_checks (h := { op := i.opcode.byte, arg := i.arg, rsv := 0, len := BitVec.ofNat 32 i.payload.length })
    (payload := i.payload) rfl rfl ha hlen (by simpa using (Nat.mod_eq_of_lt hl).symm) rest
  rw [encode, List.append_assoc, this, hb]

theorem fits {payload : List Byte} (h : payloadFits payload = true) : payload.length < 2 ^ 32 := by
  simpa [payloadFits] using h

theorem reset (mask : BitVec 4) : Statement (.reset mask) := fun _ rest =>
  of_checks _ (by simp [Instr.payload]) (by revert mask; decide) rfl (by simp [Instr.opcode, Opcode.build, Instr.arg]) rest

theorem rot (h : Hyp) (payload : List Byte) : Statement (.rot h payload) := fun hw rest => by
  simp only [Instr.wellFormed, Bool.and_eq_true, decide_eq_true_eq] at hw
  have hf := fits hw.1
  have ha : ∀ x : Hyp, Opcode.argOk .rot (BitVec.ofNat 8 x.val) = true := by decide
  refine of_checks (.rot h payload) hf (ha h) ?_ ?_ rest
  · have e : (BitVec.ofNat 32 payload.length).toNat = payload.length := by simpa using Nat.mod_eq_of_lt hf
    simp only [Instr.opcode, Opcode.lenOk, Instr.payload, e, hw.2, beq_self_eq_true]
  · simp [Instr.opcode, Opcode.build, Instr.arg, Instr.payload]

theorem crClr : Statement .crClr := fun _ rest => of_checks _ (by simp [Instr.payload]) rfl rfl rfl rest

theorem crAddw (payload : List Byte) : Statement (.crAddw payload) := fun hw rest =>
  of_checks (.crAddw payload) (fits (payload := payload) hw) (show Opcode.argOk .crAddw 0 = true by decide) rfl rfl rest

theorem crRun (payload : List Byte) : Statement (.crRun payload) := fun hw rest =>
  of_checks (.crRun payload) (fits (payload := payload) hw) (show Opcode.argOk .crRun 0 = true by decide) rfl rfl rest

theorem crGet (r : Byte) : Statement (.crGet r) := fun _ rest =>
  of_checks _ (by simp [Instr.payload]) (by simp [Instr.opcode, Opcode.argOk, Opcode.argReserved, Instr.arg]) rfl rfl rest

theorem fsPut (payload : List Byte) : Statement (.fsPut payload) := fun hw rest =>
  of_checks (.fsPut payload) (fits (payload := payload) hw) (show Opcode.argOk .fsPut 0 = true by decide) rfl rfl rest

theorem fsUpdate : Statement .fsUpdate := fun _ rest => of_checks _ (by simp [Instr.payload]) rfl rfl rfl rest

theorem fsFindsync : Statement .fsFindsync := fun _ rest => of_checks _ (by simp [Instr.payload]) rfl rfl rfl rest

theorem fsGetframe : Statement .fsGetframe := fun _ rest => of_checks _ (by simp [Instr.payload]) rfl rfl rfl rest

theorem fsGetber : Statement .fsGetber := fun _ rest => of_checks _ (by simp [Instr.payload]) rfl rfl rfl rest

theorem fsStatus : Statement .fsStatus := fun _ rest => of_checks _ (by simp [Instr.payload]) rfl rfl rfl rest

theorem diPush (payload : List Byte) : Statement (.diPush payload) := fun hw rest =>
  of_checks (.diPush payload) (fits (payload := payload) hw) (show Opcode.argOk .diPush 0 = true by decide) rfl rfl rest

theorem diPop : Statement .diPop := fun _ rest => of_checks _ (by simp [Instr.payload]) rfl rfl rfl rest

theorem dsCfg (g : Byte) : Statement (.dsCfg g) := fun hw rest => by
  refine of_checks _ (by simp [Instr.payload]) ?_ rfl rfl rest
  simp only [Instr.wellFormed, decide_eq_true_eq] at hw
  simpa [Instr.opcode, Opcode.argOk, Opcode.argReserved, Instr.arg] using hw

theorem dsApply (payload : List Byte) : Statement (.dsApply payload) := fun hw rest =>
  of_checks (.dsApply payload) (fits (payload := payload) hw) (show Opcode.argOk .dsApply 0 = true by decide) rfl rfl rest

end Sys2Proof.Laws.RoundTrip
end

