-- ==== Sys2Proof/Tests/Slice0.lean ====
section
/-! SUPPORT. Tests of the model against the encodings and the vectors of spec/95_test_vectors.md, and for every statement of
Certificates/Slice0/Obligations.lean that has hypotheses a concrete case that meets them. -/

namespace Sys2Proof.Tests

open Sys2Proof.Machine Sys2Proof.Spec

/-! ### Instances and states -/

/-- A small instance: the toy deinterleaver of 95_test_vectors.md 2.6, the correlator of 2.3, a buffer of 4 soft bits. -/
def tiny : Params where
  F := 817
  C := 4
  G := 2
  guardCorr := 2
  berSentinel := 0xFFFFFFFF
  decoder := .hardSlicer
  I := 3
  M := 2
  lfsrSeed := 0x00A9
  ks0 := 0xFF
  W := 8
  rMax := 2
  corrT := 127
  hF := by decide
  hC := by decide
  hG := by decide
  hGC := by decide
  hI := by decide
  hM := by decide
  hW := by decide
  hR := by decide

/-- Configuration T1 of 95_test_vectors.md 2.5. -/
def t1 : Params :=
  { tiny with C := 6552, G := 16, hC := by decide, hG := by decide, hGC := by decide }

def s0 : State := State.resetOf tiny

/-- `s0` with these bytes on the command port. -/
def sent (port : List Byte) : State := { s0 with cmdIn := port }

/-- One unit of the next state of an outcome, with the last response. -/
def after {α : Type} (unit : State → α) (o : Host.Outcome State Fault Refusal) : Option (α × Option Response) :=
  match o with
  | .next t => some (unit t, t.rspOut.getLast?)
  | .fault _ => none
  | .refused _ => none

/-- The responses after an outcome. -/
def responses (o : Host.Outcome State Fault Refusal) : List Response :=
  match o with
  | .next t => t.rspOut
  | .fault _ => []
  | .refused _ => []

def w47 : List Byte := [255, 0, 255, 255, 255, 0, 0, 0]
def wB8 : List Byte := [0, 255, 0, 0, 0, 255, 255, 255]

/-- The input of V-CR-1. -/
def input23 : List Byte :=
  [10, 200, 30, 240, 20, 15, 10, 220, 230, 250, 126, 127, 128, 5, 200, 10, 220, 230, 240, 12, 13, 14, 90]

/-- Both words of V-CR-1 loaded: the set is full. -/
def loaded : State :=
  s0.setCr { s0.cr with word := [cellsAt 0 w47, cellsAt 0 wB8], nw := 2 }

/-- One word loaded, and the results of a search on it. -/
def searched : State :=
  s0.setCr { s0.cr with word := [cellsAt 0 w47, []], nw := 1, bestOff := [2, 0], bestScore := [8, 0], valid := true }

/-- Locked on hypothesis 0, the frame ready, the buffer full, one soft bit pending. -/
def lockedFs : Fs :=
  { fsReset with
    buf := cellsAt 0 [1, 2, 3, 4], pos := 4, pend := [5], dec := fsReset.dec.set 0 (cellsAt 0 (List.replicate 817 0))
    locked := true, ready := true }

def lockedState : State := s0.setFs lockedFs

/-- A deinterleaver that has queued a frame. -/
def queued : State :=
  s0.setDi { s0.di with synced := true, outq := [List.replicate 204 0x47] }

/-! ### Well-formedness refuses -/

theorem test_wf_rot_odd : (Instr.rot 0 [1]).wellFormed = false := by decide

theorem test_wf_group_zero : (Instr.dsCfg 0).wellFormed = false := by decide

theorem test_wf_payload_too_long (payload : List Byte) (h : payload.length = 2 ^ 32) :
    (Instr.rot 0 payload).wellFormed = false ∧ (Instr.crAddw payload).wellFormed = false ∧
    (Instr.crRun payload).wellFormed = false ∧ (Instr.fsPut payload).wellFormed = false ∧
    (Instr.diPush payload).wellFormed = false ∧ (Instr.dsApply payload).wellFormed = false := by
  simp [Instr.wellFormed, payloadFits, h]

theorem test_wf_accepts : (Instr.rot 5 [0xC8, 0x32]).wellFormed = true ∧ (Instr.dsCfg 255).wellFormed = true := by decide

/-! ### Decoding: words written out from 30_encoding.md R91, R95, R100 -/

theorem test_decode_reset : decode [0x01, 0x05, 0, 0, 0, 0, 0, 0] = .command (.reset 0b0101) [] := by decide

theorem test_decode_rot : decode [0x10, 0x07, 0, 0, 0, 0, 0, 4, 1, 2, 3, 4, 9] = .command (.rot 7 [1, 2, 3, 4]) [9] := by decide

theorem test_decode_crClr : decode [0x20, 0, 0, 0, 0, 0, 0, 0] = .command .crClr [] := by decide

theorem test_decode_crAddw :
    decode [0x21, 0, 0, 0, 0, 0, 0, 8, 0xFF, 0, 0xFF, 0xFF, 0xFF, 0, 0, 0] = .command (.crAddw w47) [] := by decide

theorem test_decode_crRun : decode [0x22, 0, 0, 0, 0, 0, 0, 1, 0x7F] = .command (.crRun [0x7F]) [] := by decide

theorem test_decode_crGet : decode [0x23, 0xFE, 0, 0, 0, 0, 0, 0] = .command (.crGet 0xFE) [] := by decide

theorem test_decode_fsPut :
    decode [0x30, 0, 0, 0, 0, 0, 0, 3, 0x7F, 0x7F, 0x7F] = .command (.fsPut [0x7F, 0x7F, 0x7F]) [] := by decide

theorem test_decode_fsUpdate : decode [0x31, 0, 0, 0, 0, 0, 0, 0] = .command .fsUpdate [] := by decide

theorem test_decode_fsFindsync : decode [0x32, 0, 0, 0, 0, 0, 0, 0] = .command .fsFindsync [] := by decide

theorem test_decode_fsGetframe : decode [0x33, 0, 0, 0, 0, 0, 0, 0] = .command .fsGetframe [] := by decide

theorem test_decode_fsGetber : decode [0x34, 0, 0, 0, 0, 0, 0, 0] = .command .fsGetber [] := by decide

theorem test_decode_fsStatus : decode [0x35, 0, 0, 0, 0, 0, 0, 0] = .command .fsStatus [] := by decide

theorem test_decode_diPush : decode [0x40, 0, 0, 0, 0, 0, 0, 2, 0x47, 1] = .command (.diPush [0x47, 1]) [] := by decide

theorem test_decode_diPop : decode [0x41, 0, 0, 0, 0, 0, 0, 0] = .command .diPop [] := by decide

theorem test_decode_dsCfg : decode [0x50, 0x08, 0, 0, 0, 0, 0, 0] = .command (.dsCfg 8) [] := by decide

theorem test_decode_dsApply : decode [0x51, 0, 0, 0, 0, 0, 0, 1, 0xB8] = .command (.dsApply [0xB8]) [] := by decide

/-- `LEN` most significant byte first: 256 payload bytes, of which 255 have arrived, then 256. -/
theorem test_decode_len_order :
    decode ([0x40, 0, 0, 0, 0, 0, 1, 0] ++ List.replicate 255 7) = .incomplete ∧
    decode ([0x40, 0, 0, 0, 0, 0, 1, 0] ++ List.replicate 256 7) = .command (.diPush (List.replicate 256 7)) [] := by
  decide +kernel

/-- V-EN-5 to V-EN-12, V-EN-18, V-EN-19: the errors of the decoder and their order. -/
theorem test_decode_errors :
    decode [0xFF, 0, 0, 0, 0, 0, 0, 2, 0xAA, 0xBB] = .rejected .illegal [] ∧
    decode [0x31, 0, 0, 0, 0, 0, 0, 1, 0x55] = .rejected .len [] ∧
    decode [0x31, 1, 0, 0, 0, 0, 0, 1, 0x55] = .rejected .illegal [] ∧
    decode [0x10, 8, 0, 0, 0, 0, 0, 2, 0, 0] = .rejected .illegal [] ∧
    decode [0x10, 7, 0, 0, 0, 0, 0, 3, 1, 2, 3] = .rejected .len [] ∧
    decode [0x01, 0x10, 0, 0, 0, 0, 0, 0] = .rejected .illegal [] ∧
    decode [0x50, 0, 0, 0, 0, 0, 0, 0] = .rejected .illegal [] ∧
    decode [0, 0, 0, 0, 0, 0, 0, 0] = .rejected .illegal [] ∧
    decode [0x50, 0, 0, 0, 0, 0, 0, 1, 0xAA] = .rejected .illegal [] := by decide

/-- Header words as spec/opcode_table.json numbers their bits, and a payload above them. -/
theorem test_decode_table_words :
    decodeTableWord 64 0x010F000000000000 = some (.reset 0x0F) ∧ decodeTableWord 64 0x3500000000000000 = some .fsStatus ∧
    decodeTableWord 64 0x5008000000000000 = some (.dsCfg 8) ∧ decodeTableWord 64 0x5000000000000000 = none ∧
    decodeTableWord 80 0xBBAA4000000000000002 = some (.diPush [0xAA, 0xBB]) := by decide

/-- From the reset state of the reference instance the placed word is the next command, whatever the open parameters are. -/
theorem test_withFetchWord :
    responses (step (State.reset.withFetchWord 64 0x4100000000000000)) = [⟨.none, []⟩] := by decide

/-! ### One step each -/

/-- V-RS-4 and 30_encoding.md R104. -/
theorem test_reset_mask_zero : exec (.reset 0) searched = .next (searched.respond .ok []) := by rfl

/-- V-RS-2: only the deinterleaver restarts. -/
theorem test_reset_di :
    exec (.reset 0b0100) (queued.setCr searched.cr) = .next ((s0.setCr searched.cr).respond .ok []) := by rfl

/-- The table of 95_test_vectors.md 2.2, the rows with the saturated byte and the worked row. -/
theorem test_rot_table :
    (List.finRange 8).map (fun h => rotSymbol h 200 50) =
      [(200, 50), (204, 200), (54, 204), (50, 54), (200, 204), (50, 200), (54, 50), (204, 54)] ∧
    (List.finRange 8).map (fun h => rotSymbol h 255 0) =
      [(255, 0), (254, 255), (0, 254), (0, 0), (255, 254), (0, 255), (0, 0), (254, 0)] ∧
    (List.finRange 8).map (fun h => rotSymbol h 0 255) =
      [(0, 255), (0, 0), (254, 0), (255, 254), (0, 0), (255, 0), (254, 255), (0, 254)] ∧
    (List.finRange 8).map (fun h => rotSymbol h 128 126) =
      [(128, 126), (128, 128), (126, 128), (126, 126), (128, 128), (126, 128), (126, 126), (128, 126)] := by decide

/-- V-RO-1, and an odd payload. -/
theorem test_rot :
    responses (exec (.rot 1 [0xE0, 0x20, 0xE0, 0xE0]) s0) = [⟨.ok, [0xDE, 0xE0, 0x1E, 0xE0]⟩] ∧
    responses (exec (.rot 1 [0xE0]) s0) = [⟨.error .len, []⟩] := by decide

/-- V-CR-8 (the word is stored at the next index, the results are withdrawn) and V-CR-7. -/
theorem test_crAddw :
    after State.cr (exec (.crAddw wB8) searched) =
      some ({ searched.cr with word := [cellsAt 0 w47, cellsAt 0 wB8], nw := 2, valid := false }, some ⟨.ok, [1]⟩) ∧
    responses (exec (.crAddw wB8) loaded) = [⟨.error .full, []⟩] ∧
    responses (exec (.crAddw [0]) loaded) = [⟨.error .len, []⟩] := by decide +kernel

/-- V-CR-1: the tie goes to the lower index. -/
theorem test_crRun :
    after State.cr (exec (.crRun input23) loaded) =
      some ({ loaded.cr with bestOff := [2, 14], bestScore := [8, 8], bestWord := 0, valid := true }, some ⟨.ok,
        [0, 0, 0, 0, 2, 0, 0, 0, 8]⟩) := by decide +kernel

/-- V-EN-13, V-CR-5. -/
theorem test_crRun_errors :
    responses (exec (.crRun []) s0) = [⟨.error .emptyRef, []⟩] ∧
    responses (exec (.crRun [0, 0, 0, 0, 0, 0, 0]) loaded) = [⟨.error .shortBuf, []⟩] := by decide

/-- V-CR-1, last sentence; V-EN-17. -/
theorem test_crGet :
    responses (exec (.crGet 0) searched) = [⟨.ok, [0, 0, 0, 2, 0, 0, 0, 8]⟩] ∧
    responses (exec (.crGet 1) searched) = [⟨.none, []⟩] ∧ responses (exec (.crGet 0) s0) = [⟨.none, []⟩] := by decide

/-- 41_correlator.md R141. -/
theorem test_crClr :
    exec .crClr searched = .next ((searched.setCr { searched.cr with nw := 0, valid := false }).respond .ok []) := by rfl

/-- V-FS-1 with a buffer of 4: as many bytes as fit. -/
theorem test_fsPut :
    after State.fs (exec (.fsPut [1, 2, 3, 4, 5]) s0) =
      some ({ s0.fs with buf := cellsAt 0 [1, 2, 3, 4], pos := 4, pend := [5] }, some ⟨.ok, []⟩) := by decide +kernel

/-- Program P1 steps 3 and 5 with a buffer of 4: one byte short, then full; 127 is below 128 and weak. -/
theorem test_fsUpdate :
    responses (exec .fsUpdate (s0.setFs { fsReset with pend := [127, 127, 127] })) = [⟨.none, []⟩] ∧
    after (fun t => (t.fs.pos, t.fs.err, t.fs.dec.toList.map (fun m => memByte m 0)))
        (exec .fsUpdate (s0.setFs { fsReset with pend := [127, 127, 127, 127] })) =
      some ((4, Vector.replicate 8 4, List.replicate 8 (some 0x00)), some ⟨.ok, []⟩) := by decide +kernel

/-- Program P2 step 13 in small: the lock is lost, the search goes on over the shifted buffer `[2, 3, 4, 5]` under all 8 hypotheses,
until nothing is pending. The first decoded bytes are the bits of 40_rotator.md R131 on that buffer. -/
theorem test_fsFindsync_loss :
    after (fun t => (t.fs.locked, bytesOf t.fs.buf, t.fs.dec.toList.map (fun m => memByte m 0))) (exec .fsFindsync lockedState) =
      some ((false, [3, 4, 5], [some 0x00, some 0xA0, some 0xF0, some 0x50, some 0x50, some 0x00, some 0xA0, some 0xF0]),
        some ⟨.none, [0x80]⟩) := by
  decide +kernel

/-- 42_framesync.md R190, 42_framesync.md R192 with `GUARD_CORR = 2` (V-FS-3), 30_encoding.md R115. -/
theorem test_fsGetframe :
    after State.fs (exec .fsGetframe lockedState) =
      some ({ lockedFs with ready := false }, some ⟨.ok, List.replicate 817 0⟩) := by decide +kernel

theorem test_fsGetber :
    responses (exec .fsGetber (s0.setFs { lockedFs with err := Vector.replicate 8 3 })) = [⟨.ok, [0, 0, 0, 1]⟩] ∧
    responses (exec .fsGetber (s0.setFs { lockedFs with err := Vector.replicate 8 0xFFFFFFFF })) = [⟨.ok, [0xFF, 0xFF, 0xFF, 0xFD]⟩] ∧
    responses (exec .fsGetber lockedState) = [⟨.ok, [0, 0, 0, 0]⟩] ∧
    responses (exec .fsGetber s0) = [⟨.ok, [0xFF, 0xFF, 0xFF, 0xFF]⟩] := by decide

/-- Program P2 step 8: flags 0x0F for locked, ready, active 3. -/
theorem test_fsStatus :
    responses (exec .fsStatus (s0.setFs { lockedFs with active := 3, pos := 16, err := #v[3, 3, 3, 1, 3, 3, 3, 3] })) =
      [⟨.ok, [0x0F, 0, 0, 0, 16, 0, 0, 0, 3, 0, 0, 0, 3, 0, 0, 0, 3, 0, 0, 0, 1, 0, 0, 0, 3, 0, 0, 0, 3, 0, 0, 0, 3, 0, 0, 0, 3]⟩] := by
  decide

/-- V-DI-3: the first emitted 0x47 starts the frame. -/
theorem test_diPush_sync :
    after State.di (exec (.diPush [0x01, 0x02, 0x47, 0x03, 0x04, 0x05]) s0) =
      some ({ s0.di with
        fifo := [[0, 0, 1, 3], [2, 4], []], synced := true, frame := cellsAt 0 [0x47, 0, 0, 5], fill := 4 }, some ⟨.ok, []⟩) := by
  decide +kernel

/-- V-DI-1. -/
theorem test_diPush_delay :
    after State.di (exec (.diPush ((List.range 30).map (fun n => BitVec.ofNat 8 (n + 1)))) s0) =
      some ({ s0.di with fifo := [[19, 22, 25, 28], [26, 29], []] }, some ⟨.ok, []⟩) := by decide +kernel

theorem test_diPop :
    after State.di (exec .diPop queued) = some ({ queued.di with outq := [] }, some ⟨.ok, List.replicate 204 0x47⟩) ∧
    responses (exec .diPop s0) = [⟨.none, []⟩] := by decide +kernel

/-- V-DS-2, for `g = 2`: the first entries, the packet boundary and the last entries of the table. -/
theorem test_keystream :
    (keystream tiny 2).take 12 = [0xFF, 0x03, 0xF6, 0x08, 0x34, 0x30, 0xB8, 0xA3, 0x93, 0xC9, 0x68, 0xB7] ∧
    ((keystream tiny 2).drop 184).take 8 = [0x21, 0xB4, 0xC5, 0xBA, 0x00, 0x9F, 0x4D, 0x43] ∧
    (keystream tiny 2).drop 374 = [0xBD, 0x85] := by decide +kernel

/-- Program P4 step 2, and V-EN-12 as an instruction. -/
theorem test_dsCfg :
    after (fun t => (t.ds.group, (bytesOf t.ds.ks).take 4, (bytesOf t.ds.ks).drop 184)) (exec (.dsCfg 1) s0) =
      some ((1, [0xFF, 0x03, 0xF6, 0x08], [0x21, 0xB4, 0xC5, 0xBA]), some ⟨.ok, []⟩) ∧
    responses (exec (.dsCfg 0) s0) = [⟨.error .illegal, []⟩] := by decide +kernel

/-- Program P4 steps 3 and 5: the first bytes of the answer, and a wrong length. -/
theorem test_dsApply :
    ((responses (exec (.dsApply (0xB8 :: List.replicate 187 0)) (s0.setDs (dsOf tiny 1)))).map (fun r => r.payload.take 8)) =
      [[0x47, 0x03, 0xF6, 0x08, 0x34, 0x30, 0xB8, 0xA3]] ∧
    responses (exec (.dsApply (List.replicate 187 0)) (s0.setDs (dsOf tiny 1))) = [⟨.error .len, []⟩] := by decide +kernel

/-! ### Witnesses: the hypotheses of the statements are met -/

theorem inv_s0 : Inv s0 := ⟨fsInv_fsReset _, diInv_diReset _, dsInv_dsReset _, crInv_crReset _⟩

theorem inv_sent (port : List Byte) : Inv (sent port) := inv_s0.of_units rfl rfl rfl rfl rfl

theorem crInv_loaded : CrInv loaded.par loaded.cr :=
  ⟨by decide, rfl, by decide, by decide, rfl, rfl, by decide, by decide⟩

theorem crInv_searched : CrInv searched.par searched.cr :=
  ⟨by decide, rfl, by decide, by decide, rfl, rfl, by decide, by decide⟩

/-- A soft-bit buffer and pending soft bits, unlocked. -/
def unlockedFs (buf pend : List Byte) : Fs :=
  { fsReset with buf := cellsAt 0 buf, pos := buf.length, pend := pend }

theorem fsReset_dec : ∀ x : Hyp, fsReset.dec[x] = [] := by decide

theorem fsCore_unlocked {p : Params} {buf pend : List Byte} (h : buf.length ≤ p.C) : FsCore p (unlockedFs buf pend) :=
  ⟨holdsBelow_cellsAt _, h, (fun e => by cases e), (fun e => by cases e),
    fun x => .inl (fsReset_dec x)⟩

/-- The same, locked on hypothesis 0 with a ready frame of zeros. -/
def lockedOn (p : Params) (buf pend : List Byte) : Fs :=
  { unlockedFs buf pend with dec := fsReset.dec.set 0 (cellsAt 0 (List.replicate p.F 0)), locked := true, ready := true }

theorem holds_zeros (n : Nat) : holdsBelow (cellsAt 0 (List.replicate n 0)) n := by
  have := holdsBelow_cellsAt (List.replicate n 0)
  rwa [List.length_replicate] at this

theorem fsCore_locked {p : Params} {buf pend : List Byte} (h : buf.length ≤ p.C) : FsCore p (lockedOn p buf pend) := by
  refine ⟨holdsBelow_cellsAt _, h, fun _ => rfl, fun _ => holds_zeros p.F, fun x => ?_⟩
  by_cases hx : x = 0
  · subst hx
    exact .inr (holds_zeros p.F)
  · refine .inl ?_
    show (fsReset.dec.set 0 _)[x.val] = []
    have hne : 0 ≠ x.val := fun e => hx (Fin.ext e.symm)
    rw [Vector.getElem_set_ne _ _ hne]
    exact fsReset_dec x

/-- The soft bits of bytes, most significant bit first, 1 as 0xE0 and 0 as 0x20 (95_test_vectors.md program P2). -/
def softOf (bs : List Byte) : List Byte :=
  bs.flatMap (fun b => (List.range 8).map (fun k => if b.getLsbD (7 - k) then 0xE0 else 0x20))

/-- A frame of 817 bytes with its five sync bytes, and zeros elsewhere. -/
def syncFrame : List Byte :=
  (List.range 817).map (fun j => if j = 0 then 0xB8 else if j % 204 = 0 then 0x47 else 0)

/-- All but the last soft bit of a full buffer of configuration T1: that frame and guard soft bits. -/
def goodBody : List Byte :=
  softOf syncFrame ++ List.replicate 15 0x20

def goodBuffer : List Byte := goodBody ++ [0x20]

/-- One stray soft bit in front: the first window does not pass under hypothesis 0, the second does. -/
def strayBuffer : List Byte := 0x20 :: goodBody

theorem length_softOf (bs : List Byte) : (softOf bs).length = 8 * bs.length := by
  induction bs with
  | nil => rfl
  | cons b bs ih =>
    rw [softOf, List.flatMap_cons, List.length_append]
    change _ + (softOf bs).length = _
    rw [ih, List.length_cons, List.length_map, List.length_range]
    omega

theorem length_goodBody : goodBody.length = 6551 := by
  rw [goodBody, List.length_append, length_softOf, syncFrame, List.length_map, List.length_range, List.length_replicate]

theorem length_goodBuffer : goodBuffer.length = 6552 := by rw [goodBuffer, List.length_append, length_goodBody]; rfl

theorem length_strayBuffer : strayBuffer.length = 6552 := by rw [strayBuffer, List.length_cons, length_goodBody]

def big : State := State.resetOf t1

def bigState (f : Fs) : State := big.setFs f

theorem good_passes : passes t1 goodBuffer 0 := by unfold passes; decide +kernel

theorem stray_fails : ¬ passes t1 strayBuffer 0 := by unfold passes; decide +kernel

theorem onPort_intro (s : State) (h : Header) (payload rest : List Byte) (hp : s.rstPin = false)
    (hl : payload.length = h.len.toNat) : OnPort { s with cmdIn := commandBytes h payload ++ rest } h payload rest :=
  ⟨hp, hl, rfl⟩

theorem witness_DecodeOfEncode :
    (Instr.reset 0x0F).wellFormed = true ∧ (Instr.rot 7 [0xFF, 0]).wellFormed = true ∧ (Instr.crGet 0xFF).wellFormed = true ∧
    (Instr.fsPut []).wellFormed = true ∧ (Instr.dsCfg 0xFF).wellFormed = true := by decide

theorem witness_EncodeOfDecode :
    decode [0x50, 0x01, 0, 0, 0, 0, 0, 0, 0x77] = .command (.dsCfg 1) [0x77] := by decide

theorem witness_MaskAndMatchSelectTheRow :
    ([] : List Byte).length = (⟨0x50, 1, 0, 0⟩ : Header).len.toNat ∧
    headerWord ⟨0x50, 1, 0, 0⟩ &&& (tableRow .dsCfg).2 = (tableRow .dsCfg).1 ∧
    headerWord ⟨0x50, 1, 1, 0⟩ &&& (tableRow .dsCfg).2 ≠ (tableRow .dsCfg).1 := by decide

/-- Each of the three kinds of illegal header, at the ends of the ranges of 30_encoding.md R97. -/
theorem witness_IllegalCommandsAreConsumedAndAnswered :
    (OnPort (sent (commandBytes ⟨0x02, 0, 0, 1⟩ [7] ++ [9])) ⟨0x02, 0, 0, 1⟩ [7] [9] ∧ illegalOp 0x02 = true ∧
      illegalOp 0x52 = true ∧ illegalOp 0xFF = true ∧ illegalOp 0x51 = false) ∧
    (OnPort (sent (commandBytes ⟨0x31, 0, 1, 0⟩ [] ++ [])) ⟨0x31, 0, 1, 0⟩ [] [] ∧ (1 : BitVec 16) ≠ 0) ∧
    (OnPort (sent (commandBytes ⟨0x10, 8, 0, 0⟩ [] ++ [])) ⟨0x10, 8, 0, 0⟩ [] [] ∧ reservedArg 0x10 8 = true ∧
      reservedArg 0x10 7 = false ∧ reservedArg 0x01 16 = true ∧ reservedArg 0x01 15 = false) :=
  ⟨⟨onPort_intro s0 _ _ _ rfl rfl, by decide⟩, ⟨onPort_intro s0 _ _ _ rfl rfl, by decide⟩,
    ⟨onPort_intro s0 _ _ _ rfl rfl, by decide⟩⟩

/-- Every error of 60_exceptions.md R301, `CR.ADDW` on a full set with a wrong and with the right length (V-EN-20), and a command
without an error. -/
theorem witness_ErrorsAreTheFirstOfTheTable :
    (∃ s h payload rest, OnPort s h payload rest ∧ firstError s h = some .illegal) ∧
    (∃ s h payload rest, OnPort s h payload rest ∧ firstError s h = some .emptyRef) ∧
    (∃ s h payload rest, OnPort s h payload rest ∧ firstError s h = some .shortBuf) ∧
    (∃ s h payload rest, OnPort s h payload rest ∧ s.cr.nw = s.par.rMax ∧ firstError s h = some .len) ∧
    (∃ s h payload rest, OnPort s h payload rest ∧ firstError s h = some .full) ∧
    (∃ s h payload rest, OnPort s h payload rest ∧ firstError s h = none ∧ Inv s) :=
  ⟨⟨_, _, _, _, onPort_intro s0 ⟨0x50, 0, 0, 1⟩ [7] [] rfl rfl, by decide⟩,
    ⟨_, _, _, _, onPort_intro s0 ⟨0x22, 0, 0, 0⟩ [] [] rfl rfl, by decide⟩,
    ⟨_, _, _, _, onPort_intro loaded ⟨0x22, 0, 0, 0⟩ [] [] rfl rfl, by decide⟩,
    ⟨_, _, _, _, onPort_intro loaded ⟨0x21, 0, 0, 1⟩ [7] [] rfl rfl, rfl, by decide⟩,
    ⟨_, _, _, _, onPort_intro loaded ⟨0x21, 0, 0, 8⟩ w47 [] rfl rfl, by decide⟩,
    ⟨_, _, _, _, onPort_intro s0 ⟨0x21, 0, 0, 8⟩ w47 [] rfl rfl, by decide, inv_sent _⟩⟩

theorem witness_EveryCommandIsAnsweredOnce :
    ∃ s h payload rest i, OnPort s h payload rest ∧ Inv s ∧ decode s.cmdIn = .command i rest :=
  ⟨_, _, _, _, .crAddw w47, onPort_intro s0 ⟨0x21, 0, 0, 8⟩ w47 [1] rfl rfl, inv_sent _, by decide⟩

theorem witness_StatusCodes :
    ∃ t, step (sent [0xFF, 0, 0, 0, 0, 0, 0, 0]) = .next t ∧ t.rspOut = (sent []).rspOut ++ [⟨.error .illegal, []⟩] :=
  ⟨_, rfl, rfl⟩

theorem witness_StepRunsTheDecodedCommand :
    (sent [0x41, 0, 0, 0, 0, 0, 0, 0, 0x35]).rstPin = false ∧
    decode (sent [0x41, 0, 0, 0, 0, 0, 0, 0, 0x35]).cmdIn = .command .diPop [0x35] := by decide

/-- Seven header bytes; a whole header one payload byte short; a whole command. -/
theorem witness_IncompleteCommandWaits :
    ((sent [0x41, 0, 0, 0, 0, 0, 0]).rstPin = false ∧ (sent [0x41, 0, 0, 0, 0, 0, 0]).cmdIn.length < 8) ∧
    ((sent (commandBytes ⟨0x30, 0, 0, 2⟩ [1])).cmdIn = commandBytes ⟨0x30, 0, 0, 2⟩ [1] ∧ ([1] : List Byte).length < 2) ∧
    (∃ s h payload rest, OnPort s h payload rest ∧ Inv s) :=
  ⟨by decide, by decide, ⟨_, _, _, _, onPort_intro s0 ⟨0x30, 0, 0, 2⟩ [1, 2] [] rfl rfl, inv_sent _⟩⟩

theorem witness_ResetPinRestartsTheBlock : ({ lockedState with rstPin := true } : State).rstPin = true := rfl

theorem witness_ResetValues :
    (∃ t, ({ lockedState with rstPin := true } : State).rstPin = true ∧ step { lockedState with rstPin := true } = .next t) ∧
    (∃ t, exec (.reset 0x0F) lockedState = .next t) ∧
    (∀ k : Fin 4, (0x0F : BitVec 4).getLsbD k.val = true) :=
  ⟨⟨_, rfl, rfl⟩, ⟨_, rfl⟩, by decide⟩

theorem witness_StepKeepsInvariant : ∃ s t, Inv s ∧ step s = .next t ∧ t.rspOut ≠ s.rspOut :=
  ⟨sent [0x41, 0, 0, 0, 0, 0, 0, 0], _, inv_sent _, rfl, by decide⟩

theorem witness_EveryCommandAnswers : Inv s0 := inv_s0

theorem witness_RunsNeverStop : Inv (sent [0x41, 0, 0, 0, 0, 0, 0, 0]) := inv_sent _

theorem canonical_s0 : Canonical s0 :=
  ⟨List.Pairwise.nil, (fun h => by rw [show s0.fs.dec[h] = [] from fsReset_dec h]; exact List.Pairwise.nil), List.Pairwise.nil,
    memWf_cellsAt _ _, (by decide)⟩

theorem witness_MemoryStaysCanonical : ∃ s t, Canonical s ∧ step s = .next t :=
  ⟨s0, s0, canonical_s0, rfl⟩

theorem witness_ParametersNeverChange : ∃ t, step (sent [0x01, 0x0F, 0, 0, 0, 0, 0, 0]) = .next t := ⟨_, rfl⟩

theorem witness_UnitIsolation :
    (∃ t, exec .diPop s0 = .next t) ∧ unitNumber .diPop = 4 ∧ unitNumber (.reset 0) = 0 ∧ unitNumber (.rot 0 []) = 1 ∧
    unitNumber .crClr = 2 ∧ unitNumber .fsStatus = 3 ∧ unitNumber (.dsApply []) = 5 :=
  ⟨⟨_, rfl⟩, by decide⟩

/-- Every flag changes in some step. -/
theorem witness_FlagsAreWrittenOnlyByTheirCommands :
    (∃ t, exec (.reset 0x0F) (lockedState.setFs { lockedFs with active := 3 }) = .next t ∧ t.fs.locked ≠ lockedState.fs.locked ∧
      t.fs.active ≠ 3 ∧ t.fs.ready ≠ lockedState.fs.ready) ∧
    (∃ t, exec (.diPush [0, 0, 0x47]) s0 = .next t ∧ t.di.synced ≠ s0.di.synced) ∧
    (∃ t, exec (.reset 0x04) queued = .next t ∧ queued.di.synced = true ∧ t.di.synced = false) ∧
    (∃ t, exec (.crRun input23) loaded = .next t ∧ t.cr.valid = true ∧ loaded.cr.valid = false) :=
  ⟨⟨_, rfl, by decide, by decide, by decide⟩, ⟨_, rfl, by decide⟩, ⟨_, rfl, rfl, rfl⟩, ⟨_, rfl, rfl, rfl⟩⟩

theorem witness_PastResponsesAreNotRead : ∃ t, step (sent [0x41, 0, 0, 0, 0, 0, 0, 0]) = .next t := ⟨_, rfl⟩

theorem witness_ReadsChangeNothing :
    (∃ t, exec .fsGetber s0 = .next t) ∧ (∃ t, exec .fsStatus s0 = .next t) ∧ (∃ t, exec (.crGet 0) searched = .next t) ∧
    (∃ t, exec (.rot 1 [1, 2]) s0 = .next t) ∧ (∃ t, exec (.dsApply []) s0 = .next t) :=
  ⟨⟨_, rfl⟩, ⟨_, rfl⟩, ⟨_, rfl⟩, ⟨_, rfl⟩, ⟨_, rfl⟩⟩

theorem witness_EmptyCommandsChangeNothing :
    (FsCore tiny (unlockedFs [1] []) ∧ (unlockedFs [1] []).pend = []) ∧
    (FsCore tiny (unlockedFs [1, 2, 3, 4] [5]) ∧ (unlockedFs [1, 2, 3, 4] [5]).pos = tiny.C) :=
  ⟨⟨fsCore_unlocked (by decide), rfl⟩, ⟨fsCore_unlocked (by decide), rfl⟩⟩

theorem witness_EveryCommandIsDefinedOnReset : (List.replicate 1504 (0 : Byte)).length = 188 * 8 := List.length_replicate

theorem witness_RotationTable : (254 : Byte) ≠ 255 ∧ (0 : Byte) ≠ 255 := by decide

theorem witness_RotationsFormTheSquareGroup : ((0 : Hyp) ≠ 1 ∧ (0 : Hyp) ≠ 3) ∧ (254 : Byte) ≠ 255 := by decide

theorem witness_RotResult :
    ([7] : List Byte).length % 2 = 1 ∧ ([200, 50] : List Byte).length % 2 = 0 ∧ 2 * 0 + 1 < ([200, 50] : List Byte).length := by
  decide

/-- The last candidate offset of the input of V-CR-1. -/
theorem witness_ScoreCountsMatches : w47.length = tiny.W ∧ 15 + tiny.W ≤ input23.length := by decide

theorem witness_ComplementedWordScores :
    w47.length = tiny.W ∧ 15 + tiny.W ≤ input23.length ∧ ∀ e ∈ w47, e = 0 ∨ e = 255 := by decide

/-- A wrong length; a full set; the last free entry. -/
theorem witness_CrAddwResult :
    (CrInv loaded.par loaded.cr ∧ ([7] : List Byte).length ≠ loaded.par.W) ∧
    (w47.length = loaded.par.W ∧ loaded.cr.nw = loaded.par.rMax) ∧
    (CrInv searched.par searched.cr ∧ wB8.length = searched.par.W ∧ searched.cr.nw < searched.par.rMax ∧ searched.cr.nw < 256) :=
  ⟨⟨crInv_loaded, by decide⟩, by decide, ⟨crInv_searched, by decide⟩⟩

/-- No word; an input one byte short; an input of exactly one word. -/
theorem witness_CrRunFindsTheBest :
    (CrInv s0.par s0.cr ∧ s0.cr.nw = 0) ∧
    (CrInv loaded.par loaded.cr ∧ loaded.cr.nw ≠ 0 ∧ ([0, 0, 0, 0, 0, 0, 0] : List Byte).length < loaded.par.W) ∧
    (loaded.par.W ≤ w47.length ∧ w47.length < 2 ^ 32) :=
  ⟨⟨crInv_crReset _, rfl⟩, ⟨crInv_loaded, by decide⟩, by decide⟩

/-- The last loaded word; the first that is not; no results. -/
theorem witness_CrGetResult :
    (CrInv searched.par searched.cr ∧ searched.cr.valid = true ∧ (0 : Byte).toNat < searched.cr.nw) ∧
    searched.cr.nw ≤ (1 : Byte).toNat ∧ (CrInv s0.par s0.cr ∧ s0.cr.valid = false) :=
  ⟨⟨crInv_searched, by decide⟩, by decide, ⟨crInv_crReset _, rfl⟩⟩

/-- Room for one more soft bit, and none. -/
theorem witness_FsPutResult :
    (min ((unlockedFs [1, 2, 3] []).pend ++ [9, 8]).length (tiny.C - (unlockedFs [1, 2, 3] []).pos) = 1 ∧
      (unlockedFs [1, 2, 3] []).pos ≤ tiny.C) ∧
    (memWf (unlockedFs [1, 2, 3, 4] []).buf ∧
      min ((unlockedFs [1, 2, 3, 4] []).pend ++ [9]).length (tiny.C - (unlockedFs [1, 2, 3, 4] []).pos) = 0) :=
  ⟨by decide, memWf_cellsAt _ _, by decide⟩

theorem witness_FsPutSplits : FsCore tiny (unlockedFs [1, 2, 3] []) := fsCore_unlocked (by decide)

/-- One soft bit short of full, and exactly full; locked and unlocked. -/
theorem witness_FsUpdateResult :
    (FsCore tiny (unlockedFs [1, 2] [3]) ∧ (stream (unlockedFs [1, 2] [3])).length < tiny.C) ∧
    (FsCore tiny (unlockedFs [1, 2] [3, 4]) ∧ tiny.C ≤ (stream (unlockedFs [1, 2] [3, 4])).length) ∧
    (FsCore tiny (lockedOn tiny [1, 2] [3, 4]) ∧ tiny.C ≤ (stream (lockedOn tiny [1, 2] [3, 4])).length) :=
  ⟨⟨fsCore_unlocked (by decide), by decide⟩, ⟨fsCore_unlocked (by decide), by decide⟩, ⟨fsCore_locked (by decide), by decide⟩⟩

theorem witness_LockedLaneEqualsUnlockedLane :
    FsCore tiny (lockedOn tiny [1, 2] [3, 4]) ∧ (lockedOn tiny [1, 2] [3, 4]).locked = true ∧
      tiny.C ≤ (stream (lockedOn tiny [1, 2] [3, 4])).length :=
  ⟨fsCore_locked (by decide), rfl, by decide⟩

theorem witness_SyncTestCountsWrongBits :
    holdsBytes (cellsAt 0 (List.replicate 817 0)) (List.replicate 817 0) ∧ 817 ≤ (List.replicate 817 (0 : Byte)).length :=
  ⟨⟨holdsBelow_cellsAt _, bytesOf_cellsAt _ _⟩, by rw [List.length_replicate]⟩

theorem witness_FindSyncWithoutData :
    FsCore tiny (lockedOn tiny [1, 2] [3]) ∧ (stream (lockedOn tiny [1, 2] [3])).length < tiny.C :=
  ⟨fsCore_locked (by decide), by decide⟩

theorem stream_unlockedFs (buf pend : List Byte) : stream (unlockedFs buf pend) = buf ++ pend := by
  show bytesOf (cellsAt 0 buf) ++ pend = buf ++ pend
  rw [bytesOf, bytesOf_cellsAt]

theorem stream_lockedOn (p : Params) (buf pend : List Byte) : stream (lockedOn p buf pend) = buf ++ pend :=
  stream_unlockedFs buf pend

theorem window_whole {soft rest : List Byte} (h : soft.length = t1.C) : window t1 (soft ++ rest) 0 = soft := by
  rw [window, List.drop_zero, ← h, List.take_left']
  rfl

/-- Unlocked, sync on the first window. -/
theorem witness_FindSyncLocks_first :
    ∃ (s : State) (k : Nat) (w : Hyp), s.par = t1 ∧ FsCore s.par s.fs ∧ k + s.par.C ≤ (stream s.fs).length ∧
      (∀ j, j < k → ∀ h, tested s.fs j h → ¬ passes s.par (window s.par (stream s.fs) j) h) ∧
      tested s.fs k w ∧ passes s.par (window s.par (stream s.fs) k) w ∧
      (∀ h, h < w → tested s.fs k h → ¬ passes s.par (window s.par (stream s.fs) k) h) := by
  refine ⟨bigState (unlockedFs goodBuffer []), 0, 0, rfl, fsCore_unlocked (Nat.le_of_eq length_goodBuffer), ?_,
    (fun j h => absurd h (Nat.not_lt_zero j)), (fun _ h => by cases h), ?_, (fun h hw => absurd hw (Fin.not_lt_zero h))⟩
  · show 0 + 6552 ≤ (stream (unlockedFs goodBuffer [])).length
    rw [stream_unlockedFs, List.length_append, length_goodBuffer]
    decide
  · show passes t1 (window t1 (stream (unlockedFs goodBuffer [])) 0) 0
    rw [stream_unlockedFs, window_whole length_goodBuffer]
    exact good_passes

/-- Locked on 0, the lock lost on the first window, sync again on the second. -/
theorem witness_FindSyncLocksOnTheFirstPassingWindow :
    ∃ (s : State) (k : Nat) (w : Hyp), k = 1 ∧ s.fs.locked = true ∧ FsCore s.par s.fs ∧ k + s.par.C ≤ (stream s.fs).length ∧
      (∀ j, j < k → ∀ h, tested s.fs j h → ¬ passes s.par (window s.par (stream s.fs) j) h) ∧
      tested s.fs k w ∧ passes s.par (window s.par (stream s.fs) k) w ∧
      (∀ h, h < w → tested s.fs k h → ¬ passes s.par (window s.par (stream s.fs) k) h) := by
  have hs := stream_lockedOn t1 strayBuffer [0x20]
  refine ⟨bigState (lockedOn t1 strayBuffer [0x20]), 1, 0, rfl, rfl, fsCore_locked (Nat.le_of_eq length_strayBuffer), ?_, ?_,
    (fun h => by cases h), ?_, (fun h hw => absurd hw (Fin.not_lt_zero h))⟩
  · show 1 + 6552 ≤ (stream (lockedOn t1 strayBuffer [0x20])).length
    rw [hs, List.length_append, length_strayBuffer]
    decide
  · intro j hj h ht
    obtain rfl : j = 0 := by omega
    obtain rfl : h = 0 := ht rfl rfl
    show ¬ passes t1 (window t1 (stream (lockedOn t1 strayBuffer [0x20])) 0) 0
    rw [hs, window_whole length_strayBuffer]
    exact stray_fails
  · show passes t1 (window t1 (stream (lockedOn t1 strayBuffer [0x20])) 1) 0
    have hw : window t1 (strayBuffer ++ [0x20]) 1 = window t1 (goodBuffer ++ []) 0 := by
      simp only [window, strayBuffer, goodBuffer, List.cons_append, List.drop_succ_cons, List.drop_zero, List.append_nil]
    rw [hs, hw, window_whole length_goodBuffer]
    exact good_passes

/-- Locked on 0, one full buffer that does not pass. -/
theorem witness_FindSyncFindsNothing :
    ∃ s : State, FsCore s.par s.fs ∧ s.par.C ≤ (stream s.fs).length ∧
      (∀ j, j + s.par.C ≤ (stream s.fs).length → ∀ h, tested s.fs j h → ¬ passes s.par (window s.par (stream s.fs) j) h) := by
  refine ⟨s0.setFs (lockedOn tiny [1, 2] [3, 4]), fsCore_locked (by decide), by decide, fun j hj h ht => ?_⟩
  have hj' : j + 4 ≤ 4 := hj
  obtain rfl : j = 0 := by omega
  obtain rfl : h = 0 := ht rfl rfl
  unfold passes
  decide +kernel

/-- `FS.FINDSYNC` while locked on a buffer that passes. -/
theorem found_on_good :
    responses (exec .fsFindsync (bigState (lockedOn t1 goodBuffer []))) = [⟨.ok, [0]⟩] := by decide +kernel

theorem exists_next_of_responses {o : Host.Outcome State Fault Refusal} {r : Response} (h : responses o = [r]) :
    ∃ t, o = .next t ∧ t.rspOut = [] ++ [r] := by
  cases o with
  | next t => exact ⟨t, rfl, h⟩
  | fault f => cases h
  | refused f => cases h

theorem witness_HypothesisKeptBetweenLockAndLoss :
    ∃ (s t : State) (b : Byte) (st : Status), FsCore s.par s.fs ∧ s.fs.locked = true ∧ exec .fsFindsync s = .next t ∧
      t.rspOut = s.rspOut ++ [⟨st, [b]⟩] ∧ b.getLsbD 7 = false ∧ st = .ok := by
  obtain ⟨t, e, hr⟩ := exists_next_of_responses found_on_good
  exact ⟨bigState (lockedOn t1 goodBuffer []), t, 0, .ok, fsCore_locked (Nat.le_of_eq length_goodBuffer), rfl, e, hr, by decide, rfl⟩

theorem witness_FoundFrameIsReturned :
    ∃ (s t : State) (b : Byte), FsCore s.par s.fs ∧ exec .fsFindsync s = .next t ∧ t.rspOut = s.rspOut ++ [⟨.ok, [b]⟩] := by
  obtain ⟨t, e, hr⟩ := exists_next_of_responses found_on_good
  exact ⟨bigState (lockedOn t1 goodBuffer []), t, 0, fsCore_locked (Nat.le_of_eq length_goodBuffer), e, hr⟩

theorem witness_GetFrameTakesTheFrameOnce :
    (FsCore tiny (lockedOn tiny [] []) ∧ (lockedOn tiny [] []).locked = true ∧ (lockedOn tiny [] []).ready = true) ∧
    (s0.fs.locked = false ∨ s0.fs.ready = false) :=
  ⟨⟨fsCore_locked (by decide), rfl, rfl⟩, .inl rfl⟩

theorem witness_StatusResult : lockedState.fs.pos < 2 ^ 32 := by decide

theorem witness_UpdateReplacesReadyFrame :
    ∃ s : State, FsCore s.par s.fs ∧ s.fs.locked = true ∧ s.fs.ready = true ∧ s.par.C ≤ (stream s.fs).length ∧
      syncErrOf (frameOn s.par (window s.par (stream s.fs) 0) s.fs.active) < 5 := by
  have hs := stream_lockedOn t1 goodBuffer []
  refine ⟨bigState (lockedOn t1 goodBuffer []), fsCore_locked (Nat.le_of_eq length_goodBuffer), rfl, rfl, ?_, ?_⟩
  · show 6552 ≤ (stream (lockedOn t1 goodBuffer [])).length
    rw [hs, List.length_append, length_goodBuffer]
    exact Nat.le_add_right _ _
  · show syncErrOf (frameOn t1 (window t1 (stream (lockedOn t1 goodBuffer [])) 0) 0) < 5
    rw [hs, window_whole length_goodBuffer]
    exact Nat.lt_succ_of_le good_passes

theorem witness_NothingIsDropped :
    FsCore s0.par s0.fs ∧ (∃ t, exec (.fsPut [1]) s0 = .next t) ∧ (∃ t, exec .fsFindsync s0 = .next t) ∧
    (∃ t, exec (.diPush [1]) s0 = .next t) ∧ (∃ t, exec .diPop queued = .next t) :=
  ⟨(fsInv_fsReset _).toFsCore, ⟨_, rfl⟩, ⟨_, rfl⟩, ⟨_, rfl⟩, ⟨_, rfl⟩⟩

theorem diAtReset_s0 : DiAtReset s0.par s0.di where
  branches := rfl
  fifo := by decide
  comm := rfl
  synced := rfl
  fill := rfl
  outq := rfl
  frame := fun _ => rfl

theorem witness_DiPushEmitsAndCuts : DiInv queued.par queued.di ∧ DiInv s0.par s0.di :=
  ⟨⟨rfl, by decide, by decide, rfl, (fun h => by cases h), by decide +kernel⟩, diInv_diReset _⟩

/-- The third byte is the first sync byte emitted, as in V-DI-3; then `n` zeros. -/
def pushedFrame (n : Nat) : List Byte := [1, 2, 0x47] ++ List.replicate n 0

/-- A first sync byte at position 2 of 206 bytes, so that one frame is queued and has a byte 203, and of 205, so that none is; and
a payload without one. -/
theorem witness_DiPushFromReset :
    DiAtReset s0.par s0.di ∧
    (2 < (pushedFrame 203).length ∧ isSync (delayed s0.par (pushedFrame 203) 2) = true ∧
      (∀ j, j < 2 → isSync (delayed s0.par (pushedFrame 203) j) = false) ∧
      after (fun t => t.di.outq.length) (exec (.diPush (pushedFrame 203)) s0) = some (1, some ⟨.ok, []⟩)) ∧
    (isSync (delayed s0.par (pushedFrame 202) 2) = true ∧ ((pushedFrame 202).length - 2) / 204 = 0) ∧
    (∀ j, j < 3 → isSync (delayed s0.par [0x47, 2, 3] j) = false) :=
  ⟨diAtReset_s0, by decide +kernel, by decide +kernel, by decide⟩

/-- V-DI-2: the channel bytes of the source `47 10 11 .. 2C`; and a source of one frame and the 12 bytes of the delay, which gives
one frame, and one byte less, which gives none. -/
theorem witness_InterleaverRoundTrip :
    DiAtReset s0.par s0.di ∧
    (interleaved s0.par (0x47 :: (List.range 29).map (fun n => BitVec.ofNat 8 (0x10 + n)))).take 12 =
      [0x47, 0, 0, 0x12, 0, 0, 0x15, 0x10, 0, 0x18, 0x13, 0] ∧
    s0.par.M * s0.par.I * (s0.par.I - 1) = 12 ∧
    cuts (((0x47 :: List.replicate 215 9).take (216 - 12)).dropWhile (fun y => !isSync y)) = [0x47 :: List.replicate 203 9] ∧
    cuts (((0x47 :: List.replicate 214 9).take (215 - 12)).dropWhile (fun y => !isSync y)) = [] :=
  ⟨diAtReset_s0, by decide +kernel, by decide, by decide +kernel, by decide +kernel⟩

theorem witness_DiPopResult :
    s0.di.outq = [] ∧ queued.di.outq = List.replicate 204 0x47 :: [] := ⟨rfl, rfl⟩

theorem witness_KeystreamTable : 1 ≤ 2 ∧ (1 ≤ 1 ∧ 1 < 2) := by decide

theorem witness_DsCfgResult :
    (0 : Byte) = 0 ∧ ((8 : Byte) ≠ 0 ∧ (8 : Byte).toNat = s0.ds.group) ∧ ((255 : Byte) ≠ 0 ∧ (255 : Byte).toNat ≠ s0.ds.group) := by
  decide

/-- A group of the reset size, and one byte less (V-DS-6). -/
theorem witness_DsApplyResult :
    DsInv s0.par s0.ds ∧ (List.replicate 1504 (0 : Byte)).length = 188 * s0.ds.group ∧
    (List.replicate 1503 (0 : Byte)).length ≠ 188 * s0.ds.group :=
  ⟨dsInv_dsReset _, List.length_replicate, by rw [List.length_replicate]; decide⟩

theorem witness_DsApplyTwice : DsInv s0.par s0.ds ∧ (List.replicate 1504 (0 : Byte)).length = 188 * s0.ds.group :=
  ⟨dsInv_dsReset _, List.length_replicate⟩

end Sys2Proof.Tests
end

/-! The frame of a command: what `exec` can do to a state, said once for the sixteen commands, and the parameters from it. -/
section

namespace Sys2Proof.Machine

open Sys2Proof.Spec

/-- The changes to the units that a command of unit `n` (30_encoding.md R94) can make before it answers: `n` selects the one unit
replaced, and only a system command resets units. -/
inductive UnitUpdate (s : State) : Nat → State → Prop where
  | unchanged (n : Nat) : UnitUpdate s n s
  | reset (mask : BitVec 4) : UnitUpdate s 0 (resetUnits mask s)
  | correlator (c : Cr) : UnitUpdate s 2 (s.setCr c)
  | frameSync (f : Fs) : UnitUpdate s 3 (s.setFs f)
  | deinterleaver (d : Di) : UnitUpdate s 4 (s.setDi d)
  | descrambler (d : Ds) : UnitUpdate s 5 (s.setDs d)

theorem UnitUpdate.par_eq {s u : State} {n : Nat} (h : UnitUpdate s n u) : u.par = s.par := by
  cases h with
  | unchanged => rfl
  | reset mask => exact resetUnits_par mask s
  | correlator c => exact setCr_par s c
  | frameSync f => exact setFs_par s f
  | deinterleaver d => exact setDi_par s d
  | descrambler d => exact setDs_par s d

/-- If the outcome is a next state, it is `s` after a change of the unit `n`, with one response appended. -/
def AnswersOnce (s : State) (n : Nat) (o : Host.Outcome State Fault Refusal) : Prop :=
  ∀ t, o = .next t → ∃ u st pl, UnitUpdate s n u ∧ t = u.respond st pl

theorem UnitUpdate.answersOnce {s u : State} {n : Nat} (h : UnitUpdate s n u) (st : Status) (pl : List Byte) :
    AnswersOnce s n (.next (u.respond st pl)) :=
  fun _ ht => ⟨u, st, pl, h, (Host.Outcome.next.inj ht).symm⟩

theorem answersOnce_raiseError (s : State) (n : Nat) (e : ErrorCode) : AnswersOnce s n (.next (raiseError e s)) :=
  (UnitUpdate.unchanged n).answersOnce (.error e) []

theorem answersOnce_fault (s : State) (n : Nat) (e : Fault) : AnswersOnce s n (.fault e) :=
  fun _ ht => nomatch ht

theorem answersOnce_finish {α : Type} {s : State} {n : Nat} {k : α → State} (r : Except Fault α)
    (hk : ∀ a, AnswersOnce s n (.next (k a))) : AnswersOnce s n (finish r k) := by
  intro t ht
  obtain ⟨a, -, rfl⟩ := finish_eq_next ht
  exact hk a _ rfl

/-! ### The commands with branches -/

theorem execRot_answersOnce (x : Hyp) (pl : List Byte) (s : State) : AnswersOnce s 1 (execRot x pl s) := by
  unfold execRot
  split
  · exact answersOnce_raiseError s 1 .len
  · exact (UnitUpdate.unchanged 1).answersOnce _ _

theorem execCrAddw_answersOnce (pl : List Byte) (s : State) : AnswersOnce s 2 (execCrAddw pl s) := by
  unfold execCrAddw
  split
  · exact answersOnce_raiseError s 2 .len
  · split
    · exact answersOnce_raiseError s 2 .full
    · exact (UnitUpdate.correlator _).answersOnce _ _

theorem execCrRun_answersOnce (pl : List Byte) (s : State) : AnswersOnce s 2 (execCrRun pl s) := by
  unfold execCrRun
  split
  · exact answersOnce_raiseError s 2 .emptyRef
  · split
    · exact answersOnce_raiseError s 2 .shortBuf
    · exact answersOnce_finish _ fun _ => (UnitUpdate.correlator _).answersOnce _ _

theorem execCrGet_answersOnce (r : Byte) (s : State) : AnswersOnce s 2 (execCrGet r s) := by
  unfold execCrGet
  split
  · split
    · exact answersOnce_fault s 2 _
    · exact answersOnce_finish _ fun _ => (UnitUpdate.unchanged 2).answersOnce _ _
  · exact (UnitUpdate.unchanged 2).answersOnce _ _

theorem execFsUpdate_answersOnce (s : State) : AnswersOnce s 3 (execFsUpdate s) := by
  unfold execFsUpdate
  split
  · exact (UnitUpdate.frameSync _).answersOnce _ _
  · exact answersOnce_finish _ fun _ => (UnitUpdate.frameSync _).answersOnce _ _

theorem execFsGetframe_answersOnce (s : State) : AnswersOnce s 3 (execFsGetframe s) := by
  unfold execFsGetframe
  split
  · exact answersOnce_finish _ fun _ => (UnitUpdate.frameSync _).answersOnce _ _
  · exact (UnitUpdate.unchanged 3).answersOnce _ _

theorem execDiPop_answersOnce (s : State) : AnswersOnce s 4 (execDiPop s) := by
  unfold execDiPop
  split
  · exact (UnitUpdate.unchanged 4).answersOnce _ _
  · exact (UnitUpdate.deinterleaver _).answersOnce _ _

theorem execDsCfg_answersOnce (g : Byte) (s : State) : AnswersOnce s 5 (execDsCfg g s) := by
  unfold execDsCfg
  split
  · exact answersOnce_raiseError s 5 .illegal
  · split
    · exact (UnitUpdate.descrambler _).answersOnce _ _
    · exact (UnitUpdate.unchanged 5).answersOnce _ _

theorem execDsApply_answersOnce (pl : List Byte) (s : State) : AnswersOnce s 5 (execDsApply pl s) := by
  unfold execDsApply
  split
  · exact answersOnce_raiseError s 5 .len
  · exact answersOnce_finish _ fun _ => (UnitUpdate.unchanged 5).answersOnce _ _

/-! ### All commands, and a step -/

/-- The unit numbers of 30_encoding.md R95, by command. -/
theorem unitNumber_eq (i : Instr) : unitNumber i =
    match i with
    | .reset _ => 0
    | .rot _ _ => 1
    | .crClr | .crAddw _ | .crRun _ | .crGet _ => 2
    | .fsPut _ | .fsUpdate | .fsFindsync | .fsGetframe | .fsGetber | .fsStatus => 3
    | .diPush _ | .diPop => 4
    | .dsCfg _ | .dsApply _ => 5 := by
  cases i <;> simp [unitNumber, Instr.opcode, Opcode.byte]

/-- A command that ends in a next state has changed at most the unit that `OP[7:4]` selects and has answered once (30_encoding.md
R90, R94). -/
theorem exec_answersOnce (i : Instr) (s : State) : AnswersOnce s (unitNumber i) (exec i s) := by
  rw [unitNumber_eq]
  cases i with
  | reset mask => exact (UnitUpdate.reset mask).answersOnce _ _
  | rot x pl => exact execRot_answersOnce x pl s
  | crClr => exact (UnitUpdate.correlator _).answersOnce _ _
  | crAddw pl => exact execCrAddw_answersOnce pl s
  | crRun pl => exact execCrRun_answersOnce pl s
  | crGet r => exact execCrGet_answersOnce r s
  | fsPut pl => exact (UnitUpdate.frameSync _).answersOnce _ _
  | fsUpdate => exact execFsUpdate_answersOnce s
  | fsFindsync => exact answersOnce_finish _ fun _ => (UnitUpdate.frameSync _).answersOnce _ _
  | fsGetframe => exact execFsGetframe_answersOnce s
  | fsGetber => exact (UnitUpdate.unchanged 3).answersOnce _ _
  | fsStatus => exact (UnitUpdate.unchanged 3).answersOnce _ _
  | diPush pl => exact answersOnce_finish _ fun _ => (UnitUpdate.deinterleaver _).answersOnce _ _
  | diPop => exact execDiPop_answersOnce s
  | dsCfg g => exact execDsCfg_answersOnce g s
  | dsApply pl => exact execDsApply_answersOnce pl s

theorem exec_par {i : Instr} {s t : State} (h : exec i s = .next t) : t.par = s.par := by
  obtain ⟨u, st, pl, hu, rfl⟩ := exec_answersOnce i s t h
  exact (respond_par u st pl).trans hu.par_eq

theorem step_par {s t : State} (h : step s = .next t) : t.par = s.par := by
  obtain ⟨-, rfl⟩ | ⟨-, -, rfl⟩ | ⟨-, e, rest, -, rfl⟩ | ⟨-, i, rest, -, hx⟩ := step_cases h
  · exact resetByPin_par s
  · rfl
  · exact raiseError_par e { s with cmdIn := rest }
  · exact exec_par (s := { s with cmdIn := rest }) hx

/-- Settles O18: the reset pin, a rejected command and each of the sixteen meanings leave the parameters as they are. -/
theorem parametersNeverChange : Obligations.ParametersNeverChange :=
  fun _ _ h => step_par h

end Sys2Proof.Machine
end

/-! The invariant of the block: every command and every step keeps it, and the reset state meets it for all parameters. -/
section
namespace Sys2Proof.Machine
open Sys2Proof.Spec

/-! ### The invariant -/

theorem exec_inv (i : Instr) {s : State} (h : Inv s) : ∃ t, exec i s = .next t ∧ Inv t := by
  cases i with
  | reset mask => exact execReset_inv mask h
  | rot x pl => exact execRot_inv x pl h
  | crClr => exact execCrClr_inv h
  | crAddw pl => exact execCrAddw_inv pl h
  | crRun pl => exact execCrRun_inv pl h
  | crGet r => exact execCrGet_inv r h
  | fsPut pl => exact execFsPut_inv pl h
  | fsUpdate => exact execFsUpdate_inv h
  | fsFindsync => exact execFsFindsync_inv h
  | fsGetframe => exact execFsGetframe_inv h
  | fsGetber => exact execFsGetber_inv h
  | fsStatus => exact execFsStatus_inv h
  | diPush pl => exact execDiPush_inv pl h
  | diPop => exact execDiPop_inv h
  | dsCfg g => exact execDsCfg_inv g h
  | dsApply pl => exact execDsApply_inv pl h

/-- A command keeps the invariant of the block, whichever unit it runs on (10_state.md R29, R40). -/
theorem exec_keeps_inv {i : Instr} {s t : State} (h : Inv s) (he : exec i s = .next t) : Inv t := by
  obtain ⟨u, hu, hi⟩ := exec_inv i h
  rw [hu] at he
  exact Host.Outcome.next.inj he ▸ hi

theorem Inv.setCmdIn {s : State} (h : Inv s) (port : List Byte) : Inv { s with cmdIn := port } :=
  h.of_units rfl rfl rfl rfl rfl

theorem step_keeps_inv {s t : State} (h : Inv s) (hs : step s = .next t) : Inv t := by
  obtain ⟨-, rfl⟩ | ⟨-, -, rfl⟩ | ⟨-, e, rest, -, rfl⟩ | ⟨-, i, rest, -, hx⟩ := step_cases hs
  · exact inv_resetByPin s
  · exact h
  · exact (h.setCmdIn rest).raiseError e
  · exact exec_keeps_inv (h.setCmdIn rest) hx

/-- Settles O14: the reset pin restores the invariant, a rejected command leaves the units alone, and each of the sixteen meanings
keeps it. -/
theorem stepKeepsInvariant : Obligations.StepKeepsInvariant :=
  fun _ _ h hs => step_keeps_inv h hs

theorem inv_resetOf (p : Params) : Inv (State.resetOf p) :=
  ⟨fsInv_fsReset p, diInv_diReset p, dsInv_dsReset p, crInv_crReset p⟩

/-- Settles O13: each unit's reset value meets that unit's part of the invariant. -/
theorem resetMeetsInvariant : Obligations.ResetMeetsInvariant :=
  ⟨inv_resetOf Config.reference, inv_resetOf⟩

end Sys2Proof.Machine
end

/-! The reset values of 10_state.md R56, for every element: the keystream by index, the reset value of each unit, the reset pin and
`RESET`. -/
section
namespace Sys2Proof.Machine
open Sys2Proof.Spec

/-- A bit shifted in from below doubles the word and adds the bit. -/
theorem shiftIn_ofNat (w a : Nat) (b : Bool) :
    (BitVec.ofNat w a <<< 1) ||| (BitVec.ofBool b).setWidth w = BitVec.ofNat w (2 * a + b.toNat) := by
  rw [← Nat.bit_val]
  apply BitVec.eq_of_getLsbD_eq
  intro i hi
  simp only [BitVec.getLsbD_or, BitVec.getLsbD_shiftLeft, BitVec.getLsbD_setWidth, BitVec.getLsbD_ofNat, BitVec.getLsbD_ofBool]
  cases i with
  | zero => simp [hi]
  | succ i => simp [hi, Nat.testBit_bit_succ, Nat.lt_of_succ_lt hi]

/-- 44_descrambler.md R250: the bit out of a step, as the statements write it. -/
theorem toNat_lfsrStep_fst (s : BitVec 15) : (lfsrStep s).1.toNat = feedback s.toNat := by
  have hb (k : Nat) : (s.getLsbD k).toNat = s.toNat / 2 ^ k % 2 := by
    rw [BitVec.getLsbD, Nat.toNat_testBit]
  have hx (x y : Bool) : (x ^^ y).toNat = (x.toNat + y.toNat) % 2 := by cases x <;> cases y <;> rfl
  simp only [lfsrStep, feedback, hx, hb]
  omega

/-- 44_descrambler.md R250: the register after a step. -/
theorem toNat_lfsrStep_snd (s : BitVec 15) : (lfsrStep s).2.toNat = (2 * s.toNat + feedback s.toNat) % 2 ^ 15 := by
  rw [← toNat_lfsrStep_fst, ← BitVec.toNat_ofNat, ← shiftIn_ofNat, BitVec.ofNat_toNat, BitVec.setWidth_eq]
  rfl

theorem toNat_lfsrStep_of_registerAfter {seed k : Nat} {s : BitVec 15} (h : s.toNat = registerAfter seed k) :
    (lfsrStep s).2.toNat = registerAfter seed (k + 1) := by
  rw [toNat_lfsrStep_snd, h, registerAfter]

/-- 44_descrambler.md R252: `n` steps from register number `k` shift in the feedback bits `k`, `k + 1`, .., the first of them
highest, and leave register number `k + n`. -/
theorem lfsrBits_ofNat {seed : Nat} (n : Nat) {k a : Nat} {s : BitVec 15} (h : s.toNat = registerAfter seed k) :
    (lfsrBits n (BitVec.ofNat 8 a) s).1 =
      BitVec.ofNat 8 ((List.range' k n).foldl (fun v m => 2 * v + feedback (registerAfter seed m)) a) ∧
    (lfsrBits n (BitVec.ofNat 8 a) s).2.toNat = registerAfter seed (k + n) := by
  induction n generalizing k a s with
  | zero => exact ⟨rfl, h⟩
  | succ n ih =>
    rw [lfsrBits, shiftIn_ofNat, toNat_lfsrStep_fst, h, List.range'_succ, List.foldl_cons, Nat.add_comm n 1,
      ← Nat.add_assoc]
    exact ih (toNat_lfsrStep_of_registerAfter h)

/-- 44_descrambler.md R252: the byte generated for the index `i + 1`. -/
theorem lfsrByte_eq_generated {seed i : Nat} {s : BitVec 15} (h : s.toNat = registerAfter seed (8 * i)) :
    (lfsrByte s).1 = BitVec.ofNat 8 (generated seed (i + 1)) ∧ (lfsrByte s).2.toNat = registerAfter seed (8 * (i + 1)) := by
  obtain ⟨hv, hs⟩ := lfsrBits_ofNat 8 (a := 0) h
  refine ⟨hv.trans ?_, hs⟩
  rw [generated, List.range'_eq_map_range, List.foldl_map, Nat.add_sub_cancel]

theorem keystreamFrom_eq_map_keyByte (p : Params) (n : Nat) {i : Nat} {s : BitVec 15}
    (h : s.toNat = registerAfter p.lfsrSeed.toNat (8 * i)) :
    keystreamFrom n (i + 1) s = (List.range' (i + 1) n).map (keyByte p) := by
  induction n generalizing i s with
  | zero => rfl
  | succ n ih =>
    obtain ⟨hv, hs⟩ := lfsrByte_eq_generated h
    rw [keystreamFrom, List.range'_succ, List.map_cons, ih hs, hv]
    simp only [keyByte, Nat.add_one_ne_zero, if_false]

/-- 44_descrambler.md R252, R253: the table the unit computes is the table by index, for every group size. -/
theorem keystream_eq_keyTable (p : Params) (g : Nat) : keystream p g = keyTable p g := by
  unfold keystream keyTable
  cases pkt * g with
  | zero => rfl
  | succ n =>
    rw [List.range_eq_range', List.range'_succ, List.map_cons, Nat.zero_add, ← keystreamFrom_eq_map_keyByte p n (i := 0) rfl]
    rfl

/-! ### The reset values of the units -/

/-- A space that holds exactly the bytes `bs` is the cells of `bs`. -/
theorem holdsBytes_iff {m : Memory} {bs : List Byte} : holdsBytes m bs ↔ m = cellsAt 0 bs := by
  constructor
  · rintro ⟨hb, rfl⟩
    exact (holdsBelow_iff.mp hb).1
  · rintro rfl
    exact ⟨holdsBelow_cellsAt bs, bytesOf_cellsAt 0 bs⟩

@[simp] theorem fsReset_dec (h : Hyp) : fsReset.dec[h] = [] := by
  fin_cases h <;> rfl

@[simp] theorem fsReset_err (h : Hyp) : fsReset.err[h] = 0 := by
  fin_cases h <;> rfl

theorem crAtReset_crReset (p : Params) : CrAtReset p (crReset p) where
  nw := rfl
  valid := rfl
  bestWord := rfl
  bestOff := rfl
  bestScore := rfl
  word := by
    refine ⟨List.length_replicate, fun r a => ?_⟩
    have hw : (crReset p).word.getD r [] = [] := by
      simp only [crReset, List.getD_eq_getElem?_getD, List.getElem?_replicate]
      split <;> rfl
    rw [hw]
    rfl

theorem fsAtReset_fsReset : FsAtReset fsReset where
  pos := rfl
  pend := rfl
  locked := rfl
  ready := rfl
  active := rfl
  err := fsReset_err
  buf := fun _ => rfl
  dec := fun h a => by rw [fsReset_dec]; rfl

theorem diAtReset_diReset (p : Params) : DiAtReset p (diReset p) where
  branches := by simp [diReset]
  fifo := fun b hb => by simp [diReset, branchLen, hb]
  comm := rfl
  synced := rfl
  fill := rfl
  outq := rfl
  frame := fun _ => rfl

theorem dsAtReset_dsReset (p : Params) : DsAtReset p (dsReset p) where
  group := rfl
  ks := by
    rw [holdsBytes_iff, ← keystream_eq_keyTable]
    rfl

/-! ### `RESET` -/

theorem exec_reset_eq {m : BitVec 4} {s t : State} (h : exec (.reset m) s = .next t) : t = (resetUnits m s).respond .ok [] :=
  (Host.Outcome.next.inj h).symm

/-- 70_reset_and_hazards.md R340: a unit that the mask names holds its reset values. -/
theorem resetUnits_atReset (m : BitVec 4) (s : State) :
    (m.getLsbD 0 = true → CrAtReset s.par (resetUnits m s).cr) ∧ (m.getLsbD 1 = true → FsAtReset (resetUnits m s).fs) ∧
    (m.getLsbD 2 = true → DiAtReset s.par (resetUnits m s).di) ∧
    (m.getLsbD 3 = true → DsAtReset s.par (resetUnits m s).ds) := by
  refine ⟨fun h => ?_, fun h => ?_, fun h => ?_, fun h => ?_⟩
  · rw [resetUnits_cr, if_pos h]
    exact crAtReset_crReset s.par
  · rw [resetUnits_fs, if_pos h]
    exact fsAtReset_fsReset
  · rw [resetUnits_di, if_pos h]
    exact diAtReset_diReset s.par
  · rw [resetUnits_ds, if_pos h]
    exact dsAtReset_dsReset s.par

theorem resetUnits_cr_unnamed {m : BitVec 4} (h : m.getLsbD 0 = false) (s : State) : (resetUnits m s).cr = s.cr := by
  rw [resetUnits_cr, h]; rfl

theorem resetUnits_fs_unnamed {m : BitVec 4} (h : m.getLsbD 1 = false) (s : State) : (resetUnits m s).fs = s.fs := by
  rw [resetUnits_fs, h]; rfl

theorem resetUnits_di_unnamed {m : BitVec 4} (h : m.getLsbD 2 = false) (s : State) : (resetUnits m s).di = s.di := by
  rw [resetUnits_di, h]; rfl

theorem resetUnits_ds_unnamed {m : BitVec 4} (h : m.getLsbD 3 = false) (s : State) : (resetUnits m s).ds = s.ds := by
  rw [resetUnits_ds, h]; rfl

theorem step_pin {s t : State} (hp : s.rstPin = true) (h : step s = .next t) : t = resetByPin s := by
  obtain ⟨-, rfl⟩ | ⟨hf, -⟩ | ⟨hf, -⟩ | ⟨hf, -⟩ := step_cases h
  · rfl
  all_goals rw [hp] at hf; cases hf

/-- Settles O12: each unit's reset value is the column of 10_state.md R56 (the keystream table by index, for the descrambler), and
the pin and `RESET` put that value in place. -/
theorem resetValues : Obligations.ResetValues := by
  refine ⟨fun p => ?_, ⟨Config.reference, rfl⟩, fun s t hp h => ?_, fun m s t h => ?_⟩
  · exact ⟨crAtReset_crReset p, fsAtReset_fsReset, diAtReset_diReset p, dsAtReset_dsReset p⟩
  · rw [step_pin hp h]
    exact ⟨crAtReset_crReset s.par, fsAtReset_fsReset, diAtReset_diReset s.par, dsAtReset_dsReset s.par⟩
  · rw [exec_reset_eq h]
    exact resetUnits_atReset m s

/-- Settles O25: `RESET` answers `OK`, writes the reset value of R56 to the units of the mask and to nothing else. -/
theorem resetCommandResult : Obligations.ResetCommandResult := by
  intro m s
  obtain ⟨hcr, hfs, hdi, hds⟩ := resetUnits_atReset m s
  exact ⟨_, rfl, rfl, hcr, (resetUnits_cr_unnamed · s), hfs, (resetUnits_fs_unnamed · s), hdi, (resetUnits_di_unnamed · s), hds,
    (resetUnits_ds_unnamed · s)⟩

end Sys2Proof.Machine
end

/-! Who writes the flags (10_state.md R57): the units a command leaves alone, and what each command does to each flag. -/
section
namespace Sys2Proof.Machine
open Sys2Proof.Spec

/-! ### The units a command leaves alone -/

theorem UnitUpdate.fs_eq {s u : State} {n : Nat} (h : UnitUpdate s n u) (h0 : n ≠ 0) (h3 : n ≠ 3) : u.fs = s.fs := by
  cases h with
  | reset mask => exact absurd rfl h0
  | frameSync f => exact absurd rfl h3
  | unchanged | correlator c | deinterleaver d | descrambler d => rfl

theorem UnitUpdate.di_eq {s u : State} {n : Nat} (h : UnitUpdate s n u) (h0 : n ≠ 0) (h4 : n ≠ 4) : u.di = s.di := by
  cases h with
  | reset mask => exact absurd rfl h0
  | deinterleaver d => exact absurd rfl h4
  | unchanged | correlator c | frameSync f | descrambler d => rfl

theorem UnitUpdate.cr_eq {s u : State} {n : Nat} (h : UnitUpdate s n u) (h0 : n ≠ 0) (h2 : n ≠ 2) : u.cr = s.cr := by
  cases h with
  | reset mask => exact absurd rfl h0
  | correlator c => exact absurd rfl h2
  | unchanged | frameSync f | deinterleaver d | descrambler d => rfl

theorem exec_fs_eq {i : Instr} {s t : State} (h : exec i s = .next t) (h0 : unitNumber i ≠ 0) (h3 : unitNumber i ≠ 3) :
    t.fs = s.fs := by
  obtain ⟨u, st, pl, hu, rfl⟩ := exec_answersOnce i s t h
  exact hu.fs_eq h0 h3

theorem exec_di_eq {i : Instr} {s t : State} (h : exec i s = .next t) (h0 : unitNumber i ≠ 0) (h4 : unitNumber i ≠ 4) :
    t.di = s.di := by
  obtain ⟨u, st, pl, hu, rfl⟩ := exec_answersOnce i s t h
  exact hu.di_eq h0 h4

theorem exec_cr_eq {i : Instr} {s t : State} (h : exec i s = .next t) (h0 : unitNumber i ≠ 0) (h2 : unitNumber i ≠ 2) :
    t.cr = s.cr := by
  obtain ⟨u, st, pl, hu, rfl⟩ := exec_answersOnce i s t h
  exact hu.cr_eq h0 h2

/-! ### The flags of the frame synchronizer -/

/-- The flags `FS.LOCKED`, `FS.ACTIVE` and `FS.READY` of `g` are those of `f`. -/
structure SameFsFlags (f g : Fs) : Prop where
  locked : g.locked = f.locked
  active : g.active = f.active
  ready : g.ready = f.ready

theorem SameFsFlags.of_eq {f g : Fs} (h : g = f) : SameFsFlags f g := h ▸ ⟨rfl, rfl, rfl⟩

/-- Everything `FS.UPDATE` can do: the top-up alone, or a decode cycle on the full buffer (42_framesync.md R165). -/
theorem execFsUpdate_cases {s t : State} (h : execFsUpdate s = .next t) :
    t = (s.setFs (topUp s.par s.fs)).respond .none [] ∨
    ∃ soft, t = (s.setFs (decodeAll s.par soft (topUp s.par s.fs))).respond .ok [] := by
  unfold execFsUpdate at h
  split at h
  · exact .inl (Host.Outcome.next.inj h).symm
  · obtain ⟨g, hg, rfl⟩ := finish_eq_next h
    obtain ⟨soft, -, -, rfl⟩ := decodeCycle_ok hg
    exact .inr ⟨soft, rfl⟩

theorem execFsUpdate_flags {s t : State} (h : execFsUpdate s = .next t) : SameFsFlags s.fs t.fs := by
  obtain rfl | ⟨soft, rfl⟩ := execFsUpdate_cases h <;> exact ⟨rfl, rfl, rfl⟩

/-- Everything `FS.GETFRAME` can do: no frame to return, or the frame returned (42_framesync.md R190). -/
theorem execFsGetframe_cases {s t : State} (h : execFsGetframe s = .next t) :
    t = s.respond .none [] ∨ ∃ d, t = (s.setFs (clearReady s.fs)).respond .ok d := by
  unfold execFsGetframe at h
  split at h
  · obtain ⟨d, -, rfl⟩ := finish_eq_next h
    exact .inr ⟨d, rfl⟩
  · exact .inl (Host.Outcome.next.inj h).symm

/-- What a command does to the flags of the frame synchronizer, but for `FS.FINDSYNC`: nothing, `FS.READY` cleared by
`FS.GETFRAME`, or the reset values (10_state.md R26 to R28). -/
theorem exec_fsFlags {i : Instr} {s t : State} (h : exec i s = .next t) :
    SameFsFlags s.fs t.fs ∨ i = .fsFindsync ∨ (i = .fsGetframe ∧ t.fs = clearReady s.fs) ∨
    (∃ m, i = .reset m ∧ m.getLsbD 1 = true ∧ t.fs = fsReset) := by
  cases i with
  | reset m =>
    obtain rfl := exec_reset_eq h
    cases hm : m.getLsbD 1 with
    | true => exact .inr (.inr (.inr ⟨m, rfl, hm, if_pos hm⟩))
    | false => exact .inl (.of_eq (resetUnits_fs_unnamed hm s))
  | fsPut pl => exact .inl (Host.Outcome.next.inj h ▸ ⟨rfl, rfl, rfl⟩)
  | fsUpdate => exact .inl (execFsUpdate_flags h)
  | fsFindsync => exact .inr (.inl rfl)
  | fsGetframe =>
    obtain rfl | ⟨d, rfl⟩ := execFsGetframe_cases h
    · exact .inl (.of_eq rfl)
    · exact .inr (.inr (.inl ⟨rfl, rfl⟩))
  | fsGetber | fsStatus => exact .inl (Host.Outcome.next.inj h ▸ .of_eq rfl)
  | rot x pl | crClr | crAddw pl | crRun pl | crGet r | diPush pl | diPop | dsCfg g | dsApply pl =>
    exact .inl (.of_eq (exec_fs_eq h (by simp [unitNumber_eq]) (by simp [unitNumber_eq])))

/-! ### `DI.SYNCED` -/

theorem accumulate_synced {y : Byte} {d d' : Di} (h : accumulate y d = .ok d') : d'.synced = d.synced := by
  unfold accumulate at h
  simp only at h
  split at h
  · split at h
    · cases h
    · obtain rfl := Except.ok.inj h
      rfl
  · obtain rfl := Except.ok.inj h
    rfl

/-- 43_deinterleaver.md R223: nothing that is emitted clears `DI.SYNCED`. -/
theorem emit_synced {y : Byte} {d d' : Di} (h : emit y d = .ok d') (hs : d.synced = true) : d'.synced = true := by
  rw [emit, if_pos hs] at h
  rw [accumulate_synced h, hs]

theorem diStep_synced {p : Params} {x : Byte} {d d' : Di} (h : diStep p x d = .ok d') (hs : d.synced = true) :
    d'.synced = true := by
  unfold diStep at h
  split at h
  · cases h
  · exact emit_synced h hs

theorem diSteps_synced {p : Params} {xs : List Byte} {d d' : Di} (h : diSteps p xs d = .ok d') (hs : d.synced = true) :
    d'.synced = true := by
  induction xs generalizing d with
  | nil => exact Except.ok.inj h ▸ hs
  | cons x xs ih =>
    rw [diSteps] at h
    split at h
    · cases h
    · rename_i d1 h1
      exact ih h (diStep_synced h1 hs)

/-- What a command does to `DI.SYNCED`: nothing, `DI.PUSH` that does not clear it, or its reset value (10_state.md R37). -/
theorem exec_synced {i : Instr} {s t : State} (h : exec i s = .next t) :
    t.di.synced = s.di.synced ∨ (∃ x, i = .diPush x ∧ (s.di.synced = true → t.di.synced = true)) ∨
    (∃ m, i = .reset m ∧ m.getLsbD 2 = true) := by
  cases i with
  | reset m =>
    obtain rfl := exec_reset_eq h
    cases hm : m.getLsbD 2 with
    | true => exact .inr (.inr ⟨m, rfl, hm⟩)
    | false => exact .inl (congrArg Di.synced (resetUnits_di_unnamed hm s))
  | diPush pl =>
    obtain ⟨d, hd, rfl⟩ := finish_eq_next h
    exact .inr (.inl ⟨pl, rfl, diSteps_synced hd⟩)
  | diPop =>
    obtain rfl := Host.Outcome.next.inj h
    refine .inl ?_
    split <;> rfl
  | rot x pl | crClr | crAddw pl | crRun pl | crGet r | fsPut pl | fsUpdate | fsFindsync | fsGetframe | fsGetber | fsStatus
  | dsCfg g | dsApply pl =>
    exact .inl (congrArg Di.synced (exec_di_eq h (by simp [unitNumber_eq]) (by simp [unitNumber_eq])))

/-! ### `CR.VALID` -/

/-- `CR.GET` answers and changes nothing else (41_correlator.md R148). -/
theorem execCrGet_respond {r : Byte} {s t : State} (h : execCrGet r s = .next t) : ∃ st pl, t = s.respond st pl := by
  unfold execCrGet at h
  split at h
  · split at h
    · cases h
    · obtain ⟨sc, -, rfl⟩ := finish_eq_next h
      exact ⟨_, _, rfl⟩
  · exact ⟨_, _, (Host.Outcome.next.inj h).symm⟩

/-- What a command does to `CR.VALID`, but for `CR.RUN`: nothing, or cleared by `CR.CLR`, `CR.ADDW` or a reset of the unit
(10_state.md R52). -/
theorem exec_valid {i : Instr} {s t : State} (h : exec i s = .next t) :
    t.cr.valid = s.cr.valid ∨ (∃ x, i = .crRun x) ∨
    (t.cr.valid = false ∧ (i = .crClr ∨ (∃ x, i = .crAddw x) ∨ ∃ m, i = .reset m ∧ m.getLsbD 0 = true)) := by
  cases i with
  | reset m =>
    obtain rfl := exec_reset_eq h
    cases hm : m.getLsbD 0 with
    | true => exact .inr (.inr ⟨by rw [respond_cr, resetUnits_cr, if_pos hm]; rfl, .inr (.inr ⟨m, rfl, hm⟩)⟩)
    | false => exact .inl (congrArg Cr.valid (resetUnits_cr_unnamed hm s))
  | crClr => exact .inr (.inr ⟨Host.Outcome.next.inj h ▸ rfl, .inl rfl⟩)
  | crAddw pl =>
    obtain rfl := Host.Outcome.next.inj h
    split
    · exact .inl rfl
    · split
      · exact .inl rfl
      · exact .inr (.inr ⟨rfl, .inr (.inl ⟨pl, rfl⟩)⟩)
  | crRun pl => exact .inr (.inl ⟨pl, rfl⟩)
  | crGet r =>
    obtain ⟨st, pl, rfl⟩ := execCrGet_respond h
    exact .inl rfl
  | rot x pl | fsPut pl | fsUpdate | fsFindsync | fsGetframe | fsGetber | fsStatus | diPush pl | diPop | dsCfg g | dsApply pl =>
    exact .inl (congrArg Cr.valid (exec_cr_eq h (by simp [unitNumber_eq]) (by simp [unitNumber_eq])))

/-- Settles O20: read off the case analyses of the flags of each unit. -/
theorem flagsAreWrittenOnlyByTheirCommands : Obligations.FlagsAreWrittenOnlyByTheirCommands := by
  intro i s t h
  refine ⟨fun hc => ?_, fun hc => ?_, fun hc => ?_, fun hset hclr => ?_, fun hc => ?_, fun hset hclr => ?_, fun hc => ?_,
    fun hset hclr => ?_⟩
  · obtain same | find | ⟨-, ht⟩ | ⟨m, hi, hm, -⟩ := exec_fsFlags h
    · exact absurd same.locked hc
    · exact .inl find
    · exact absurd (by rw [ht]; rfl) hc
    · exact .inr ⟨m, hi, hm⟩
  · obtain same | find | ⟨-, ht⟩ | ⟨m, hi, hm, -⟩ := exec_fsFlags h
    · exact absurd same.active hc
    · exact .inl find
    · exact absurd (by rw [ht]; rfl) hc
    · exact .inr ⟨m, hi, hm⟩
  · obtain same | find | ⟨hi, -⟩ | ⟨m, hi, hm, -⟩ := exec_fsFlags h
    · exact absurd same.ready hc
    · exact .inl find
    · exact .inr (.inl hi)
    · exact .inr (.inr ⟨m, hi, hm⟩)
  · obtain same | find | ⟨-, ht⟩ | ⟨-, -, -, ht⟩ := exec_fsFlags h
    · rw [same.ready, hclr] at hset; cases hset
    · exact find
    · rw [ht] at hset; cases hset
    · rw [ht] at hset; cases hset
  · obtain same | ⟨x, hi, -⟩ | reset := exec_synced h
    · exact absurd same hc
    · exact .inl ⟨x, hi⟩
    · exact .inr reset
  · obtain same | ⟨-, -, keeps⟩ | reset := exec_synced h
    · rw [same, hset] at hclr; cases hclr
    · rw [keeps hset] at hclr; cases hclr
    · exact reset
  · obtain same | run | ⟨-, clr | addw | reset⟩ := exec_valid h
    · exact absurd same hc
    · exact .inr (.inr (.inl run))
    · exact .inl clr
    · exact .inr (.inl addw)
    · exact .inr (.inr (.inr reset))
  · obtain same | run | ⟨hf, -⟩ := exec_valid h
    · rw [same, hclr] at hset; cases hset
    · exact run
    · rw [hf] at hset; cases hset

end Sys2Proof.Machine
end

/-! The frame that a found sync leaves to be read (42_framesync.md R179, R190): it is whole and it passes the sync test. -/
section
namespace Sys2Proof.Machine
open Sys2Proof.Spec

/-! ### The sync test on a whole frame -/

/-- 42_framesync.md R175: the 1 bits of `x ^ y` are the bits in which the two bytes differ. -/
theorem popcnt_xor (x y : Byte) : popcnt (x ^^^ y) = wrongBits x y := by
  simp only [popcnt, wrongBits, List.countP_eq_length_filter, BitVec.getLsbD_xor, Bool.bne_eq_xor]

theorem memByte_of_holdsBytes {m : Memory} {d : List Byte} (h : holdsBytes m d) {k : Nat} (hk : k < d.length) :
    memByte m k = some (d.getD k 0) := by
  rw [holdsBytes_iff.mp h, memByte_cellsAt, if_pos (Nat.zero_le k), Nat.sub_zero, List.getElem?_eq_getElem hk,
    List.getD_eq_getElem d 0 hk]

/-- 42_framesync.md R175 on a frame that reaches the last tested byte. -/
theorem syncErr_of_holdsBytes {m : Memory} {d : List Byte} (h : holdsBytes m d) (hl : 817 ≤ d.length) :
    syncErr m = some (syncErrOf d) := by
  have hb (k : Nat) (hk : k < 817) : memByte m k = some (d.getD k 0) := memByte_of_holdsBytes h (by omega)
  simp [syncErr, syncPattern, hb, popcnt_xor, syncErrOf]

theorem syncPresent_iff {m : Memory} {d : List Byte} (h : holdsBytes m d) (hl : 817 ≤ d.length) :
    syncPresent m = true ↔ syncErrOf d < 5 := by
  rw [syncPresent, syncErr_of_holdsBytes h hl]
  exact decide_eq_true_iff

/-! ### The frame of a found sync -/

theorem advanceBuf_dec {p : Params} {f g : Fs} (h : advanceBuf p f = .ok g) : g.dec = f.dec := by
  unfold advanceBuf at h
  split at h
  · cases h
  · obtain rfl := Except.ok.inj h
    rfl

/-- 42_framesync.md R179: a turn that finds sync on `w` has tested the frame of `w`. -/
theorem testSync_found {p : Params} {f g : Fs} {w : Hyp} (h : testSync p f = .ok (.found w g)) :
    syncPresent g.dec[w] = true := by
  unfold testSync at h
  split at h
  · rename_i v hv
    split at h
    · cases h
    · rename_i g' hg
      obtain ⟨rfl, rfl⟩ := Turn.found.inj (Except.ok.inj h)
      have hd : (markReady g').dec = f.dec := (advanceBuf_dec hg : g'.dec = (lockOn v f).dec)
      rw [hd]
      exact (List.mem_filter.mp (selectHyp_mem hv)).2
  · split at h
    · cases h
    · cases h

theorem searchTurn_found {p : Params} {f g : Fs} {w : Hyp} (h : searchTurn p f = .ok (.found w g)) :
    syncPresent g.dec[w] = true := by
  unfold searchTurn at h
  split at h
  · cases h
  · split at h
    · cases h
    · exact testSync_found h

/-- A search that finds sync does so in its first turn or in those that follow. -/
theorem searchLoop_cases_of_found {p : Params} {n : Nat} {loss : Bool} {f : Fs} {r : Search} {w : Hyp}
    (h : searchLoop p n loss f = .ok r) (hw : r.found = some w) :
    searchTurn p f = .ok (.found w r.fs) ∨ ∃ k lost g, n = k + 1 ∧ searchLoop p k (loss || lost) g = .ok r := by
  unfold searchLoop at h
  split at h
  · cases h
  · obtain rfl := Except.ok.inj h
    cases hw
  · rename_i v g ht
    obtain rfl := Except.ok.inj h
    obtain rfl := Option.some.inj hw
    exact .inl ht
  · rename_i lost g ht
    split at h
    · exact .inr ⟨_, lost, g, rfl, h⟩
    · obtain rfl := Except.ok.inj h
      cases hw

/-- The search ends in the turn that finds sync, so the frame tested there is the one it leaves. -/
theorem searchLoop_found {p : Params} {n : Nat} {loss : Bool} {f : Fs} {r : Search} {w : Hyp}
    (h : searchLoop p n loss f = .ok r) (hw : r.found = some w) : syncPresent r.fs.dec[w] = true := by
  induction n generalizing loss f with
  | zero =>
    obtain ht | ⟨k, lost, g, hk, -⟩ := searchLoop_cases_of_found h hw
    · exact searchTurn_found ht
    · cases hk
  | succ n ih =>
    obtain ht | ⟨k, lost, g, hk, hg⟩ := searchLoop_cases_of_found h hw
    · exact searchTurn_found ht
    · obtain rfl := Nat.succ.inj hk
      exact ih hg

/-- What `FS.FINDSYNC` leaves when it answers `OK`: the invariant, the lock and the ready flag, and a frame of the active
hypothesis that passes the sync test (42_framesync.md R179). -/
theorem execFsFindsync_ok {s t : State} {b : Byte} (hf : FsCore s.par s.fs) (h : execFsFindsync s = .next t)
    (hrsp : t.rspOut = s.rspOut ++ [⟨.ok, [b]⟩]) :
    FsInv s.par t.fs ∧ t.fs.locked = true ∧ t.fs.ready = true ∧ syncPresent t.fs.dec[t.fs.active] = true := by
  obtain ⟨r, hr, rfl⟩ := finish_eq_next h
  obtain ⟨r', hr', hinv, hgood⟩ := findSync_inv hf
  obtain rfl := Except.ok.inj (hr.symm.trans hr')
  have hst : searchStatus r = .ok := by
    simp only [respond_rspOut, setFs_rspOut, List.append_cancel_left_eq, List.cons.injEq, Response.mk.injEq] at hrsp
    exact hrsp.1.1
  cases hw : r.found with
  | none => rw [searchStatus, hw] at hst; cases hst
  | some w =>
    rw [hw] at hgood
    obtain ⟨hlocked, rfl, hready, -⟩ := hgood
    exact ⟨hinv, hlocked, hready, searchLoop_found hr hw⟩

/-- Settles O45: the turn that found sync has tested the frame of the hypothesis it made active, nothing is written to that frame
after the test, and the invariant makes it whole. -/
theorem foundFrameIsReturned : Obligations.FoundFrameIsReturned := by
  intro s t b hf h hrsp
  have hpar : t.par = s.par := exec_par h
  obtain ⟨hinv, hlocked, hready, hsync⟩ := execFsFindsync_ok hf h hrsp
  obtain ⟨d, hlen, hd⟩ := exists_of_holdsBelow (hinv.lockedDecoded hlocked)
  have hbytes : holdsBytes t.fs.dec[t.fs.active] d := holdsBytes_iff.mpr hd
  have hF : 817 ≤ d.length := hlen ▸ s.par.hF
  refine ⟨d, ?_, hlen, (syncPresent_iff hbytes hF).mp hsync, hbytes⟩
  have hget := execFsGetframe_ready (hpar.symm ▸ hinv) hlocked hready
  rw [hbytes.2] at hget
  exact hget

end Sys2Proof.Machine
end

/-! The block never stops (20_memory.md R70, R71): a step runs the command at the front of the port, and from a state that meets the
invariant it always answers. -/
section
namespace Sys2Proof.Machine

/-- Settles O9: with the pin released and a command at the front, the work of the step is that command, on the state with it
consumed. -/
theorem stepRunsTheDecodedCommand : Obligations.StepRunsTheDecodedCommand := by
  intro s i rest hpin hdec
  have hwork : nextWork s = .run i { s with cmdIn := rest } := by
    rw [nextWork, hpin, hdec]
    rfl
  rw [step, hwork]

/-- Settles O15: each of the sixteen meanings answers from the invariant and keeps it. -/
theorem everyCommandAnswers : Obligations.EveryCommandAnswers :=
  fun i _ h => exec_inv i h

/-- The pin, a wait and a rejected command always answer; a command answers because the invariant holds where it runs. -/
theorem step_answers {s : State} (h : Inv s) : ∃ t, step s = .next t := by
  unfold step
  fun_cases nextWork s with
  | case1 | case2 | case3 => exact ⟨_, rfl⟩
  | case4 hpin i rest hdec =>
    obtain ⟨t, ht, -⟩ := exec_inv i (h.setCmdIn rest)
    exact ⟨t, ht⟩

/-- The invariant does not speak of the ports or the pin, so nothing the host does to them breaks it. -/
theorem Inv.setPorts {s : State} (h : Inv s) (cmd : List Byte) (rsp : List Response) (pin : Bool) :
    Inv { s with cmdIn := cmd, rspOut := rsp, rstPin := pin } :=
  h.of_units rfl rfl rfl rfl rfl

theorem safeFor_of_inv (n : Nat) {s : State} (h : Inv s) : SafeFor n s := by
  induction n generalizing s with
  | zero => exact .stop s
  | succ n ih =>
    obtain ⟨t, ht⟩ := step_answers h
    have hinv : Inv t := step_keeps_inv h ht
    exact .go n s t ht fun cmd rsp pin => ih (hinv.setPorts cmd rsp pin)

/-- Settles O16: by induction on the number of steps, since each step answers and keeps the invariant and so does the host's
traffic. -/
theorem runsNeverStop : Obligations.RunsNeverStop :=
  fun n _ h => safeFor_of_inv n h

end Sys2Proof.Machine
end

/-! The isolation of the units (20_memory.md R60, 30_encoding.md R94) and the commands that only read (20_memory.md R67). -/
section
namespace Sys2Proof.Machine
open Sys2Proof.Spec

/-! ### What a command leaves alone -/

theorem UnitUpdate.ds_eq {s u : State} {n : Nat} (h : UnitUpdate s n u) (h0 : n ≠ 0) (h5 : n ≠ 5) : u.ds = s.ds := by
  cases h with
  | reset mask => exact absurd rfl h0
  | descrambler d => exact absurd rfl h5
  | unchanged | correlator c | frameSync f | deinterleaver d => rfl

theorem UnitUpdate.ports_eq {s u : State} {n : Nat} (h : UnitUpdate s n u) :
    u.cmdIn = s.cmdIn ∧ u.rspOut = s.rspOut ∧ u.rstPin = s.rstPin := by
  cases h with
  | unchanged | reset mask | correlator c | frameSync f | deinterleaver d | descrambler d => exact ⟨rfl, rfl, rfl⟩

/-- Settles O19: a command makes one update of the unit it selects and then answers once. -/
theorem unitIsolation : Obligations.UnitIsolation := by
  intro i s t h
  obtain ⟨u, st, pl, hu, rfl⟩ := exec_answersOnce i s t h
  obtain ⟨hcmd, hrsp, hpin⟩ := hu.ports_eq
  refine ⟨fun h0 => ⟨hu.cr_eq h0, hu.fs_eq h0, hu.di_eq h0, hu.ds_eq h0⟩, hu.par_eq, hcmd, hpin, ⟨st, pl⟩, ?_⟩
  rw [respond_rspOut, hrsp]

/-! ### The commands that only read

Each lemma gives the answer once for all the states that agree on what the command reads: the state the command runs on, and the
same state with the answer appended. -/

theorem execRot_answer (x : Hyp) (pl : List Byte) :
    ∃ st out, ∀ u, execRot x pl u = .next (u.respond st out) := by
  by_cases hodd : pl.length % 2 = 1
  · exact ⟨.error .len, [], fun u => by rw [execRot, if_pos hodd, raiseError]⟩
  · exact ⟨.ok, rotBuf x pl, fun u => by rw [execRot, if_neg hodd]⟩

theorem execCrGet_answer {r : Byte} {s t : State} (h : execCrGet r s = .next t) :
    ∃ st out, ∀ u, u.cr = s.cr → execCrGet r u = .next (u.respond st out) := by
  unfold execCrGet at h
  split at h
  · rename_i hloaded
    split at h
    · cases h
    · rename_i off hoff
      obtain ⟨sc, hsc, -⟩ := finish_eq_next h
      exact ⟨.ok, be32 off ++ be32 sc, fun u hu => by simp only [execCrGet, hu, if_pos hloaded, hoff, hsc, finish_ok]⟩
  · rename_i hnone
    exact ⟨.none, [], fun u hu => by rw [execCrGet, hu, if_neg hnone]⟩

theorem execDsApply_answer {pl : List Byte} {s t : State} (h : execDsApply pl s = .next t) :
    ∃ st out, ∀ u, u.ds = s.ds → execDsApply pl u = .next (u.respond st out) := by
  unfold execDsApply at h
  split at h
  · rename_i hlen
    exact ⟨.error .len, [], fun u hu => by rw [execDsApply, hu, if_pos hlen, raiseError]⟩
  · rename_i hlen
    obtain ⟨ks, hks, -⟩ := finish_eq_next h
    exact ⟨.ok, xorBytes pl ks, fun u hu => by rw [execDsApply, hu, if_neg hlen, hks, finish_ok]⟩

/-- A command that gives one answer, whatever responses were given before, changes nothing else and repeats its answer. -/
theorem repeats_of_answer {f : State → Host.Outcome State Fault Refusal} {s t : State} (h : f s = .next t) {st : Status}
    {out : List Byte} (ha : ∀ rsp, f { s with rspOut := rsp } = .next (State.respond { s with rspOut := rsp } st out)) :
    ∃ r, t = { s with rspOut := s.rspOut ++ [r] } ∧ f t = .next { s with rspOut := s.rspOut ++ [r] ++ [r] } := by
  obtain rfl : s.respond st out = t := Host.Outcome.next.inj ((ha s.rspOut).symm.trans h)
  exact ⟨⟨st, out⟩, rfl, ha _⟩

/-- Settles O22: the answer of each of the five commands is a function of its operands, the parameters and its unit, none of which
it changes. -/
theorem readsChangeNothing : Obligations.ReadsChangeNothing := by
  rintro i s t (rfl | rfl | ⟨r, rfl⟩ | ⟨x, pl, rfl⟩ | ⟨pl, rfl⟩) h
  · exact repeats_of_answer (st := .ok) (out := be32 (berWord s.par s.fs)) h fun _ => rfl
  · exact repeats_of_answer (st := .ok) (out := statusRecord s.fs) h fun _ => rfl
  · obtain ⟨st, out, ha⟩ := execCrGet_answer h
    exact repeats_of_answer h fun _ => ha _ rfl
  · obtain ⟨st, out, ha⟩ := execRot_answer x pl
    exact repeats_of_answer h fun _ => ha _
  · obtain ⟨st, out, ha⟩ := execDsApply_answer h
    exact repeats_of_answer h fun _ => ha _ rfl

end Sys2Proof.Machine
end

/-! Nothing is dropped (20_memory.md R68): what each command does to the stream of soft bits and to the queue of frames. -/
section
namespace Sys2Proof.Machine
open Sys2Proof.Spec

/-! ### The stream of soft bits -/

theorem stream_of_buf {f : Fs} {bs : List Byte} (h : f.buf = cellsAt 0 bs) : stream f = bs ++ f.pend := by
  rw [stream, bytesOf, h, bytesOf_cellsAt]

/-- `TopUp` moves soft bits from the queue to the buffer and keeps their order (42_framesync.md R162). -/
theorem topUp_stream {p : Params} {f : Fs} (h : holdsBelow f.buf f.pos) : stream (topUp p f) = stream f := by
  obtain ⟨bs, hlen, hbuf⟩ := exists_of_holdsBelow h
  rw [stream_of_buf (topUp_buf hbuf hlen), stream_of_buf hbuf, topUp_pend, List.append_assoc, List.take_eq_take_min,
    Nat.min_comm, List.take_append_drop]

/-- Dropping soft bits from the front of the buffer, after the top-up, drops them from the front of the stream. -/
theorem drop_stream_of_topUp_buf {p : Params} {f : Fs} {soft : List Byte} (h : holdsBelow f.buf f.pos)
    (hb : (topUp p f).buf = cellsAt 0 soft) {k : Nat} (hk : k ≤ soft.length) :
    soft.drop k ++ (topUp p f).pend = (stream f).drop k := by
  rw [← topUp_stream h, stream_of_buf hb, List.drop_append_of_le_length hk]

/-- The `FS` state that a turn of the search leaves. -/
def Turn.fs : Turn → Fs
  | .notFull f => f
  | .found _ f => f
  | .missed _ f => f

/-- A turn drops nothing, all but the guard region, or the oldest soft bit (42_framesync.md R177, R178, R182). -/
theorem searchTurn_drops {p : Params} {f : Fs} (h : FsCore p f) {u : Turn} (hu : searchTurn p f = .ok u) :
    ∃ k, stream u.fs = (stream f).drop k := by
  have hC : 0 < p.C := Nat.zero_lt_of_lt p.hGC
  obtain ⟨-, e⟩ | ⟨soft, hl, -, hb, w, -, e⟩ | ⟨soft, hl, -, hb, -, e⟩ := searchTurn_cases h
  · obtain rfl := Except.ok.inj (e.symm.trans hu)
    exact ⟨0, topUp_stream h.bufHolds⟩
  · obtain rfl := Except.ok.inj (e.symm.trans hu)
    exact ⟨p.C - p.G, (stream_of_buf rfl).trans (drop_stream_of_topUp_buf h.bufHolds hb (hl ▸ Nat.sub_le p.C p.G))⟩
  · obtain rfl := Except.ok.inj (e.symm.trans hu)
    refine ⟨1, (stream_of_buf rfl).trans ?_⟩
    rw [Turn.fs, loseLock_pend]
    exact drop_stream_of_topUp_buf h.bufHolds hb (hl ▸ hC)

theorem searchTurn_missed_core {p : Params} {f g : Fs} {lost : Bool} (h : FsCore p f)
    (hm : searchTurn p f = .ok (.missed lost g)) : FsCore p g := by
  obtain ⟨u, hu, hinv⟩ := searchTurn_inv h
  obtain rfl := Except.ok.inj (hm.symm.trans hu)
  obtain ⟨-, -, -, -, -, hcore⟩ := hinv
  exact hcore

/-- The search ends with what its first turn leaves, or goes on after a missed turn. -/
theorem searchLoop_cases {p : Params} {n : Nat} {loss : Bool} {f : Fs} {r : Search} (h : searchLoop p n loss f = .ok r) :
    (∃ u, searchTurn p f = .ok u ∧ r.fs = u.fs) ∨
    ∃ k lost g, n = k + 1 ∧ searchTurn p f = .ok (.missed lost g) ∧ searchLoop p k (loss || lost) g = .ok r := by
  unfold searchLoop at h
  split at h
  · cases h
  · rename_i g ht
    exact .inl ⟨_, ht, Except.ok.inj h ▸ rfl⟩
  · rename_i w g ht
    exact .inl ⟨_, ht, Except.ok.inj h ▸ rfl⟩
  · rename_i lost g ht
    split at h
    · exact .inr ⟨_, lost, g, rfl, ht, h⟩
    · exact .inl ⟨_, ht, Except.ok.inj h ▸ rfl⟩

theorem searchLoop_drops {p : Params} {n : Nat} {loss : Bool} {f : Fs} {r : Search} (hf : FsCore p f)
    (h : searchLoop p n loss f = .ok r) : ∃ k, stream r.fs = (stream f).drop k := by
  induction n generalizing loss f with
  | zero =>
    obtain ⟨u, hu, hr⟩ | ⟨k, -, -, hk, -⟩ := searchLoop_cases h
    · exact hr ▸ searchTurn_drops hf hu
    · cases hk
  | succ n ih =>
    obtain ⟨u, hu, hr⟩ | ⟨k, lost, g, hk, hg, hloop⟩ := searchLoop_cases h
    · exact hr ▸ searchTurn_drops hf hu
    · obtain rfl := Nat.succ.inj hk
      obtain ⟨a, ha⟩ := searchTurn_drops hf hg
      obtain ⟨b, hb⟩ := ih (searchTurn_missed_core hf hg) hloop
      exact ⟨a + b, by rw [hb, show stream g = _ from ha, List.drop_drop]⟩

theorem execFsPut_stream {x : List Byte} {s t : State} (hf : FsCore s.par s.fs) (h : execFsPut x s = .next t) :
    stream t.fs = stream s.fs ++ x := by
  obtain rfl := Host.Outcome.next.inj h
  have hput : stream { s.fs with pend := s.fs.pend ++ x } = stream s.fs ++ x := (List.append_assoc _ _ _).symm
  exact (topUp_stream (f := { s.fs with pend := s.fs.pend ++ x }) hf.bufHolds).trans hput

theorem execFsFindsync_stream {s t : State} (hf : FsCore s.par s.fs) (h : execFsFindsync s = .next t) :
    ∃ k, stream t.fs = (stream s.fs).drop k := by
  obtain ⟨r, hr, rfl⟩ := finish_eq_next h
  exact searchLoop_drops hf hr

theorem execFsUpdate_stream {s t : State} (hf : FsCore s.par s.fs) (h : execFsUpdate s = .next t) :
    stream t.fs = stream s.fs := by
  obtain rfl | ⟨soft, rfl⟩ := execFsUpdate_cases h <;> exact topUp_stream hf.bufHolds

/-- Every command but `FS.PUT`, `FS.FINDSYNC` and a reset of the unit leaves the stream. -/
theorem exec_stream_eq {i : Instr} {s t : State} (hf : FsCore s.par s.fs) (h : exec i s = .next t)
    (hput : ∀ x, i ≠ .fsPut x) (hfind : i ≠ .fsFindsync) (hreset : ∀ m, i = .reset m → m.getLsbD 1 = false) :
    stream t.fs = stream s.fs := by
  cases i with
  | reset m =>
    obtain rfl := exec_reset_eq h
    exact congrArg stream (resetUnits_fs_unnamed (hreset m rfl) s)
  | fsPut x => exact absurd rfl (hput x)
  | fsUpdate => exact execFsUpdate_stream hf h
  | fsFindsync => exact absurd rfl hfind
  | fsGetframe => obtain rfl | ⟨d, rfl⟩ := execFsGetframe_cases h <;> rfl
  | fsGetber | fsStatus => exact Host.Outcome.next.inj h ▸ rfl
  | rot x pl | crClr | crAddw pl | crRun pl | crGet r | diPush pl | diPop | dsCfg g | dsApply pl =>
    exact congrArg stream (exec_fs_eq h (by simp [unitNumber_eq]) (by simp [unitNumber_eq]))

/-! ### The queue of frames -/

/-- 43_deinterleaver.md R224: a complete frame goes to the end of the queue. -/
theorem accumulate_outq {y : Byte} {d d' : Di} (h : accumulate y d = .ok d') : d.outq <+: d'.outq := by
  unfold accumulate at h
  simp only at h
  split at h
  · split at h
    · cases h
    · obtain rfl := Except.ok.inj h
      exact List.prefix_append d.outq _
  · obtain rfl := Except.ok.inj h
    exact List.prefix_rfl

theorem emit_outq {y : Byte} {d d' : Di} (h : emit y d = .ok d') : d.outq <+: d'.outq := by
  unfold emit at h
  split at h
  · exact accumulate_outq h
  · split at h
    · exact accumulate_outq (d := markSynced d) h
    · exact Except.ok.inj h ▸ List.prefix_rfl

theorem diStep_outq {p : Params} {x : Byte} {d d' : Di} (h : diStep p x d = .ok d') : d.outq <+: d'.outq := by
  unfold diStep at h
  split at h
  · cases h
  · exact (emit_outq h :)

theorem diSteps_outq {p : Params} {xs : List Byte} {d d' : Di} (h : diSteps p xs d = .ok d') : d.outq <+: d'.outq := by
  induction xs generalizing d with
  | nil => exact Except.ok.inj h ▸ List.prefix_rfl
  | cons x xs ih =>
    rw [diSteps] at h
    split at h
    · cases h
    · rename_i d1 h1
      exact (diStep_outq h1).trans (ih h)

theorem execDiPop_outq {s t : State} (h : execDiPop s = .next t) : t.di.outq = s.di.outq.drop 1 := by
  obtain rfl := Host.Outcome.next.inj h
  cases hq : s.di.outq with
  | nil => exact hq
  | cons v rest => rfl

/-- Every command but `DI.POP` and a reset of the unit keeps the queued frames in place. -/
theorem exec_outq_prefix {i : Instr} {s t : State} (h : exec i s = .next t) (hpop : i ≠ .diPop)
    (hreset : ∀ m, i = .reset m → m.getLsbD 2 = false) : s.di.outq <+: t.di.outq := by
  cases i with
  | reset m =>
    obtain rfl := exec_reset_eq h
    rw [respond_di, resetUnits_di_unnamed (hreset m rfl)]
  | diPush pl =>
    obtain ⟨d, hd, rfl⟩ := finish_eq_next h
    exact diSteps_outq hd
  | diPop => exact absurd rfl hpop
  | rot x pl | crClr | crAddw pl | crRun pl | crGet r | fsPut pl | fsUpdate | fsFindsync | fsGetframe | fsGetber | fsStatus
  | dsCfg g | dsApply pl =>
    rw [exec_di_eq h (by simp [unitNumber_eq]) (by simp [unitNumber_eq])]

/-- Settles O50: `TopUp` keeps the stream and each turn of a search drops its oldest soft bits only; a frame joins the queue at its
end. -/
theorem nothingIsDropped : Obligations.NothingIsDropped := by
  intro i s t hf h
  refine ⟨?_, ?_, exec_stream_eq hf h, exec_outq_prefix h, ?_⟩
  · rintro x rfl
    exact execFsPut_stream hf h
  · rintro rfl
    exact execFsFindsync_stream hf h
  · rintro rfl
    exact execDiPop_outq h

end Sys2Proof.Machine
end

/-! The decoder and the encoder (30_encoding.md R91 to R100): each is the inverse of the other, and the rows of spec/opcode_table.json
say which headers are accepted. -/
section
namespace Sys2Proof
open Sys2Proof.Machine Sys2Proof.Spec

/-! ### Decoding what was encoded -/

/-- Settles O1: command by command, the encoder's header passes the checks of R96 and its operands are assembled again. -/
theorem decodeOfEncode : Obligations.DecodeOfEncode := by
  intro i rest hw
  cases i with
  | reset m => exact Laws.RoundTrip.reset m hw rest
  | rot x pl => exact Laws.RoundTrip.rot x pl hw rest
  | crClr => exact Laws.RoundTrip.crClr hw rest
  | crAddw pl => exact Laws.RoundTrip.crAddw pl hw rest
  | crRun pl => exact Laws.RoundTrip.crRun pl hw rest
  | crGet r => exact Laws.RoundTrip.crGet r hw rest
  | fsPut pl => exact Laws.RoundTrip.fsPut pl hw rest
  | fsUpdate => exact Laws.RoundTrip.fsUpdate hw rest
  | fsFindsync => exact Laws.RoundTrip.fsFindsync hw rest
  | fsGetframe => exact Laws.RoundTrip.fsGetframe hw rest
  | fsGetber => exact Laws.RoundTrip.fsGetber hw rest
  | fsStatus => exact Laws.RoundTrip.fsStatus hw rest
  | diPush pl => exact Laws.RoundTrip.diPush pl hw rest
  | diPop => exact Laws.RoundTrip.diPop hw rest
  | dsCfg g => exact Laws.RoundTrip.dsCfg g hw rest
  | dsApply pl => exact Laws.RoundTrip.dsApply pl hw rest

/-! ### Encoding what was decoded -/

@[simp] theorem opcode_build (o : Opcode) (arg : Byte) (payload : List Byte) : (o.build arg payload).opcode = o := by
  cases o <;> rfl

theorem argMask_of_reserved : ∀ arg : Byte, arg &&& 0xF0 = 0 → (argMask arg).setWidth 8 = arg := by decide

theorem argHyp_of_reserved : ∀ arg : Byte, arg &&& 0xF8 = 0 → BitVec.ofNat 8 (argHyp arg).val = arg := by decide

theorem argOk_iff {o : Opcode} {arg : Byte} :
    o.argOk arg = true ↔ arg &&& o.argReserved = 0 ∧ (o = .dsCfg → arg ≠ 0) := by
  simp [Opcode.argOk, Decidable.imp_iff_not_or]

/-- 30_encoding.md R100: with the reserved bits 0, the operand is all of `ARG`. -/
theorem arg_build {o : Opcode} {arg : Byte} (ha : arg &&& o.argReserved = 0) (payload : List Byte) :
    (o.build arg payload).arg = arg := by
  cases o with
  | reset => exact argMask_of_reserved arg ha
  | rot => exact argHyp_of_reserved arg ha
  | crGet | dsCfg => rfl
  | crClr | crAddw | crRun | fsPut | fsUpdate | fsFindsync | fsGetframe | fsGetber | fsStatus | diPush | diPop | dsApply =>
    exact (ha.symm.trans BitVec.and_allOnes)

/-- 30_encoding.md R95: a row whose command carries no payload has `LEN` 0. -/
theorem payload_build {o : Opcode} {len : Word32} {payload : List Byte} (hlen : o.lenOk len = true)
    (hl : payload.length = len.toNat) (arg : Byte) : (o.build arg payload).payload = payload := by
  cases o with
  | rot | crAddw | crRun | fsPut | diPush | dsApply => rfl
  | reset | crClr | crGet | fsUpdate | fsFindsync | fsGetframe | fsGetber | fsStatus | diPop | dsCfg =>
    obtain rfl : len = 0 := eq_of_beq hlen
    exact (List.eq_nil_of_length_eq_zero hl).symm

theorem payloadFits_of_length {len : Word32} {payload : List Byte} (hl : payload.length = len.toNat) :
    payloadFits payload = true :=
  decide_eq_true (hl ▸ len.isLt)

theorem wellFormed_build {o : Opcode} {arg : Byte} {len : Word32} {payload : List Byte} (ha : o.argOk arg = true)
    (hlen : o.lenOk len = true) (hl : payload.length = len.toNat) : (o.build arg payload).wellFormed = true := by
  have hfits := payloadFits_of_length hl
  cases o with
  | rot =>
    have heven : payload.length % 2 = 0 := hl ▸ eq_of_beq hlen
    exact Bool.and_eq_true_iff.mpr ⟨hfits, decide_eq_true heven⟩
  | dsCfg => exact decide_eq_true ((argOk_iff.mp ha).2 rfl)
  | crAddw | crRun | fsPut | diPush | dsApply => exact hfits
  | reset | crClr | crGet | fsUpdate | fsFindsync | fsGetframe | fsGetber | fsStatus | diPop => rfl

/-- The encoder writes the header that the command was assembled from. -/
theorem encode_build {h : Header} {o : Opcode} {payload : List Byte} (hop : h.op = o.byte) (hrsv : h.rsv = 0)
    (ha : o.argOk h.arg = true) (hlen : o.lenOk h.len = true) (hl : payload.length = h.len.toNat) :
    encode (o.build h.arg payload) = headerBytes h ++ payload := by
  have hw : BitVec.ofNat 32 payload.length = h.len := by rw [hl, BitVec.ofNat_toNat, BitVec.setWidth_eq]
  rw [encode, opcode_build, arg_build (argOk_iff.mp ha).1, payload_build hlen hl, hw, ← hop, ← hrsv]

/-- Settles O2: what an accepted header can be is fixed by the checks of R96, and the encoder writes it again. -/
theorem encodeOfDecode : Obligations.EncodeOfDecode := by
  intro port i rest h
  obtain ⟨hd, o, payload, hport, hl, hop, hrsv, ha, hlen, rfl⟩ := checks_of_decode h
  refine ⟨wellFormed_build ha hlen hl, ?_⟩
  rw [hport, encode_build hop hrsv ha hlen hl, List.append_assoc]

end Sys2Proof
end

/-! The rows of spec/opcode_table.json and the commands that have not arrived whole (30_encoding.md R91 to R100). -/
section
namespace Sys2Proof
open Sys2Proof.Machine Sys2Proof.Spec

/-! ### The bytes of a command -/

/-- 30_encoding.md R91: the two ways to write a 32-bit field. -/
theorem be32_eq_u32 (x : Word32) : be32 x = u32 x.toNat := by
  have hb (k : Nat) : x.extractLsb' k 8 = BitVec.ofNat 8 (x.toNat / 2 ^ k) := by
    apply BitVec.eq_of_toNat_eq
    rw [BitVec.extractLsb'_toNat, BitVec.toNat_ofNat, Nat.shiftRight_eq_div_pow]
  simp only [be32, hb, u32, List.map_cons, List.map_nil]

theorem commandBytes_eq (h : Header) (payload : List Byte) : commandBytes h payload = headerBytes h ++ payload := by
  have hb (k : Nat) : h.rsv.extractLsb' k 8 = BitVec.ofNat 8 (h.rsv.toNat / 2 ^ k) := by
    apply BitVec.eq_of_toNat_eq
    rw [BitVec.extractLsb'_toNat, BitVec.toNat_ofNat, Nat.shiftRight_eq_div_pow]
  rw [headerBytes, hb, hb, be32_eq_u32, Nat.pow_zero, Nat.div_one]
  rfl

theorem takeHeader_of_short {port : List Byte} (h : port.length < 8) : takeHeader port = none := by
  cases ht : takeHeader port with
  | none => rfl
  | some hr =>
    rw [headerBytes_takeHeader ht, List.length_append, length_headerBytes] at h
    omega

theorem decode_of_short {port : List Byte} (h : port.length < 8) : decode port = .incomplete := by
  rw [decode, takeCommand, takeHeader_of_short h]

/-- 30_encoding.md R92: the payload has not arrived whole. -/
theorem decode_of_partial {h : Header} {part : List Byte} (hl : part.length < h.len.toNat) :
    decode (commandBytes h part) = .incomplete := by
  rw [decode, takeCommand, commandBytes_eq, takeHeader_headerBytes]
  simp only [Nat.not_le.mpr hl, if_false]

/-! ### What the decoder answers to a whole command -/

theorem decode_of_ok {h : Header} {payload : List Byte} (hl : payload.length = h.len.toNat) (rest : List Byte) {i : Instr}
    (hd : decodeCommand ⟨h, payload⟩ = .ok i) : decode (commandBytes h payload ++ rest) = .command i rest := by
  rw [decode, commandBytes_eq, List.append_assoc, takeCommand_bytes h hl]
  simp only [hd]

theorem decode_of_error {h : Header} {payload : List Byte} (hl : payload.length = h.len.toNat) (rest : List Byte)
    {e : ErrorCode} (hd : decodeCommand ⟨h, payload⟩ = .error e) : decode (commandBytes h payload ++ rest) = .rejected e rest := by
  rw [decode, commandBytes_eq, List.append_assoc, takeCommand_bytes h hl]
  simp only [hd]

/-- 30_encoding.md R96: a command is accepted when its header passes the checks of its row. -/
theorem decodeCommand_eq_ok {c : Command} {i : Instr} (h : decodeCommand c = .ok i) :
    ∃ o : Opcode, (c.header.op = o.byte ∧ c.header.rsv = 0 ∧ o.argOk c.header.arg = true ∧ o.lenOk c.header.len = true) ∧
      i = o.build c.header.arg c.payload := by
  revert h
  fun_cases decodeCommand c with
  | case1 | case2 | case3 | case4 => intro h; cases h
  | case5 o hop hrsv ha hlen =>
    intro h
    exact ⟨o, ⟨byte_of_opcodeOf hop, not_not.mp hrsv, Bool.not_eq_false _ ▸ ha, Bool.not_eq_false _ ▸ hlen⟩,
      (Except.ok.inj h).symm⟩

/-- The decoder accepts a whole command as one of row `o` exactly when its header passes the checks of that row. -/
theorem decodes_to_row_iff {o : Opcode} {h : Header} {payload rest : List Byte} (hl : payload.length = h.len.toNat) :
    (∃ i, decode (commandBytes h payload ++ rest) = .command i rest ∧ i.opcode = o) ↔
      h.op = o.byte ∧ h.rsv = 0 ∧ o.argOk h.arg = true ∧ o.lenOk h.len = true := by
  constructor
  · rintro ⟨i, hi, rfl⟩
    cases hd : decodeCommand ⟨h, payload⟩ with
    | error e => rw [decode_of_error hl rest hd] at hi; cases hi
    | ok j =>
      rw [decode_of_ok hl rest hd] at hi
      obtain ⟨rfl, -⟩ := Decoded.command.inj hi
      obtain ⟨o, hchecks, rfl⟩ := decodeCommand_eq_ok hd
      rwa [opcode_build]
  · rintro ⟨hop, hrsv, ha, hlen⟩
    refine ⟨o.build h.arg payload, ?_, opcode_build o h.arg payload⟩
    rw [commandBytes_eq, List.append_assoc, decode_of_checks hop hrsv ha hlen hl]

/-! ### Mask and match -/

/-- The bits of `LEN` that a row fixes to 0 (30_encoding.md R95, column `LEN`). -/
def Opcode.lenReserved : Opcode → Word32
  | .reset | .crClr | .crGet | .fsUpdate | .fsFindsync | .fsGetframe | .fsGetber | .fsStatus | .diPop | .dsCfg => BitVec.allOnes 32
  | .rot => 1
  | .crAddw | .crRun | .fsPut | .diPush | .dsApply => 0

theorem and_one_eq_zero_iff (x : Word32) : x &&& 1 = 0 ↔ x.toNat % 2 = 0 := by
  rw [← BitVec.toNat_inj, BitVec.toNat_and]
  exact Nat.and_one_is_mod x.toNat ▸ Iff.rfl

theorem lenOk_iff {o : Opcode} {len : Word32} : o.lenOk len = true ↔ len &&& o.lenReserved = 0 := by
  cases o with
  | rot => exact beq_iff_eq.trans (and_one_eq_zero_iff len).symm
  | crAddw | crRun | fsPut | diPush | dsApply => exact iff_of_true rfl BitVec.and_zero
  | reset | crClr | crGet | fsUpdate | fsFindsync | fsGetframe | fsGetber | fsStatus | diPop | dsCfg =>
    exact beq_iff_eq.trans (by rw [Opcode.lenReserved, BitVec.and_allOnes])

/-- A row of the table, field by field of the header (30_encoding.md R91). -/
theorem tableRow_eq (o : Opcode) :
    tableRow o = (o.byte ++ (0 : Byte) ++ (0 : BitVec 16) ++ (0 : Word32),
      BitVec.allOnes 8 ++ o.argReserved ++ BitVec.allOnes 16 ++ o.lenReserved) := by
  cases o <;> rfl

theorem append_eq_append_iff {m n : Nat} {a a' : BitVec m} {b b' : BitVec n} : a ++ b = a' ++ b' ↔ a = a' ∧ b = b' := by
  refine ⟨fun h => ⟨?_, ?_⟩, fun ⟨ha, hb⟩ => ha ▸ hb ▸ rfl⟩
  · simpa only [BitVec.extractLsb'_append_eq_left] using congrArg (BitVec.extractLsb' n m) h
  · simpa only [BitVec.extractLsb'_append_eq_right] using congrArg (BitVec.extractLsb' 0 n) h

/-- The header word matches a row field by field. -/
theorem matches_row_iff (o : Opcode) (h : Header) :
    headerWord h &&& (tableRow o).2 = (tableRow o).1 ↔
      h.op = o.byte ∧ h.arg &&& o.argReserved = 0 ∧ h.rsv = 0 ∧ h.len &&& o.lenReserved = 0 := by
  rw [tableRow_eq, headerWord, BitVec.and_append, BitVec.and_append, BitVec.and_append, append_eq_append_iff,
    append_eq_append_iff, append_eq_append_iff, BitVec.and_allOnes, BitVec.and_allOnes, and_assoc, and_assoc]

/-- Settles O4: mask and match compare `OP`, the reserved `ARG` bits, `RSV` and the fixed `LEN` bits, which are the checks of the
decoder but for the group size of `DS.CFG`. -/
theorem maskAndMatchSelectTheRow : Obligations.MaskAndMatchSelectTheRow := by
  intro o h payload rest hl
  rw [decodes_to_row_iff hl, matches_row_iff, argOk_iff, lenOk_iff]
  tauto

/-- Settles O3: each of the words decodes by evaluation, and so does each response. -/
theorem wordsOfTheSpecDecode : Obligations.WordsOfTheSpecDecode := by
  unfold Obligations.WordsOfTheSpecDecode
  decide

end Sys2Proof
end

/-! Errors and answers (30_encoding.md R90, R92, R93, R97, 60_exceptions.md R300, R301, R304): the error of a command, what every
command answers, and the step on a whole command. -/
section
namespace Sys2Proof.Machine
open Sys2Proof.Spec

/-! ### The error of a command -/

/-- The command's own error with its condition (60_exceptions.md R301), the first one where it has several (R304). -/
def commandError (s : State) : Instr → Option ErrorCode
  | .rot _ payload => if payload.length % 2 = 1 then some .len else none
  | .crAddw payload =>
    if payload.length ≠ s.par.W then some .len else if s.cr.nw = s.par.rMax then some .full else none
  | .crRun payload => if s.cr.nw = 0 then some .emptyRef else if payload.length < s.par.W then some .shortBuf else none
  | .dsCfg g => if g = 0 then some .illegal else none
  | .dsApply payload => if payload.length ≠ pkt * s.ds.group then some .len else none
  | .reset _ | .crClr | .crGet _ | .fsPut _ | .fsUpdate | .fsFindsync | .fsGetframe | .fsGetber | .fsStatus | .diPush _
  | .diPop => none

theorem commandError_setCmdIn (s : State) (port : List Byte) (i : Instr) :
    commandError { s with cmdIn := port } i = commandError s i := by
  cases i <;> rfl

/-- A command that has an error raises it, whatever the state (60_exceptions.md R300). -/
theorem exec_of_commandError {i : Instr} {s : State} {e : ErrorCode} (h : commandError s i = some e) :
    exec i s = .next (raiseError e s) := by
  cases i with
  | rot x pl =>
    rw [commandError] at h
    split_ifs at h with hodd
    obtain rfl := Option.some.inj h
    rw [exec, execRot, if_pos hodd]
  | crAddw pl =>
    rw [commandError] at h
    split_ifs at h with hlen hfull <;> obtain rfl := Option.some.inj h
    · rw [exec, execCrAddw, if_pos hlen]
    · rw [exec, execCrAddw, if_neg hlen, if_pos hfull]
  | crRun pl =>
    rw [commandError] at h
    split_ifs at h with hempty hshort <;> obtain rfl := Option.some.inj h
    · rw [exec, execCrRun, if_pos hempty]
    · rw [exec, execCrRun, if_neg hempty, if_pos hshort]
  | dsCfg g =>
    rw [commandError] at h
    split_ifs at h with hg
    obtain rfl := Option.some.inj h
    rw [exec, execDsCfg, if_pos hg]
  | dsApply pl =>
    rw [commandError] at h
    split_ifs at h with hlen
    obtain rfl := Option.some.inj h
    rw [exec, execDsApply, if_pos hlen]
  | reset m | crClr | crGet r | fsPut pl | fsUpdate | fsFindsync | fsGetframe | fsGetber | fsStatus | diPush pl | diPop => cases h

/-! ### The answer of a command without an error -/

/-- `r` can answer the command `i` run on `s`: it is not an error, and its payload has the length that opcode and status fix
(30_encoding.md R104 to R119). -/
structure GoodAnswer (s : State) (i : Instr) (r : Response) : Prop where
  noError : ∀ e, r.status ≠ .error e
  length : (∀ v ∈ s.di.outq, v.length = fecFrame) → r.payload.length = responseLength s.par i r.status

theorem GoodAnswer.ok {s : State} {i : Instr} {pl : List Byte} (h : pl.length = responseLength s.par i .ok) :
    GoodAnswer s i ⟨.ok, pl⟩ :=
  ⟨nofun, fun _ => h⟩

theorem GoodAnswer.none {s : State} {i : Instr} {pl : List Byte} (h : pl.length = responseLength s.par i .none) :
    GoodAnswer s i ⟨.none, pl⟩ :=
  ⟨nofun, fun _ => h⟩

/-- A command's next state appends a good answer to the responses of `s`. -/
def AnswersWell (s : State) (i : Instr) (o : Host.Outcome State Fault Refusal) : Prop :=
  ∀ t, o = .next t → ∃ r, t.rspOut = s.rspOut ++ [r] ∧ GoodAnswer s i r

theorem GoodAnswer.answersWell {s : State} {i : Instr} {r : Response} (h : GoodAnswer s i r) {t : State}
    (ht : t.rspOut = s.rspOut ++ [r]) : AnswersWell s i (.next t) :=
  fun _ hn => Host.Outcome.next.inj hn ▸ ⟨r, ht, h⟩

/-- An outcome with a read: only a result that was read can be answered. -/
theorem answersWell_finish {α : Type} {s : State} {i : Instr} {k : α → State} {r : Except Fault α}
    (hk : ∀ a, r = .ok a → AnswersWell s i (.next (k a))) : AnswersWell s i (finish r k) := by
  intro t ht
  obtain ⟨a, ha, rfl⟩ := finish_eq_next ht
  exact hk a ha _ rfl

theorem length_of_readSpace {place : Place} {m : Memory} {a n : Nat} {v : List Byte} (h : readSpace place m a n = .ok v) :
    v.length = n := by
  obtain ⟨w, -, hw, e⟩ | ⟨-, e⟩ := readSpace_cases place m a n
  · exact Except.ok.inj (e.symm.trans h) ▸ hw
  · rw [e] at h; cases h

theorem length_statusRecord (f : Fs) : (statusRecord f).length = 37 := by
  simp [statusRecord, List.length_flatMap]

theorem execCrGet_answersWell (r : Byte) (s : State) : AnswersWell s (.crGet r) (execCrGet r s) := by
  unfold execCrGet
  split
  · split
    · exact nofun
    · exact answersWell_finish fun _ _ => (GoodAnswer.ok rfl).answersWell rfl
  · exact (GoodAnswer.none rfl).answersWell rfl

theorem execFsUpdate_answersWell (s : State) : AnswersWell s .fsUpdate (execFsUpdate s) := by
  unfold execFsUpdate
  split
  · exact (GoodAnswer.none rfl).answersWell rfl
  · exact answersWell_finish fun _ _ => (GoodAnswer.ok rfl).answersWell rfl

theorem searchStatus_answer (s : State) (r : Search) (b : Byte) : GoodAnswer s .fsFindsync ⟨searchStatus r, [b]⟩ := by
  unfold searchStatus
  split
  · exact .ok rfl
  · exact .none rfl

theorem execFsGetframe_answersWell (s : State) : AnswersWell s .fsGetframe (execFsGetframe s) := by
  unfold execFsGetframe
  split
  · exact answersWell_finish fun d hd => (GoodAnswer.ok (length_of_readSpace hd)).answersWell rfl
  · exact (GoodAnswer.none rfl).answersWell rfl

/-- The one answer whose length the invariant fixes: a queued frame (10_state.md R39). -/
theorem execDiPop_answersWell (s : State) : AnswersWell s .diPop (execDiPop s) := by
  unfold execDiPop
  split
  · exact (GoodAnswer.none rfl).answersWell rfl
  · rename_i v rest hq
    have hgood : GoodAnswer s .diPop ⟨.ok, v⟩ := ⟨nofun, fun hlen => hlen v (hq ▸ List.mem_cons_self)⟩
    exact hgood.answersWell rfl

/-- What a command answers when it has no error: `OK` or `NONE`, in the length of 30_encoding.md section 6. -/
theorem exec_answersWell {i : Instr} {s : State} (h : commandError s i = none) : AnswersWell s i (exec i s) := by
  cases i with
  | rot x pl =>
    rw [commandError] at h
    split_ifs at h with hlen
    rw [exec, execRot, if_neg hlen]
    exact (GoodAnswer.ok (length_rotBuf x pl)).answersWell rfl
  | crAddw pl =>
    rw [commandError] at h
    split_ifs at h with hlen hfull
    rw [exec, execCrAddw, if_neg hlen, if_neg hfull]
    exact (GoodAnswer.ok rfl).answersWell rfl
  | crRun pl =>
    rw [commandError] at h
    split_ifs at h with hempty hshort
    rw [exec, execCrRun, if_neg hempty, if_neg hshort]
    exact answersWell_finish fun _ _ => (GoodAnswer.ok rfl).answersWell rfl
  | crGet r => exact execCrGet_answersWell r s
  | fsUpdate => exact execFsUpdate_answersWell s
  | fsFindsync => exact answersWell_finish fun r _ => (searchStatus_answer s r _).answersWell rfl
  | fsGetframe => exact execFsGetframe_answersWell s
  | fsStatus => exact (GoodAnswer.ok (length_statusRecord s.fs)).answersWell rfl
  | diPush pl => exact answersWell_finish fun _ _ => (GoodAnswer.ok rfl).answersWell rfl
  | diPop => exact execDiPop_answersWell s
  | dsCfg g =>
    rw [commandError] at h
    split_ifs at h with hg
    rw [exec, execDsCfg, if_neg hg]
    split
    · exact (GoodAnswer.ok rfl).answersWell rfl
    · exact (GoodAnswer.ok rfl).answersWell rfl
  | dsApply pl =>
    rw [commandError] at h
    split_ifs at h with hlen
    rw [exec, execDsApply, if_neg hlen]
    exact answersWell_finish fun _ hks => (GoodAnswer.ok (length_xorBytes (length_of_readSpace hks).symm)).answersWell rfl
  | reset m | crClr | fsPut pl | fsGetber => exact (GoodAnswer.ok rfl).answersWell rfl

/-- Everything a command that ends in a next state can have answered: its error, or a good answer. -/
theorem exec_answer {i : Instr} {s t : State} (h : exec i s = .next t) :
    (∃ e, commandError s i = some e ∧ t = raiseError e s) ∨
    (commandError s i = none ∧ ∃ r, t.rspOut = s.rspOut ++ [r] ∧ GoodAnswer s i r) := by
  cases hc : commandError s i with
  | none => exact .inr ⟨rfl, exec_answersWell hc t h⟩
  | some e => exact .inl ⟨e, rfl, Host.Outcome.next.inj (h.symm.trans (exec_of_commandError hc))⟩

/-! ### The first error of a header -/

theorem opcodeOf_eq_none_iff : ∀ op : Byte, opcodeOf op = none ↔ illegalOp op.toNat = true := by decide

theorem illegalOp_byte (o : Opcode) : illegalOp o.byte.toNat = false := by
  cases o <;> rfl

/-- The rows of which `ARG` is reserved whole. -/
theorem argCheck_crClr : ∀ arg : Byte, (arg.toNat != 0 || false) = !Opcode.argOk .crClr arg := by decide

/-- Step 3 of 30_encoding.md R96, on the numbers of the header. -/
theorem argCheck_eq (o : Opcode) (arg : Byte) :
    (reservedArg o.byte.toNat arg.toNat || (o.byte.toNat == 0x50 && arg.toNat == 0)) = !o.argOk arg := by
  cases o with
  | reset | rot | dsCfg => revert arg; decide
  | crGet => simp [reservedArg, Opcode.byte, Opcode.argOk, Opcode.argReserved]
  | crClr | crAddw | crRun | fsPut | fsUpdate | fsFindsync | fsGetframe | fsGetber | fsStatus | diPush | diPop | dsApply =>
    exact argCheck_crClr arg

/-- The rows of which `LEN` is 0. -/
theorem fixedLen_error (len : Word32) :
    (if len.toNat ≠ 0 then some ErrorCode.len else none) = if (len == 0) = false then some ErrorCode.len else none := by
  have hz : len.toNat ≠ 0 ↔ (len == 0) = false := (not_congr (BitVec.toNat_inj (y := 0))).trans beq_eq_false_iff_ne.symm
  simp only [hz]

/-- The last step of the table: the length of the row, then the errors of the command itself (60_exceptions.md R304). -/
theorem firstError_of_row {h : Header} {o : Opcode} {payload : List Byte} (hop : h.op = o.byte)
    (hl : payload.length = h.len.toNat) (s : State) :
    firstError s h =
      if h.rsv ≠ 0 then some .illegal
      else if o.argOk h.arg = false then some .illegal
      else if o.lenOk h.len = false then some .len
      else commandError s (o.build h.arg payload) := by
  rw [firstError, hop, illegalOp_byte, argCheck_eq]
  simp only [Bool.false_eq_true, if_false, Bool.not_eq_true']
  split
  · rfl
  · split
    · rfl
    · rename_i ha
      cases o with
      | rot => simp [Opcode.byte, Opcode.lenOk, Opcode.build, commandError, hl]
      | crAddw | crRun | dsApply => simp [Opcode.byte, Opcode.lenOk, Opcode.build, commandError, hl]
      | fsPut | diPush => rfl
      | dsCfg =>
        have hg : h.arg ≠ 0 := (argOk_iff.mp (by simpa using ha)).2 rfl
        rw [Opcode.build, commandError, if_neg hg]
        exact fixedLen_error h.len
      | reset | crClr | crGet | fsUpdate | fsFindsync | fsGetframe | fsGetber | fsStatus | diPop => exact fixedLen_error h.len


theorem decodeCommand_of_row {h : Header} {o : Opcode} (hop : h.op = o.byte) (payload : List Byte) :
    decodeCommand ⟨h, payload⟩ =
      if h.rsv ≠ 0 then .error .illegal
      else if o.argOk h.arg = false then .error .illegal
      else if o.lenOk h.len = false then .error .len
      else .ok (o.build h.arg payload) := by
  simp only [decodeCommand, hop, opcodeOf_byte]

/-- The first error of a header is the error the decoder rejects it with, or else the error of the command decoded. -/
theorem firstError_cases (s : State) {h : Header} {payload : List Byte} (hl : payload.length = h.len.toNat) :
    (∃ e, decodeCommand ⟨h, payload⟩ = .error e ∧ firstError s h = some e) ∨
    (∃ i, decodeCommand ⟨h, payload⟩ = .ok i ∧ firstError s h = commandError s i) := by
  cases hop : opcodeOf h.op with
  | none =>
    refine .inl ⟨.illegal, by simp only [decodeCommand, hop], ?_⟩
    rw [firstError, if_pos ((opcodeOf_eq_none_iff h.op).mp hop)]
  | some o =>
    rw [firstError_of_row (byte_of_opcodeOf hop) hl s, decodeCommand_of_row (byte_of_opcodeOf hop) payload]
    split_ifs with hrsv ha hlen
    · exact .inl ⟨.illegal, rfl, rfl⟩
    · exact .inl ⟨.illegal, rfl, rfl⟩
    · exact .inl ⟨.len, rfl, rfl⟩
    · exact .inr ⟨o.build h.arg payload, rfl, rfl⟩

/-! ### The step on a whole command -/

theorem step_of_ok {s : State} {h : Header} {payload rest : List Byte} (hp : OnPort s h payload rest) {i : Instr}
    (hd : decodeCommand ⟨h, payload⟩ = .ok i) : step s = exec i { s with cmdIn := rest } :=
  stepRunsTheDecodedCommand s i rest hp.pin (by rw [hp.port, decode_of_ok hp.whole rest hd])

theorem step_of_rejected {s : State} {e : ErrorCode} {rest : List Byte} (hpin : s.rstPin = false)
    (hd : decode s.cmdIn = .rejected e rest) : step s = .next (answered { s with cmdIn := rest } (.error e) []) := by
  have hwork : nextWork s = .rejected (answered { s with cmdIn := rest } (.error e) []) := by
    rw [nextWork, hpin, hd]
    rfl
  rw [step, hwork]

theorem step_of_incomplete {s : State} (hpin : s.rstPin = false) (hd : decode s.cmdIn = .incomplete) : step s = .next s := by
  have hwork : nextWork s = .idle := by
    rw [nextWork, hpin, hd]
    rfl
  rw [step, hwork]

theorem step_of_error {s : State} {h : Header} {payload rest : List Byte} (hp : OnPort s h payload rest) {e : ErrorCode}
    (hd : decodeCommand ⟨h, payload⟩ = .error e) : step s = .next (answered { s with cmdIn := rest } (.error e) []) :=
  step_of_rejected hp.pin (by rw [hp.port, decode_of_error hp.whole rest hd])

/-- A command with an error is answered with its first one, and nothing else changes (60_exceptions.md R300, R304). -/
theorem step_of_firstError {s : State} {h : Header} {payload rest : List Byte} (hp : OnPort s h payload rest) {e : ErrorCode}
    (he : firstError s h = some e) : step s = .next (answered { s with cmdIn := rest } (.error e) []) := by
  obtain ⟨e', hd, hfirst⟩ | ⟨i, hd, hfirst⟩ := firstError_cases s hp.whole
  · obtain rfl : e' = e := Option.some.inj (hfirst.symm.trans he)
    exact step_of_error hp hd
  · have hc : commandError { s with cmdIn := rest } i = some e := (commandError_setCmdIn s rest i).trans (hfirst.symm.trans he)
    exact (step_of_ok hp hd).trans (exec_of_commandError hc)

/-- Settles O5: an illegal `OP`, `RSV` or `ARG` is the first error of its header. -/
theorem illegalCommandsAreConsumedAndAnswered : Obligations.IllegalCommandsAreConsumedAndAnswered := by
  intro s h payload rest hp hill
  refine step_of_firstError hp ?_
  rw [firstError]
  by_cases hop : illegalOp h.op.toNat = true
  · rw [if_pos hop]
  · by_cases hrsv : h.rsv ≠ 0
    · rw [if_neg hop, if_pos hrsv]
    · have harg : reservedArg h.op.toNat h.arg.toNat = true := (hill.resolve_left hop).resolve_left hrsv
      rw [if_neg hop, if_neg hrsv, harg, Bool.true_or, if_pos rfl]

/-- What a whole command without an error leads to in a state that meets the invariant: its answer, after the earlier ones. -/
theorem step_of_noError {s : State} {h : Header} {payload rest : List Byte} (hp : OnPort s h payload rest) (hi : Inv s)
    {i : Instr} (hd : decodeCommand ⟨h, payload⟩ = .ok i) (hc : commandError s i = none) :
    ∃ t r, step s = .next t ∧ t.cmdIn = rest ∧ t.rspOut = s.rspOut ++ [r] ∧ GoodAnswer s i r := by
  have hc' : commandError { s with cmdIn := rest } i = none := (commandError_setCmdIn s rest i).trans hc
  obtain ⟨t, ht, -⟩ := exec_inv i (hi.setCmdIn rest)
  obtain ⟨r, hr, hgood⟩ := exec_answersWell hc' t ht
  obtain ⟨u, st, pl, hu, rfl⟩ := exec_answersOnce i _ t ht
  obtain ⟨hcmd, -, -⟩ := hu.ports_eq
  exact ⟨_, r, (step_of_ok hp hd).trans ht, hcmd, hr, ⟨hgood.noError, hgood.length⟩⟩

/-- Settles O6: the checks of the decoder and then the command's own errors, in the order of the table; a command without one gets a
good answer. -/
theorem errorsAreTheFirstOfTheTable : Obligations.ErrorsAreTheFirstOfTheTable := by
  intro s h payload rest hp
  refine ⟨fun e he => step_of_firstError hp he, fun hnone hi => ?_⟩
  obtain ⟨e, -, hfirst⟩ | ⟨i, hd, hfirst⟩ := firstError_cases s hp.whole
  · rw [hfirst] at hnone; cases hnone
  · obtain ⟨t, r, ht, hcmd, hrsp, hgood⟩ := step_of_noError hp hi hd (hfirst.symm.trans hnone)
    exact ⟨t, r, ht, hcmd, hrsp, hgood.noError⟩

/-- Settles O7: a command with an error is answered with its status alone, any other with a good answer, whose length the invariant
fixes for a queued frame too. -/
theorem everyCommandIsAnsweredOnce : Obligations.EveryCommandIsAnsweredOnce := by
  intro s h payload rest hp hi
  cases hfirst : firstError s h with
  | some e => exact ⟨_, ⟨.error e, []⟩, step_of_firstError hp hfirst, rfl, rfl, fun _ _ => rfl, fun _ _ => rfl⟩
  | none =>
    obtain ⟨e, -, he⟩ | ⟨i, hd, he⟩ := firstError_cases s hp.whole
    · rw [he] at hfirst; cases hfirst
    · obtain ⟨t, r, ht, hcmd, hrsp, hgood⟩ := step_of_noError hp hi hd (he.symm.trans hfirst)
      refine ⟨t, r, ht, hcmd, hrsp, fun e he => absurd he (hgood.noError e), fun j hj => ?_⟩
      rw [hp.port, decode_of_ok hp.whole rest hd] at hj
      obtain ⟨rfl, -⟩ := Decoded.command.inj hj
      exact hgood.length hi.di.outqFrames

@[simp] theorem length_commandBytes (h : Header) (payload : List Byte) : (commandBytes h payload).length = 8 + payload.length := by
  rw [commandBytes_eq, List.length_append, length_headerBytes]

/-- Settles O10: the decoder finds no whole command in fewer than 8 bytes or beside a payload that is too short, and takes exactly
header and payload of a whole one. -/
theorem incompleteCommandWaits : Obligations.IncompleteCommandWaits := by
  refine ⟨fun s hpin hlt => step_of_incomplete hpin (decode_of_short hlt), fun s h part hpin hport hlt => ?_,
    fun s h payload rest hp hi => ?_⟩
  · exact step_of_incomplete hpin (hport ▸ decode_of_partial hlt)
  · obtain ⟨t, r, ht, hcmd, -⟩ := everyCommandIsAnsweredOnce s h payload rest hp hi
    refine ⟨t, ht, hcmd, ?_⟩
    rw [hcmd, hp.port, List.length_append, length_commandBytes, hp.whole]
    omega

/-! ### Status codes -/

/-- The rows of the table of 30_encoding.md R93. -/
def allStatuses : List Status :=
  [.ok, .none, .error .illegal, .error .emptyRef, .error .shortBuf, .error .len, .error .full]

theorem mem_allStatuses (x : Status) : x ∈ allStatuses := by
  rcases x with _ | _ | (_ | _ | _ | _ | _) <;> decide

theorem code_injective {x y : Status} (h : x.code = y.code) : x = y := by
  have hall : ∀ x ∈ allStatuses, ∀ y ∈ allStatuses, x.code = y.code → x = y := by decide
  exact hall x (mem_allStatuses x) y (mem_allStatuses y) h

theorem code_bit7_iff (x : Status) : x.code.getLsbD 7 = true ↔ ∃ e, x = .error e := by
  cases x with
  | ok => exact iff_of_false (by decide) nofun
  | none => exact iff_of_false (by decide) nofun
  | error e => exact iff_of_true (by cases e <;> rfl) ⟨e, rfl⟩

/-- The answer of `raiseError` has no payload, and no unit has changed. -/
theorem raiseError_frame {s : State} {rsp : List Response} {e e' : ErrorCode} {payload : List Byte}
    (h : (raiseError e' s).rspOut = rsp ++ [⟨.error e, payload⟩]) (hs : s.rspOut = rsp) : payload = [] := by
  subst hs
  simp only [raiseError_rspOut, List.append_cancel_left_eq, List.cons.injEq, Response.mk.injEq] at h
  exact h.1.2.symm

/-- Settles O8: the codes by evaluation; and the steps that answer an error are those of a rejected command and of a command that
raises its own, neither of which touches a unit. -/
theorem statusCodes : Obligations.StatusCodes := by
  refine ⟨by decide, code_bit7_iff, fun x y => code_injective, fun r => rfl, fun s t e payload h hrsp => ?_⟩
  obtain ⟨-, rfl⟩ | ⟨-, -, rfl⟩ | ⟨-, e', rest, -, rfl⟩ | ⟨-, i, rest, -, hx⟩ := step_cases h
  · simp at hrsp
  · simp at hrsp
  · exact ⟨raiseError_frame hrsp rfl, rfl, rfl, rfl, rfl, rfl⟩
  · obtain ⟨e', -, rfl⟩ | ⟨-, r, hr, hgood⟩ := exec_answer hx
    · exact ⟨raiseError_frame hrsp rfl, rfl, rfl, rfl, rfl, rfl⟩
    · obtain ⟨rfl, -⟩ := List.cons.inj (List.append_cancel_left (hr.symm.trans hrsp))
      exact absurd rfl (hgood.noError e)

end Sys2Proof.Machine
end

/-! What the commands of the rotator, the correlator, the descrambler and `DI.POP` answer (30_encoding.md R104 to R109, R117 to
R119). -/
section
namespace Sys2Proof.Machine
open Sys2Proof.Spec

/-! ### Rotator -/

theorem negSoft_eq_neg : ∀ b : Byte, negSoft b = neg b := by decide

theorem rotSymbol_eq_rot (h : Hyp) (i q : Byte) : rotSymbol h i q = rot h i q := by
  fin_cases h <;> simp [rotSymbol, rot, negSoft_eq_neg]

/-- 40_rotator.md R134: symbol `k` of the rotated buffer. -/
theorem rotBuf_symbol (h : Hyp) (bs : List Byte) {k : Nat} (hk : 2 * k + 1 < bs.length) :
    ((rotBuf h bs).getD (2 * k) 0, (rotBuf h bs).getD (2 * k + 1) 0) = rot h (bs.getD (2 * k) 0) (bs.getD (2 * k + 1) 0) := by
  fun_induction rotBuf h bs generalizing k with
  | case1 i q rest ih =>
    cases k with
    | zero => exact rotSymbol_eq_rot h i q
    | succ k => exact ih (by simp only [List.length_cons] at hk; omega)
  | case2 bs hshort =>
    match bs, hshort with
    | [], _ => cases hk
    | [_], _ => simp at hk
    | i :: q :: rest, hshort => exact absurd rfl (hshort i q rest)

/-- Settles O29: `ROT` answers the rotated buffer, whose symbols are those of the table. -/
theorem rotResult : Obligations.RotResult := by
  intro h payload s
  refine ⟨fun hodd => ?_, fun heven => ⟨rotBuf h payload, ?_, length_rotBuf h payload, fun k hk => rotBuf_symbol h payload hk⟩⟩
  · rw [exec, execRot, if_pos hodd]
    rfl
  · rw [exec, execRot, if_neg (by omega)]
    rfl

/-! ### Correlator -/

/-- Settles O32: by the definition of `CR.CLR`. -/
theorem crClrResult : Obligations.CrClrResult :=
  fun _ => rfl

theorem indexByte_toNat {r : Nat} (h : r < 256) : (indexByte r).toNat = r := by
  rw [indexByte, if_pos h, BitVec.toNat_ofNat, Nat.mod_eq_of_lt h]

theorem getD_set_same {α : Type} {l : List α} {n : Nat} (hn : n < l.length) (a d : α) : (l.set n a).getD n d = a := by
  rw [List.getD_eq_getElem?_getD, List.getElem?_set_self hn, Option.getD_some]

theorem getD_set_other {α : Type} (l : List α) {n r : Nat} (h : r ≠ n) (a d : α) : (l.set n a).getD r d = l.getD r d := by
  rw [List.getD_eq_getElem?_getD, List.getElem?_set_ne h.symm, List.getD_eq_getElem?_getD]

/-- Settles O33: the two errors in their order; else the word at `CR.NW` is written from address 0 on. -/
theorem crAddwResult : Obligations.CrAddwResult := by
  intro payload s hinv
  refine ⟨fun hlen => ?_, fun hlen hfull => ?_, fun hlen hroom => ?_⟩
  · rw [exec, execCrAddw, if_pos hlen]
    rfl
  · rw [exec, execCrAddw, if_neg (not_not.mpr hlen), if_pos hfull]
    rfl
  · have hnw : s.cr.nw < s.cr.word.length := by rw [hinv.wordCount]; exact hroom
    have hword (d : Memory) : (s.cr.word.set s.cr.nw d).getD s.cr.nw [] = d := getD_set_same hnw d []
    refine ⟨_, indexByte s.cr.nw, by rw [exec, execCrAddw, if_neg (not_not.mpr hlen), if_neg (Nat.ne_of_lt hroom)], rfl,
      indexByte_toNat, List.length_set, fun j hj => ?_, fun j hj => ?_, fun r hr => getD_set_other s.cr.word hr _ _⟩
    · exact (congrArg (memByte · j) (hword _)).trans (memByte_memWrite_inside (Nat.zero_le j) (by omega))
    · exact (congrArg (memByte · j) (hword _)).trans (memByte_memWrite_outside (.inr (by omega)))

/-- Settles O35: under the invariant both result registers of a loaded word are there. -/
theorem crGetResult : Obligations.CrGetResult := by
  intro r s hinv
  refine ⟨fun hv hr => ?_, fun hno => ?_⟩
  · obtain ⟨off, best, hoff, hbest, he⟩ := execCrGet_ok hinv hv hr
    refine ⟨off, best, hoff, hbest, ?_⟩
    rw [be32_eq_u32, be32_eq_u32] at he
    exact he
  · have hcond : ¬ (s.cr.valid = true ∧ r.toNat < s.cr.nw) := by
      rintro ⟨hv, hr⟩
      obtain hf | hle := hno
      · rw [hf] at hv; cases hv
      · omega
    rw [exec, execCrGet, if_neg hcond]
    rfl

/-! ### Descrambler -/

/-- Settles O57: group size 0, the current size, and any other with its table. -/
theorem dsCfgResult : Obligations.DsCfgResult := by
  intro g s
  refine ⟨fun hg => ?_, fun hg hsame => ?_, fun hg hnew => ?_⟩
  · rw [exec, execDsCfg, if_pos hg]
    rfl
  · rw [exec, execDsCfg, if_neg hg, if_neg (not_not.mpr hsame)]
    rfl
  · refine ⟨_, by rw [exec, execDsCfg, if_neg hg, if_pos hnew], rfl, ?_⟩
    rw [← keystream_eq_keyTable]
    exact holdsBytes_iff.mpr rfl

/-- The byte of index `k` of two sequences exclusive-ored. -/
theorem xorBytes_getD {x ks : List Byte} {k : Nat} (hx : k < x.length) (hks : k < ks.length) :
    (xorBytes x ks).getD k 0 = x.getD k 0 ^^^ ks.getD k 0 := by
  simp [xorBytes, List.getD_eq_getElem?_getD, List.getElem?_zipWith, List.getElem?_eq_getElem hx, List.getElem?_eq_getElem hks]

theorem keyTable_getD {p : Params} {g k : Nat} (hk : k < 188 * g) : (keyTable p g).getD k 0 = keyByte p k := by
  simp [keyTable, List.getD_eq_getElem?_getD, List.getElem?_range hk]

/-- Settles O58: a group is exclusive-ored with the table that the invariant says the unit holds. -/
theorem dsApplyResult : Obligations.DsApplyResult := by
  intro payload s hinv
  refine ⟨fun hlen => ?_, fun hlen => ?_⟩
  · rw [exec, execDsApply, if_pos hlen]
    rfl
  · have hks : (keyTable s.par s.ds.group).length = payload.length := by
      rw [← keystream_eq_keyTable, length_keystream, hlen]
    refine ⟨_, execDsApply_group hinv hlen, ?_, fun k hk => ?_⟩
    · rw [keystream_eq_keyTable, length_xorBytes hks.symm]
    · rw [keystream_eq_keyTable, xorBytes_getD hk (by omega), keyTable_getD (by omega)]

/-! ### `DI.POP` -/

/-- Settles O54: the queue is empty or has a first frame. -/
theorem diPopResult : Obligations.DiPopResult := by
  refine ⟨fun s hq => ?_, fun s v rest hq => ?_⟩
  · rw [exec, execDiPop, hq]
    rfl
  · rw [exec, execDiPop, hq]
    rfl

/-! ### The legal commands with no effect -/

/-- Writing no byte: the cells below an address, then those from it on. -/
theorem memWrite_nil_of_wf {m : Memory} (h : memWf m) (a : Nat) : memWrite m a [] = m := by
  simp only [memWrite, cellsAt_nil, List.append_nil, List.length_nil, Nat.add_zero]
  induction m with
  | nil => rfl
  | cons c m ih =>
    obtain ⟨hc, hm⟩ := List.pairwise_cons.mp h
    by_cases ha : c.1 < a
    · simpa [ha] using ih hm
    · have hlt : ∀ x ∈ m, ¬ x.1 < a := fun x hx => by have := hc x hx; omega
      have hnone : m.filter (fun x => decide (x.1 < a)) = [] := List.filter_eq_nil_iff.mpr (by simpa using hlt)
      have hall : m.filter (fun x => decide (a ≤ x.1)) = m := List.filter_eq_self.mpr (by simpa using hlt)
      simp [ha, Nat.not_lt.mp ha, hnone, hall]

/-- `TopUp` with nothing to move (42_framesync.md R162). -/
theorem topUp_of_settled {p : Params} {f : Fs} (h : FsCore p f) (hs : f.pend = [] ∨ f.pos = p.C) : topUp p f = f := by
  have hn : min f.pend.length (p.C - f.pos) = 0 := by
    obtain h0 | hfull := hs
    · rw [h0, List.length_nil, Nat.zero_min]
    · rw [hfull, Nat.sub_self, Nat.min_zero]
  simp only [topUp, hn, List.take_zero, List.drop_zero, Nat.add_zero, memWrite_nil_of_wf (memWf_of_holdsBelow h.bufHolds)]

/-- Settles O23: no unit is named, no byte is moved, pushed or rotated. -/
theorem emptyCommandsChangeNothing : Obligations.EmptyCommandsChangeNothing := by
  refine fun s => ⟨rfl, fun hcore hs => ?_, rfl, fun _ => rfl⟩
  rw [exec, execFsPut, List.append_nil, topUp_of_settled hcore hs]
  rfl

end Sys2Proof.Machine
end

/-! What the commands of the frame synchronizer answer, but for the search (30_encoding.md R110, R111, R113 to R115). -/
section
namespace Sys2Proof.Machine
open Sys2Proof.Spec

/-! ### `FS.PUT` -/

/-- Settles O36: the top-up of the queue with the payload appended writes the bytes that fit at `FS.POS`. -/
theorem fsPutResult : Obligations.FsPutResult := by
  intro payload s queue n
  have hn : (queue.take n).length = n := List.length_take_of_le (Nat.min_le_left _ _)
  refine ⟨_, rfl, rfl, fun k hk => ?_, fun a ha => ?_, fun hwf h0 => ?_, fun hpos => ?_⟩
  · refine (memByte_memWrite_inside (Nat.le_add_right _ k) (by rw [hn]; omega)).trans ?_
    rw [Nat.add_sub_cancel_left, List.getElem?_take_of_lt hk]
  · exact memByte_memWrite_outside (hn.symm ▸ ha)
  · show memWrite s.fs.buf s.fs.pos (queue.take n) = s.fs.buf
    rw [h0, List.take_zero, memWrite_nil_of_wf hwf]
  · exact topUp_settles s.par (f := { s.fs with pend := queue }) hpos

/-! ### The top-up on the stream of soft bits -/

theorem FsCore.length_bytesOf_buf {p : Params} {f : Fs} (h : FsCore p f) : (bytesOf f.buf).length = f.pos :=
  (holdsBelow_iff.mp h.bufHolds).2

/-- 42_framesync.md R162: as much of the stream as fits stands in the buffer, the rest is pending. -/
theorem topUp_eq {p : Params} {f : Fs} (h : FsCore p f) :
    topUp p f = { f with
      buf := cellsAt 0 ((stream f).take p.C), pend := (stream f).drop p.C, pos := min (stream f).length p.C } := by
  have hlen := h.length_bytesOf_buf
  have hle := h.posLe
  have hbuf : (topUp p f).buf = cellsAt 0 ((stream f).take p.C) := by
    rw [topUp_buf (holdsBelow_iff.mp h.bufHolds).1 hlen, stream, List.take_append, hlen,
      List.take_of_length_le (l := bytesOf f.buf) (by omega)]
  have hpend : (topUp p f).pend = (stream f).drop p.C := by
    rw [topUp_pend, stream, List.drop_append, hlen, List.drop_eq_nil_of_le (as := bytesOf f.buf) (by omega),
      List.nil_append]
    obtain hc | hc := Nat.le_total f.pend.length (p.C - f.pos)
    · rw [Nat.min_eq_left hc, List.drop_length, List.drop_eq_nil_of_le hc]
    · rw [Nat.min_eq_right hc]
  have hpos : (topUp p f).pos = min (stream f).length p.C := by
    rw [topUp_pos, stream, List.length_append, hlen]
    omega
  rw [← hbuf, ← hpend, ← hpos]
  rfl

/-- Too few soft bits for a cycle: all of them stand in the buffer. -/
theorem topUp_of_short {p : Params} {f : Fs} (h : FsCore p f) (hs : (stream f).length < p.C) :
    topUp p f = { f with buf := cellsAt 0 (stream f), pend := [], pos := (stream f).length } := by
  rw [topUp_eq h, List.take_of_length_le (Nat.le_of_lt hs), List.drop_eq_nil_of_le (Nat.le_of_lt hs),
    Nat.min_eq_left (Nat.le_of_lt hs)]

/-- Enough soft bits: the buffer holds the first window of the stream. -/
theorem topUp_of_enough {p : Params} {f : Fs} (h : FsCore p f) (hs : p.C ≤ (stream f).length) :
    topUp p f = { f with buf := cellsAt 0 (window p (stream f) 0), pend := (stream f).drop p.C, pos := p.C } := by
  rw [topUp_eq h, Nat.min_eq_right hs]
  rfl

theorem length_window {p : Params} {soft : List Byte} {k : Nat} (h : k + p.C ≤ soft.length) : (window p soft k).length = p.C := by
  rw [window, List.length_take_of_le]
  rw [List.length_drop]
  omega

/-! ### The decode cycle -/

theorem saturate32_toNat (e : Nat) : (saturate32 e).toNat = min e (2 ^ 32 - 1) := by
  rw [saturate32, BitVec.toNat_ofNat, Nat.mod_eq_of_lt (by omega)]

/-- The decoded set of a cycle, as the statements write it (42_framesync.md R170). -/
theorem mem_decodedSet_iff {f : Fs} {h : Hyp} : h ∈ decodedSet f ↔ tested f 0 h := by
  cases hl : f.locked with
  | true => simp [decodedSet, tested, hl]
  | false => exact iff_of_true (mem_decodedSet_of_unlocked hl h) fun _ hl' => by rw [hl] at hl'; cases hl'

/-- A decode cycle on the buffer `soft` (42_framesync.md R171 to R173). -/
theorem decoded_decodeAll {p : Params} {f : Fs} (hf : FsCore p f) (soft : List Byte) :
    decoded p (tested f 0) soft f (decodeAll p soft f) := by
  refine fun h => ⟨fun ht => ?_, fun ht => ?_⟩
  · have hm := mem_decodedSet_iff.mpr ht
    have hdec : (decodeAll p soft f).dec[h] = cellsAt 0 (frameOn p soft h) := decodeAll_dec_of_mem (hf.decWhole h) hm
    refine ⟨holdsBytes_iff.mpr hdec, ?_, ?_⟩
    · rw [hdec, length_cellsAt, frameOn, length_convDecode]
    · rw [decodeAll_err, if_pos hm, saturate32_toNat]
  · have hm := mt mem_decodedSet_iff.mp ht
    exact ⟨by rw [decodeAll_dec, if_neg hm], by rw [decodeAll_err, if_neg hm]⟩

/-- Settles O38: the top-up leaves too few soft bits, or fills the buffer with the first window, on which the cycle runs. -/
theorem fsUpdateResult : Obligations.FsUpdateResult := by
  intro s hcore
  refine ⟨fun hs => ?_, fun hs => ?_⟩
  · have htop := topUp_of_short hcore hs
    refine ⟨_, by rw [exec, execFsUpdate, htop, if_pos hs], rfl, holdsBytes_iff.mpr rfl⟩
  · have htop := topUp_of_enough hcore hs
    have hfull := decodeCycle_full hcore.topUp.bufHolds (by rw [htop])
    have hcore' := hcore.topUp.toFsCore
    rw [htop, bytesOf, bytesOf_cellsAt] at hfull
    rw [htop] at hcore'
    refine ⟨_, by rw [exec, execFsUpdate, htop, if_neg (Nat.lt_irrefl _), hfull, finish_ok], rfl, holdsBytes_iff.mpr rfl, ?_⟩
    exact decoded_decodeAll hcore' (window s.par (stream s.fs) 0)

/-! ### `FS.GETFRAME`, `FS.GETBER`, `FS.STATUS` -/

theorem execFsGetframe_none {s : State} (h : s.fs.locked = false ∨ s.fs.ready = false) :
    execFsGetframe s = .next (answered s .none []) := by
  have hcond : ¬ (s.fs.locked = true ∧ s.fs.ready = true) := by
    rintro ⟨hl, hr⟩
    obtain hf | hf := h
    · rw [hf] at hl; cases hl
    · rw [hf] at hr; cases hr
  rw [execFsGetframe, if_neg hcond]
  rfl

/-- `FS.GETFRAME` on a ready frame needs no more than the core of the invariant (42_framesync.md R190). -/
theorem execFsGetframe_of_core {s : State} (h : FsCore s.par s.fs) (hl : s.fs.locked = true) (hr : s.fs.ready = true) :
    execFsGetframe s = .next ((s.setFs (clearReady s.fs)).respond .ok (bytesOf s.fs.dec[s.fs.active])) := by
  obtain ⟨hcells, hlen⟩ := holdsBelow_iff.mp (h.lockedDecoded hl)
  have hread : readSpace (.df s.fs.active) s.fs.dec[s.fs.active] 0 s.par.F = .ok (bytesOf s.fs.dec[s.fs.active]) :=
    readSpace_ok ((congrArg (memRead · 0 s.par.F) hcells).trans (hlen ▸ memRead_all _))
  rw [execFsGetframe, if_pos ⟨hl, hr⟩, hread, finish_ok]

/-- Settles O46: the frame of the active hypothesis is whole by the invariant, and without `FS.READY` there is none. -/
theorem getFrameTakesTheFrameOnce : Obligations.GetFrameTakesTheFrameOnce := by
  refine ⟨fun s hcore hl hr => ?_, fun s h => execFsGetframe_none h⟩
  obtain ⟨hcells, hlen⟩ := holdsBelow_iff.mp (hcore.lockedDecoded hl)
  exact ⟨_, _, execFsGetframe_of_core hcore hl hr, rfl, holdsBytes_iff.mpr hcells, hlen, execFsGetframe_none (.inr rfl)⟩

theorem berWord_toNat (p : Params) (f : Fs) :
    (berWord p f).toNat =
      if f.locked = true then (max 0 ((f.err[f.active].toNat : Int) - p.guardCorr)).toNat else p.berSentinel.toNat := by
  have hlt := f.err[f.active].isLt
  rw [berWord]
  split
  · rw [BitVec.toNat_ofNat, Nat.mod_eq_of_lt (by omega)]
    omega
  · rfl

/-- Settles O47: the subtraction of naturals stops at 0 and the difference fits in 32 bits. -/
theorem getBerResult : Obligations.GetBerResult := by
  intro s
  rw [← berWord_toNat, ← be32_eq_u32]
  rfl

/-- 30_encoding.md R115: the fields of the flags byte. -/
theorem statusFlags_fields (f : Fs) :
    (statusFlags f).getLsbD 0 = f.locked ∧ (statusFlags f).getLsbD 1 = f.ready ∧ (statusFlags f).toNat / 4 = f.active.val := by
  have hall : ∀ (locked ready : Bool) (active : Hyp),
      let b : Byte := (0 : BitVec 3) ++ BitVec.ofNat 3 active.val ++ BitVec.ofBool ready ++ BitVec.ofBool locked
      b.getLsbD 0 = locked ∧ b.getLsbD 1 = ready ∧ b.toNat / 4 = active.val := by decide
  exact hall f.locked f.ready f.active

theorem posWord_toNat {n : Nat} (h : n < 2 ^ 32) : (posWord n).toNat = n := by
  rw [posWord, if_pos h, BitVec.toNat_ofNat, Nat.mod_eq_of_lt h]

theorem statusRecord_eq (f : Fs) :
    statusRecord f = statusFlags f :: (u32 (posWord f.pos).toNat ++ (f.err.toList.map (fun e => u32 e.toNat)).flatten) := by
  have hmap : f.err.toList.map be32 = f.err.toList.map (fun e => u32 e.toNat) := List.map_congr_left fun e _ => be32_eq_u32 e
  rw [statusRecord, be32_eq_u32, List.flatMap_def, hmap]

/-- Settles O48: the flags byte field by field, then the words of the record as 32-bit fields. -/
theorem statusResult : Obligations.StatusResult := by
  intro s
  obtain ⟨hlocked, hready, hactive⟩ := statusFlags_fields s.fs
  refine ⟨statusFlags s.fs, (posWord s.fs.pos).toNat, ?_, hlocked, hready, hactive, posWord_toNat⟩
  rw [← statusRecord_eq]
  rfl

end Sys2Proof.Machine
end

/-! The search of `FS.FINDSYNC` (42_framesync.md R170 to R183, 30_encoding.md R112) on the stream of soft bits: a turn tests the first
window of the stream, and each miss drops the oldest soft bit. -/
section
namespace Sys2Proof.Machine
open Sys2Proof.Spec

/-! ### The sync test of a cycle -/

/-- The hypotheses that pass after a cycle on `soft`: those tested whose frame passes (42_framesync.md R176, R179). -/
theorem mem_passing_iff {p : Params} {f : Fs} (hf : FsCore p f) (soft : List Byte) (h : Hyp) :
    h ∈ passing (decodeAll p soft f) ↔ tested f 0 h ∧ passes p soft h := by
  rw [passing, List.mem_filter, decodedSet_decodeAll, mem_decodedSet_iff]
  refine and_congr_right fun ht => ?_
  have hframe : holdsBytes (decodeAll p soft f).dec[h] (frameOn p soft h) := ((decoded_decodeAll hf soft h).1 ht).1
  have hlen : 817 ≤ (frameOn p soft h).length := by
    rw [frameOn, length_convDecode]
    exact p.hF
  exact (syncPresent_iff hframe hlen).trans Nat.lt_succ_iff

/-- `Select` is the smallest member (42_framesync.md R181). -/
theorem selectHyp_eq_some_iff {hyps : List Hyp} {w : Hyp} : selectHyp hyps = some w ↔ w ∈ hyps ∧ ∀ h ∈ hyps, w ≤ h :=
  List.min?_eq_some_iff

/-! ### A turn on the stream -/

/-- The unit after a turn that finds sync on `w` (42_framesync.md R178, R179). -/
def afterFind (p : Params) (f : Fs) (w : Hyp) : Fs :=
  { decodeAll p (window p (stream f) 0) f with
    buf := cellsAt 0 ((window p (stream f) 0).drop (p.C - p.G)), pos := p.G, pend := (stream f).drop p.C
    locked := true, active := w, ready := true }

/-- The unit after a turn that finds none (42_framesync.md R177, R179). -/
def afterMiss (p : Params) (f : Fs) : Fs :=
  { decodeAll p (window p (stream f) 0) f with
    buf := cellsAt 0 ((window p (stream f) 0).drop 1), pos := p.C - 1, pend := (stream f).drop p.C
    locked := false, ready := false }

theorem loseLock_eq {f : Fs} (h : f.ready = true → f.locked = true) :
    loseLock f = { f with locked := false, ready := false } := by
  by_cases hl : f.locked = true
  · rw [loseLock, if_pos hl]
  · have hready : f.ready = false := by simpa using mt h hl
    rw [loseLock, if_neg hl]
    cases f
    simp_all

/-- The soft bits in a full buffer are the first window of the stream. -/
theorem window_of_topUp {p : Params} {f : Fs} (hf : FsCore p f) (hs : p.C ≤ (stream f).length) {soft : List Byte}
    (hb : (topUp p f).buf = cellsAt 0 soft) : soft = window p (stream f) 0 := by
  rw [topUp_of_enough hf hs] at hb
  have := congrArg bytesOf hb
  rwa [bytesOf, bytesOf, bytesOf_cellsAt, bytesOf_cellsAt, eq_comm] at this

/-- A turn on a stream long enough: the first window is tested, and sync is found on the smallest hypothesis that passes. -/
theorem searchTurn_of_enough {p : Params} {f : Fs} (hf : FsCore p f) (hs : p.C ≤ (stream f).length) :
    (∃ w, selectHyp (passing (decodeAll p (window p (stream f) 0) f)) = some w ∧
      searchTurn p f = .ok (.found w (afterFind p f w))) ∨
    (selectHyp (passing (decodeAll p (window p (stream f) 0) f)) = none ∧
      searchTurn p f = .ok (.missed f.locked (afterMiss p f))) := by
  obtain ⟨hc, -⟩ | ⟨soft, -, -, hb, w, hw, e⟩ | ⟨soft, -, -, hb, hw, e⟩ := searchTurn_cases hf
  · rw [topUp_of_enough hf hs] at hc
    exact absurd hc (Nat.lt_irrefl _)
  · obtain rfl := window_of_topUp hf hs hb
    rw [topUp_of_enough hf hs] at hw e
    exact .inl ⟨w, hw, e⟩
  · obtain rfl := window_of_topUp hf hs hb
    rw [loseLock_eq (f := decodeAll p _ (topUp p f)) hf.readyLocked, topUp_of_enough hf hs] at e
    rw [topUp_of_enough hf hs] at hw
    exact .inr ⟨hw, e⟩

theorem stream_afterMiss {p : Params} {f : Fs} (hs : p.C ≤ (stream f).length) : stream (afterMiss p f) = (stream f).drop 1 := by
  have hC : 0 < p.C := Nat.zero_lt_of_lt p.hGC
  have hlen : 1 ≤ (window p (stream f) 0).length := by rw [length_window (by omega)]; exact hC
  rw [stream_of_buf (f := afterMiss p f) rfl]
  exact (List.drop_append_of_le_length hlen).symm.trans (congrArg (List.drop 1) (List.take_append_drop p.C (stream f)))

theorem decoded_afterMiss {p : Params} {f : Fs} (hf : FsCore p f) :
    decoded p (tested f 0) (window p (stream f) 0) f (afterMiss p f) :=
  decoded_decodeAll hf (window p (stream f) 0)

/-- After a miss the unit is unlocked, so every hypothesis is tested from there on (42_framesync.md R170). -/
theorem tested_afterMiss (p : Params) (f : Fs) (k : Nat) (h : Hyp) : tested (afterMiss p f) k h :=
  fun _ hl => nomatch (hl : false = true)

theorem tested_succ (f : Fs) (k : Nat) (h : Hyp) : tested f (k + 1) h :=
  fun hk => nomatch hk

theorem window_drop (p : Params) (soft : List Byte) (k : Nat) : window p (soft.drop 1) k = window p soft (k + 1) := by
  rw [window, window, List.drop_drop, Nat.add_comm]

/-! ### Sync found -/

/-- Window `k` of the stream is the first on which a tested hypothesis passes, and `w` the smallest that does. -/
structure FirstPass (p : Params) (f : Fs) (k : Nat) (w : Hyp) : Prop where
  inStream : k + p.C ≤ (stream f).length
  earlier : ∀ j, j < k → ∀ h, tested f j h → ¬ passes p (window p (stream f) j) h
  isTested : tested f k w
  isPassing : passes p (window p (stream f) k) w
  smallest : ∀ h, h < w → tested f k h → ¬ passes p (window p (stream f) k) h

/-- The unit `g` that a search from `f` leaves which finds sync on `w` in window `k`. -/
structure FoundAt (p : Params) (f : Fs) (k : Nat) (w : Hyp) (g : Fs) : Prop where
  fields : g = { f with
    buf := g.buf, pos := p.G, pend := (stream f).drop (k + p.C), dec := g.dec, err := g.err, locked := true, active := w,
    ready := true }
  guardRegion : holdsBytes g.buf ((window p (stream f) k).drop (p.C - p.G))
  cycle : decoded p (tested f k) (window p (stream f) k) f g

theorem FirstPass.select {p : Params} {f : Fs} {w : Hyp} (h : FirstPass p f 0 w) (hf : FsCore p f) :
    selectHyp (passing (decodeAll p (window p (stream f) 0) f)) = some w := by
  rw [selectHyp_eq_some_iff]
  refine ⟨(mem_passing_iff hf _ w).mpr ⟨h.isTested, h.isPassing⟩, fun x hx => ?_⟩
  obtain ⟨ht, hp⟩ := (mem_passing_iff hf _ x).mp hx
  exact Nat.le_of_not_lt fun hlt => h.smallest x hlt ht hp

/-- No tested hypothesis passes on the first window: the search goes on from the unit after the miss. -/
theorem searchLoop_of_miss {p : Params} {f : Fs} (hf : FsCore p f) (hs : p.C ≤ (stream f).length)
    (hno : ∀ h, tested f 0 h → ¬ passes p (window p (stream f) 0) h) (n : Nat) (loss : Bool) :
    searchLoop p (n + 1) loss f = searchLoop p n (loss || f.locked) (afterMiss p f) ∧ FsCore p (afterMiss p f) := by
  obtain ⟨w, hw, -⟩ | ⟨-, e⟩ := searchTurn_of_enough hf hs
  · obtain ⟨ht, hp⟩ := (mem_passing_iff hf _ w).mp (selectHyp_mem hw)
    exact absurd hp (hno w ht)
  · exact ⟨by rw [searchLoop, e], searchTurn_missed_core hf e⟩

theorem FirstPass.searchTurn {p : Params} {f : Fs} {w : Hyp} (h : FirstPass p f 0 w) (hf : FsCore p f) :
    searchTurn p f = .ok (.found w (afterFind p f w)) := by
  have hs : p.C ≤ (stream f).length := Nat.zero_add p.C ▸ h.inStream
  obtain ⟨v, hv, e⟩ | ⟨hnone, -⟩ := searchTurn_of_enough hf hs
  · obtain rfl : w = v := Option.some.inj ((h.select hf).symm.trans hv)
    exact e
  · rw [h.select hf] at hnone
    cases hnone

theorem foundAt_afterFind {p : Params} {f : Fs} (hf : FsCore p f) (w : Hyp) : FoundAt p f 0 w (afterFind p f w) where
  fields := by rw [Nat.zero_add]; rfl
  guardRegion := holdsBytes_iff.mpr rfl
  cycle := decoded_decodeAll hf (window p (stream f) 0)

/-- After a miss, the windows are those of the stream from the second on. -/
theorem FirstPass.afterMiss {p : Params} {f : Fs} {k : Nat} {w : Hyp} (h : FirstPass p f (k + 1) w) :
    FirstPass p (afterMiss p f) k w := by
  have hlen := h.inStream
  have hstream : stream (Machine.afterMiss p f) = (stream f).drop 1 := stream_afterMiss (by omega)
  refine ⟨?_, fun j hj x _ => ?_, tested_afterMiss p f k w, ?_, fun x hx _ => ?_⟩
  · rw [hstream, List.length_drop]
    omega
  · rw [hstream, window_drop]
    exact h.earlier (j + 1) (by omega) x (tested_succ f j x)
  · rw [hstream, window_drop]
    exact h.isPassing
  · rw [hstream, window_drop]
    exact h.smallest x hx (tested_succ f k x)

theorem decoded_after_miss {p : Params} {f g : Fs} {k : Nat} {soft : List Byte}
    (h : decoded p (tested (afterMiss p f) k) soft (afterMiss p f) g) : decoded p (tested f (k + 1)) soft f g :=
  fun x => ⟨fun _ => (h x).1 (tested_afterMiss p f k x), fun hx => absurd (tested_succ f k x) hx⟩

theorem FoundAt.of_afterMiss {p : Params} {f g : Fs} {k : Nat} {w : Hyp} (hs : p.C ≤ (stream f).length)
    (h : FoundAt p (afterMiss p f) k w g) : FoundAt p f (k + 1) w g := by
  obtain ⟨hfields, hguard, hcycle⟩ := h
  rw [stream_afterMiss hs, window_drop] at hguard hcycle
  rw [stream_afterMiss hs, List.drop_drop, show 1 + (k + p.C) = k + 1 + p.C by omega] at hfields
  exact ⟨hfields, hguard, decoded_after_miss hcycle⟩

/-- The search finds sync in window `k` after `k` misses, the first of which loses the lock if there was one. -/
theorem searchLoop_finds {p : Params} {k n : Nat} {w : Hyp} {f : Fs} (hf : FsCore p f) (hn : k ≤ n) (h : FirstPass p f k w)
    (loss : Bool) :
    ∃ g, searchLoop p n loss f = .ok ⟨g, loss || (decide (k ≠ 0) && f.locked), some w⟩ ∧ FoundAt p f k w g := by
  induction k generalizing n f loss with
  | zero =>
    refine ⟨afterFind p f w, ?_, foundAt_afterFind hf w⟩
    unfold searchLoop
    simp [h.searchTurn hf]
  | succ k ih =>
    obtain ⟨n, rfl⟩ : ∃ m, n = m + 1 := ⟨n - 1, by omega⟩
    have hlen := h.inStream
    have hs : p.C ≤ (stream f).length := by omega
    obtain ⟨hmiss, hcore⟩ := searchLoop_of_miss hf hs (h.earlier 0 (Nat.succ_pos k)) n loss
    obtain ⟨g, hg, hfound⟩ := ih hcore (Nat.le_of_succ_le_succ hn) h.afterMiss (loss || f.locked)
    refine ⟨g, ?_, hfound.of_afterMiss hs⟩
    rw [hmiss, hg]
    simp [afterMiss]

/-! ### No sync -/

/-- No tested hypothesis passes on any window of the stream. -/
def NoPass (p : Params) (f : Fs) : Prop :=
  ∀ j, j + p.C ≤ (stream f).length → ∀ h, tested f j h → ¬ passes p (window p (stream f) j) h

/-- The unit `g` that a search from `f` leaves which misses on the windows `0` to `k`, the last of the stream. -/
structure MissedAll (p : Params) (f : Fs) (k : Nat) (g : Fs) : Prop where
  fields : g = { f with
    buf := g.buf, pos := p.C - 1, pend := [], dec := g.dec, err := g.err, locked := false, ready := false }
  kept : holdsBytes g.buf ((stream f).drop (k + 1))
  cycle : decoded p (tested f k) (window p (stream f) k) f g

theorem NoPass.afterMiss {p : Params} {f : Fs} (h : NoPass p f) (hs : p.C ≤ (stream f).length) : NoPass p (afterMiss p f) := by
  intro j hj x _
  rw [stream_afterMiss hs, List.length_drop] at hj
  rw [stream_afterMiss hs, window_drop]
  have hC : 0 < p.C := Nat.zero_lt_of_lt p.hGC
  exact h (j + 1) (by omega) x (tested_succ f j x)

theorem MissedAll.of_afterMiss {p : Params} {f g : Fs} {k : Nat} (hs : p.C ≤ (stream f).length)
    (h : MissedAll p (afterMiss p f) k g) : MissedAll p f (k + 1) g := by
  obtain ⟨hfields, hkept, hcycle⟩ := h
  rw [stream_afterMiss hs, window_drop] at hcycle
  rw [stream_afterMiss hs, List.drop_drop, Nat.add_comm] at hkept
  exact ⟨hfields, hkept, decoded_after_miss hcycle⟩

/-- A miss on the last window leaves nothing pending. -/
theorem missedAll_afterMiss {p : Params} {f : Fs} (hf : FsCore p f) (hs : (stream f).length = p.C) :
    MissedAll p f 0 (afterMiss p f) where
  fields := by
    have hpend : (afterMiss p f).pend = [] := List.drop_eq_nil_of_le (Nat.le_of_eq hs)
    rw [← hpend]
    rfl
  kept := by
    have hwin : window p (stream f) 0 = stream f := List.take_of_length_le (Nat.le_of_eq hs)
    have hbuf : (afterMiss p f).buf = cellsAt 0 ((window p (stream f) 0).drop 1) := rfl
    rwa [hwin, ← holdsBytes_iff] at hbuf
  cycle := decoded_afterMiss hf

/-- The turn of a search that has too few soft bits ends it. -/
theorem searchLoop_of_short {p : Params} {f : Fs} (hf : FsCore p f) (hs : (stream f).length < p.C) (n : Nat) (loss : Bool) :
    searchLoop p n loss f = .ok ⟨topUp p f, loss, none⟩ := by
  have hpos : (topUp p f).pos < p.C := by rw [topUp_of_short hf hs]; exact hs
  unfold searchLoop
  simp [searchTurn, hpos]

/-- The search that misses on every window: one miss each, then a turn without a full buffer. -/
theorem searchLoop_misses {p : Params} {k n : Nat} {f : Fs} (hf : FsCore p f) (hn : k < n) (hk : (stream f).length = k + p.C)
    (h : NoPass p f) (loss : Bool) :
    ∃ g, searchLoop p n loss f = .ok ⟨g, loss || f.locked, none⟩ ∧ MissedAll p f k g := by
  have hC : 0 < p.C := Nat.zero_lt_of_lt p.hGC
  induction k generalizing n f loss with
  | zero =>
    obtain ⟨n, rfl⟩ : ∃ m, n = m + 1 := ⟨n - 1, by omega⟩
    have hs : (stream f).length = p.C := hk.trans (Nat.zero_add p.C)
    obtain ⟨hmiss, hcore⟩ := searchLoop_of_miss hf hs.ge (h 0 (by omega)) n loss
    have hmissed := missedAll_afterMiss hf hs
    have hlen : (stream (afterMiss p f)).length < p.C := by rw [stream_afterMiss hs.ge, List.length_drop]; omega
    have hpend : (afterMiss p f).pend = [] := by rw [hmissed.fields]
    refine ⟨afterMiss p f, ?_, hmissed⟩
    rw [hmiss, searchLoop_of_short hcore hlen, topUp_of_settled hcore (.inl hpend)]
  | succ k ih =>
    obtain ⟨n, rfl⟩ : ∃ m, n = m + 1 := ⟨n - 1, by omega⟩
    have hs : p.C ≤ (stream f).length := by omega
    obtain ⟨hmiss, hcore⟩ := searchLoop_of_miss hf hs (h 0 (by omega)) n loss
    have hlen : (stream (afterMiss p f)).length = k + p.C := by rw [stream_afterMiss hs, List.length_drop]; omega
    obtain ⟨g, hg, hall⟩ := ih hcore (Nat.lt_of_succ_lt_succ hn) hlen (h.afterMiss hs) (loss || f.locked)
    refine ⟨g, ?_, hall.of_afterMiss hs⟩
    rw [hmiss, hg]
    simp [afterMiss]

/-! ### The command -/

theorem syncByte_some (loss : Bool) (w : Hyp) :
    syncByte loss (some w) = BitVec.ofNat 8 (w.val + if loss = true then 128 else 0) := by
  revert loss w
  decide

theorem syncByte_none (loss : Bool) : syncByte loss none = if loss = true then 0x80 else 0x00 := by
  cases loss <;> rfl

/-- The state of an answered command of the unit, as the statements write it. -/
theorem setFs_respond_eq {s : State} {f g : Fs} (h : f = g) (st : Status) (pl : List Byte) :
    (s.setFs f).respond st pl = { answered s st pl with fs := g } :=
  h ▸ rfl

/-- Settles O41: the first turn finds too few soft bits and tops the buffer up. -/
theorem findSyncWithoutData : Obligations.FindSyncWithoutData := by
  intro s hf hs
  refine ⟨_, by rw [exec, execFsFindsync, findSync, searchLoop_of_short hf hs, finish_ok, topUp_of_short hf hs], ?_,
    holdsBytes_iff.mpr rfl⟩
  have hbyte : (0x00 : Byte) = syncByte false none := (syncByte_none false).symm
  rw [hbyte]
  exact setFs_respond_eq rfl _ _

/-- Settles O42: by induction on the number of windows that are missed before the one that passes. -/
theorem findSyncLocksOnTheFirstPassingWindow : Obligations.FindSyncLocksOnTheFirstPassingWindow := by
  intro s k w hf hin hearlier ht hp hsmall
  have hfuel : k ≤ s.fs.pend.length + 1 := by
    have hpos := hf.posLe
    rw [stream, List.length_append, hf.length_bytesOf_buf] at hin
    omega
  obtain ⟨g, hg, hfields, hguard, hcycle⟩ := searchLoop_finds hf hfuel ⟨hin, hearlier, ht, hp, hsmall⟩ false
  refine ⟨_, by rw [exec, execFsFindsync, findSync, hg, finish_ok], ?_, hguard, hcycle⟩
  have hbyte : syncByte (false || (decide (k ≠ 0) && s.fs.locked)) (some w) =
      BitVec.ofNat 8 (w.val + if k ≠ 0 ∧ s.fs.locked = true then 128 else 0) := by
    simp only [syncByte_some, Bool.false_or, Bool.and_eq_true, decide_eq_true_iff]
  rw [← hbyte]
  exact setFs_respond_eq hfields _ _

/-- Settles O43: by induction on the number of windows, all of which are missed. -/
theorem findSyncFindsNothing : Obligations.FindSyncFindsNothing := by
  intro s hf hs hno
  have hfuel : (stream s.fs).length - s.par.C < s.fs.pend.length + 1 := by
    have hpos := hf.posLe
    rw [stream, List.length_append, hf.length_bytesOf_buf]
    omega
  obtain ⟨g, hg, hfields, hkept, hcycle⟩ := searchLoop_misses hf hfuel (by omega) hno false
  refine ⟨_, by rw [exec, execFsFindsync, findSync, hg, finish_ok], ?_, hkept, hcycle⟩
  rw [← syncByte_none]
  exact setFs_respond_eq hfields _ _

end Sys2Proof.Machine
end

/-! What `DI.PUSH` emits, cuts into frames and leaves (43_deinterleaver.md R221 to R224, 30_encoding.md R116): by induction on the
payload, the branches and the frames apart. -/
section
namespace Sys2Proof.Machine
open Sys2Proof.Spec

/-! ### The frames -/

theorem isSyncByte_eq_isSync : ∀ y : Byte, isSyncByte y = isSync y := by decide

/-- The bytes that are in no whole frame yet (43_deinterleaver.md R224). -/
def unframed (bs : List Byte) : List Byte :=
  bs.drop (204 * (bs.length / 204))

theorem length_unframed (bs : List Byte) : (unframed bs).length = bs.length % 204 := by
  rw [unframed, List.length_drop]
  omega

/-- Frame `k` of a sequence is the same with one more byte after it. -/
theorem cut_append (bs : List Byte) (y : Byte) {k : Nat} (hk : k < bs.length / 204) :
    ((bs ++ [y]).drop (204 * k)).take 204 = (bs.drop (204 * k)).take 204 := by
  rw [List.drop_append_of_le_length (by omega), List.take_append_of_le_length (by rw [List.length_drop]; omega)]

theorem cuts_append_range (bs : List Byte) (y : Byte) :
    (List.range (bs.length / 204)).map (fun k => ((bs ++ [y]).drop (204 * k)).take 204) = cuts bs :=
  List.map_congr_left fun _ hk => cut_append bs y (List.mem_range.mp hk)

/-- A byte that completes no frame. -/
theorem cuts_of_partial {bs : List Byte} {y : Byte} (h : bs.length % 204 + 1 ≠ 204) :
    cuts (bs ++ [y]) = cuts bs ∧ unframed (bs ++ [y]) = unframed bs ++ [y] := by
  have hdiv : (bs ++ [y]).length / 204 = bs.length / 204 := by rw [List.length_append, List.length_singleton]; omega
  refine ⟨?_, ?_⟩
  · rw [cuts, hdiv, cuts_append_range]
  · rw [unframed, hdiv, List.drop_append_of_le_length (by omega), unframed]

/-- A byte that completes a frame. -/
theorem cuts_of_complete {bs : List Byte} {y : Byte} (h : bs.length % 204 + 1 = 204) :
    cuts (bs ++ [y]) = cuts bs ++ [unframed bs ++ [y]] ∧ unframed (bs ++ [y]) = [] := by
  have hdiv : (bs ++ [y]).length / 204 = bs.length / 204 + 1 := by rw [List.length_append, List.length_singleton]; omega
  refine ⟨?_, ?_⟩
  · have hlast : ((bs ++ [y]).drop (204 * (bs.length / 204))).take 204 = unframed bs ++ [y] := by
      rw [List.drop_append_of_le_length (by omega), List.take_of_length_le, unframed]
      rw [List.length_append, List.length_drop, List.length_singleton]
      omega
    rw [cuts, hdiv, List.range_succ, List.map_append, cuts_append_range, List.map_singleton, hlast]
  · rw [unframed, hdiv, List.drop_eq_nil_of_le]
    rw [List.length_append, List.length_singleton]
    omega

/-- The bytes `bs` have gone into frames behind the queue `q`: whole frames queued, the rest under assembly. -/
structure FramesOf (q : List (List Byte)) (bs : List Byte) (d : Di) : Prop where
  frame : holdsBytes d.frame (unframed bs)
  fill : d.fill = bs.length % 204
  outq : d.outq = q ++ cuts bs

theorem FramesOf.frameHolds {q : List (List Byte)} {bs : List Byte} {d : Di} (h : FramesOf q bs d) :
    holdsBelow d.frame d.fill := by
  rw [h.fill, ← length_unframed]
  exact h.frame.1

/-- `Accumulate` puts one more byte into the frames and touches no other element (43_deinterleaver.md R224). -/
theorem FramesOf.accumulate {q : List (List Byte)} {bs : List Byte} {d : Di} (h : FramesOf q bs d) (y : Byte) :
    ∃ d', accumulate y d = .ok d' ∧ FramesOf q (bs ++ [y]) d' ∧
      d'.synced = d.synced ∧ d'.fifo = d.fifo ∧ d'.comm = d.comm := by
  have hbytes : bytesOf d.frame = unframed bs := h.frame.2
  obtain ⟨hc, e⟩ | ⟨hc, e⟩ := accumulate_cases y h.frameHolds
  · have hfull : bs.length % 204 + 1 = 204 := h.fill ▸ hc
    obtain ⟨hcuts, hrest⟩ := cuts_of_complete (y := y) hfull
    refine ⟨_, e, ⟨?_, ?_, ?_⟩, rfl, rfl, rfl⟩
    · rw [hrest]
      exact holdsBytes_iff.mpr rfl
    · show 0 = (bs ++ [y]).length % 204
      rw [List.length_append, List.length_singleton]
      omega
    · rw [hcuts, ← List.append_assoc, ← h.outq, hbytes]
  · have hpart : bs.length % 204 + 1 ≠ 204 := h.fill ▸ hc
    obtain ⟨hcuts, hrest⟩ := cuts_of_partial (y := y) hpart
    refine ⟨_, e, ⟨?_, ?_, ?_⟩, rfl, rfl, rfl⟩
    · rw [hrest, hbytes]
      exact holdsBytes_iff.mpr rfl
    · show d.fill + 1 = (bs ++ [y]).length % 204
      rw [List.length_append, List.length_singleton, h.fill]
      omega
    · rw [hcuts]
      exact h.outq

/-- What is cut into frames of `es`, with one more byte emitted: it is cut too once a sync byte has been seen. -/
theorem framed_append_of_synced {d : Di} {es : List Byte} (h : (d.synced || es.any isSync) = true) (y : Byte) :
    framed d (es ++ [y]) = framed d es ++ [y] := by
  rw [framed, framed]
  by_cases hs : d.synced = true
  · rw [if_pos hs, if_pos hs, List.append_assoc]
  · rw [if_neg hs, if_neg hs, List.dropWhile_append, if_neg]
    simpa [hs] using h

theorem framed_of_unsynced {d : Di} {es : List Byte} (h : (d.synced || es.any isSync) = false) : framed d es = [] := by
  obtain ⟨hs, hes⟩ := Bool.or_eq_false_iff.mp h
  rw [framed, hs, if_neg Bool.false_ne_true, List.dropWhile_eq_nil_iff]
  simpa using hes

theorem framed_append_of_unsynced {d : Di} {es : List Byte} (h : (d.synced || es.any isSync) = false) (y : Byte) :
    framed d (es ++ [y]) = if isSync y = true then [y] else [] := by
  obtain ⟨hs, hes⟩ := Bool.or_eq_false_iff.mp h
  have hnil : es.dropWhile (fun y => !isSync y) = [] := List.dropWhile_eq_nil_iff.mpr (by simpa using hes)
  rw [framed, hs, if_neg Bool.false_ne_true, List.dropWhile_append, hnil, if_pos List.isEmpty_nil]
  by_cases hy : isSync y = true
  · rw [if_pos hy, List.dropWhile_cons_of_neg (by simpa using hy)]
  · rw [if_neg hy, List.dropWhile_cons_of_pos (by simpa using hy), List.dropWhile_nil]

/-- The bytes `es` were emitted from `d`, and `d'` is what became of the frames and of `DI.SYNCED` (43_deinterleaver.md R223). -/
structure EmittedTo (d : Di) (es : List Byte) (d' : Di) : Prop where
  synced : d'.synced = (d.synced || es.any isSync)
  frames : FramesOf d.outq (framed d es) d'

/-- `Emit` emits one more byte and touches no other element. -/
theorem EmittedTo.emit {d d' : Di} {es : List Byte} (h : EmittedTo d es d') (y : Byte) :
    ∃ d'', emit y d' = .ok d'' ∧ EmittedTo d (es ++ [y]) d'' ∧ d''.fifo = d'.fifo ∧ d''.comm = d'.comm := by
  have hany : (d.synced || (es ++ [y]).any isSync) = (d'.synced || isSync y) := by
    rw [h.synced, List.any_append, Bool.or_assoc, List.any_cons, List.any_nil, Bool.or_false]
  unfold Machine.emit
  by_cases hs : d'.synced = true
  · rw [if_pos hs]
    obtain ⟨d'', e, hf, hs'', hfifo, hcomm⟩ := h.frames.accumulate y
    refine ⟨d'', e, ⟨?_, ?_⟩, hfifo, hcomm⟩
    · rw [hany, hs'', hs, Bool.true_or]
    · rw [framed_append_of_synced (h.synced ▸ hs)]
      exact hf
  · have hun : (d.synced || es.any isSync) = false := by rw [← h.synced]; exact Bool.eq_false_iff.mpr hs
    have hframes : FramesOf d.outq [] d' := framed_of_unsynced hun ▸ h.frames
    rw [if_neg hs, isSyncByte_eq_isSync]
    by_cases hy : isSync y = true
    · have hmarked : FramesOf d.outq [] (markSynced d') := ⟨hframes.frame, hframes.fill, hframes.outq⟩
      obtain ⟨d'', e, hf, hs'', hfifo, hcomm⟩ := hmarked.accumulate y
      rw [if_pos hy]
      refine ⟨d'', e, ⟨?_, ?_⟩, hfifo, hcomm⟩
      · rw [hany, hs'', hy, Bool.or_true]
        rfl
      · rw [framed_append_of_unsynced hun, if_pos hy]
        exact hf
    · rw [if_neg hy]
      refine ⟨d', rfl, ⟨?_, ?_⟩, rfl, rfl⟩
      · rw [hany, Bool.eq_false_iff.mpr hy, Bool.or_false]
      · rw [framed_append_of_unsynced hun, if_neg hy]
        exact hframes

/-- Nothing emitted yet: what stands in the frame under assembly is shorter than a frame. -/
theorem emittedTo_nil {p : Params} {d : Di} (h : DiInv p d) : EmittedTo d [] d := by
  have hlen : (bytesOf d.frame).length = d.fill := (holdsBelow_iff.mp h.frameHolds).2
  have hframed : framed d [] = bytesOf d.frame := by
    rw [framed]
    split
    · exact List.append_nil _
    · rename_i hs
      obtain ⟨hfill, -⟩ := h.unsynced (Bool.eq_false_iff.mpr hs)
      exact (List.eq_nil_of_length_eq_zero (hlen.trans hfill)).symm
  have hdiv : (bytesOf d.frame).length / 204 = 0 := by rw [hlen]; exact Nat.div_eq_of_lt h.fillLt
  refine ⟨(Bool.or_false _).symm, ?_⟩
  rw [hframed]
  refine ⟨?_, ?_, ?_⟩
  · rw [unframed, hdiv]
    exact holdsBytes_iff.mpr (holdsBelow_iff.mp h.frameHolds).1
  · rw [hlen, Nat.mod_eq_of_lt h.fillLt]
  · rw [cuts, hdiv]
    exact (List.append_nil _).symm

/-! ### The branches -/

/-- The numbers up to `n` with the remainder of `n`. -/
theorem filter_range_mod {I : Nat} (hI : 0 < I) (n : Nat) :
    (List.range (n + 1)).filter (fun m => m % I == n % I) = (List.range (n / I + 1)).map (fun j => n % I + I * j) := by
  refine List.Pairwise.eq_of_mem_iff (r := (· < ·)) (List.pairwise_lt_range.filter _) ?_ fun m => ?_
  · rw [List.pairwise_map]
    exact List.pairwise_lt_range.imp fun hlt => Nat.add_lt_add_left (Nat.mul_lt_mul_of_pos_left hlt hI) _
  · simp only [List.mem_filter, List.mem_range, List.mem_map, beq_iff_eq]
    constructor
    · rintro ⟨hm, hmod⟩
      have hdiv : m / I ≤ n / I := Nat.div_le_div_right (Nat.le_of_lt_succ hm)
      exact ⟨m / I, Nat.lt_succ_of_le hdiv, hmod ▸ Nat.mod_add_div m I⟩
    · rintro ⟨j, hj, rfl⟩
      have hle : n % I + I * j ≤ n % I + I * (n / I) := Nat.add_le_add_left (Nat.mul_le_mul_left I (Nat.le_of_lt_succ hj)) _
      rw [Nat.mod_add_div] at hle
      exact ⟨Nat.lt_succ_of_le hle, by rw [Nat.add_mul_mod_self_left, Nat.mod_mod]⟩

/-- One more payload byte goes to the branch that the commutator has reached. -/
theorem branchInput_append (p : Params) (d : Di) (xs : List Byte) (x : Byte) (b : Nat) :
    branchInput p d (xs ++ [x]) b = branchInput p d xs b ++ if (d.comm + xs.length) % p.I = b then [x] else [] := by
  have hold : ∀ n ∈ (List.range xs.length).filter (fun n => (d.comm + n) % p.I == b), (xs ++ [x]).getD n 0 = xs.getD n 0 :=
    fun n hn => List.getD_append _ _ _ _ (List.mem_range.mp (List.mem_filter.mp hn).1)
  rw [branchInput, List.length_append, List.length_singleton, List.range_succ, List.filter_append, List.map_append,
    List.map_congr_left hold, ← branchInput]
  congr 1
  by_cases hb : (d.comm + xs.length) % p.I = b
  · simp [hb]
  · simp [hb]

/-- The bytes that the branch of the last payload byte has been given, every `I`-th of the payload. -/
theorem branchInput_last (p : Params) (d : Di) (xs : List Byte) (x : Byte) :
    branchInput p d (xs ++ [x]) ((d.comm + xs.length) % p.I) =
      (List.range (xs.length / p.I + 1)).map (fun j => (xs ++ [x]).getD (xs.length % p.I + p.I * j) 0) := by
  have hsame : ∀ n, ((d.comm + n) % p.I == (d.comm + xs.length) % p.I) = (n % p.I == xs.length % p.I) := by
    intro n
    rw [Bool.eq_iff_iff, beq_iff_eq, beq_iff_eq]
    exact Nat.ModEq.add_iff_left rfl
  rw [branchInput, List.length_append, List.length_singleton]
  simp only [hsame]
  rw [filter_range_mod p.hI, List.map_map]
  rfl

theorem length_branchInput_last (p : Params) (d : Di) (xs : List Byte) :
    (branchInput p d xs ((d.comm + xs.length) % p.I)).length = xs.length / p.I := by
  have hlen := congrArg List.length (branchInput_last p d xs 0)
  rw [branchInput_append, if_pos rfl, List.length_append, List.length_map, List.length_range] at hlen
  exact Nat.succ.inj hlen

/-- 43_deinterleaver.md R222: the byte emitted for the last payload byte stands behind the bytes emitted before it, in what was in
its branch and went in there. -/
theorem emitted_last (p : Params) (d : Di) (xs : List Byte) (x : Byte) :
    emitted p d (xs ++ [x]) xs.length =
      (d.fifo.getD ((d.comm + xs.length) % p.I) [] ++ branchInput p d (xs ++ [x]) ((d.comm + xs.length) % p.I)).getD
        (xs.length / p.I) 0 := by
  rw [emitted]
  generalize d.fifo.getD ((d.comm + xs.length) % p.I) [] = branch
  by_cases hlt : xs.length / p.I < branch.length
  · rw [if_pos hlt, List.getD_append _ _ _ _ hlt]
  · have hle : branch.length ≤ xs.length / p.I := Nat.not_lt.mp hlt
    have hpos : xs.length % p.I + p.I * (xs.length / p.I - branch.length) = xs.length - p.I * branch.length := by
      have hmul := Nat.mul_le_mul_left p.I hle
      have hdiv := Nat.mod_add_div xs.length p.I
      rw [Nat.mul_sub]
      omega
    rw [if_neg hlt, branchInput_last, List.getD_append_right _ _ _ _ hle, List.getD_eq_getElem?_getD (l := List.map _ _),
      List.getElem?_map, List.getElem?_range (by omega), Option.map_some, Option.getD_some, hpos]

theorem emittedBytes_append (p : Params) (d : Di) (xs : List Byte) (x : Byte) :
    emittedBytes p d (xs ++ [x]) = emittedBytes p d xs ++ [emitted p d (xs ++ [x]) xs.length] := by
  have hold : ∀ n ∈ List.range xs.length, emitted p d (xs ++ [x]) n = emitted p d xs n := by
    intro n hn
    have hlt : n < xs.length := List.mem_range.mp hn
    simp only [emitted]
    rw [List.getD_append _ _ _ _ (Nat.lt_of_le_of_lt (Nat.sub_le _ _) hlt)]
  rw [emittedBytes, List.length_append, List.length_singleton, List.range_succ, List.map_append, List.map_congr_left hold,
    List.map_singleton, ← emittedBytes]

/-- The payload `xs` was pushed to `d`, and `d'` is what became of the branches and of the commutator (43_deinterleaver.md R222). -/
structure PushedTo (p : Params) (d : Di) (xs : List Byte) (d' : Di) : Prop where
  comm : d'.comm = (d.comm + xs.length) % p.I
  count : d'.fifo.length = p.I
  branch : ∀ b, b < p.I →
    d'.fifo.getD b [] = (d.fifo.getD b [] ++ branchInput p d xs b).drop (branchInput p d xs b).length

theorem pushedTo_nil {p : Params} {d : Di} (h : DiInv p d) : PushedTo p d [] d where
  comm := (Nat.mod_eq_of_lt h.commLt).symm
  count := h.branchCount
  branch := fun _ _ => (List.append_nil _).symm

theorem pushPop_drop {bs : List Byte} {n : Nat} (hn : n ≤ bs.length) (x : Byte) :
    (pushPop (bs.drop n) x).1 = (bs ++ [x]).getD n 0 ∧ (pushPop (bs.drop n) x).2 = (bs ++ [x]).drop (n + 1) := by
  have hsplit : (pushPop (bs.drop n) x).1 :: (pushPop (bs.drop n) x).2 = (bs ++ [x]).drop n := by
    rw [pushPop_eq, List.drop_append_of_le_length hn]
  refine ⟨?_, ?_⟩
  · rw [List.getD_eq_getElem?_getD, ← List.head?_drop, ← hsplit]
    rfl
  · rw [← List.drop_drop, ← hsplit]
    rfl

/-- What `Step` emits and leaves in the branch that the commutator has reached (43_deinterleaver.md R222). -/
theorem PushedTo.pushPop {p : Params} {d d' : Di} {xs : List Byte} (h : PushedTo p d xs d') (x : Byte) :
    (pushPop (d'.fifo.getD d'.comm []) x).1 = emitted p d (xs ++ [x]) xs.length ∧
    (pushPop (d'.fifo.getD d'.comm []) x).2 =
      (d.fifo.getD d'.comm [] ++ branchInput p d (xs ++ [x]) d'.comm).drop (branchInput p d (xs ++ [x]) d'.comm).length := by
  have hlt : d'.comm < p.I := by rw [h.comm]; exact Nat.mod_lt _ p.hI
  have hinput : branchInput p d (xs ++ [x]) d'.comm = branchInput p d xs d'.comm ++ [x] := by
    rw [branchInput_append, if_pos h.comm.symm]
  have hlen : (branchInput p d xs d'.comm).length = xs.length / p.I := by rw [h.comm, length_branchInput_last]
  obtain ⟨hfst, hsnd⟩ := pushPop_drop
    (bs := d.fifo.getD d'.comm [] ++ branchInput p d xs d'.comm) (n := (branchInput p d xs d'.comm).length)
    (by rw [List.length_append]; omega) x
  rw [h.branch d'.comm hlt]
  refine ⟨?_, ?_⟩
  · rw [hfst, emitted_last, ← h.comm, hinput, List.append_assoc, hlen]
  · rw [hsnd, hinput, List.append_assoc, List.length_append, List.length_singleton]

/-- `Step` on one more byte of the payload. -/
theorem PushedTo.diStep {p : Params} {d d' : Di} {xs : List Byte} (h : PushedTo p d xs d')
    (he : EmittedTo d (emittedBytes p d xs) d') (x : Byte) :
    ∃ d'', diStep p x d' = .ok d'' ∧ PushedTo p d (xs ++ [x]) d'' ∧ EmittedTo d (emittedBytes p d (xs ++ [x])) d'' := by
  have hlt : d'.comm < d'.fifo.length := by rw [h.count, h.comm]; exact Nat.mod_lt _ p.hI
  have hread : readBranch d' d'.comm = .ok (d'.fifo.getD d'.comm []) := by
    rw [readBranch, List.getElem?_eq_getElem hlt, List.getD_eq_getElem d'.fifo [] hlt]
  obtain ⟨hfst, hsnd⟩ := h.pushPop x
  have he' : EmittedTo d (emittedBytes p d xs)
      { d' with fifo := d'.fifo.set d'.comm (Machine.pushPop (d'.fifo.getD d'.comm []) x).2, comm := (d'.comm + 1) % p.I } :=
    ⟨he.synced, ⟨he.frames.frame, he.frames.fill, he.frames.outq⟩⟩
  obtain ⟨d'', e, hemit, hfifo, hcomm⟩ := he'.emit (emitted p d (xs ++ [x]) xs.length)
  refine ⟨d'', ?_, ⟨?_, ?_, fun b hb => ?_⟩, ?_⟩
  · simp only [Machine.diStep, hread]
    rw [hfst]
    exact e
  · rw [hcomm, h.comm, Nat.mod_add_mod, List.length_append, List.length_singleton, Nat.add_assoc]
  · rw [hfifo, List.length_set, h.count]
  · rw [hfifo]
    by_cases hc : b = d'.comm
    · rw [hc, getD_set_same hlt, hsnd]
    · have hother : ¬ (d.comm + xs.length) % p.I = b := fun hbc => hc (hbc.symm.trans h.comm.symm)
      rw [getD_set_other d'.fifo hc, h.branch b hb, branchInput_append, if_neg hother, List.append_nil]
  · rw [emittedBytes_append]
    exact hemit

/-- All the steps of a payload (43_deinterleaver.md R221). -/
theorem diSteps_pushedTo {p : Params} {d : Di} (h : DiInv p d) (xs : List Byte) :
    ∃ d', diSteps p xs d = .ok d' ∧ PushedTo p d xs d' ∧ EmittedTo d (emittedBytes p d xs) d' := by
  induction xs using List.reverseRecOn with
  | nil => exact ⟨d, rfl, pushedTo_nil h, emittedTo_nil h⟩
  | append_singleton xs x ih =>
    obtain ⟨d', e, hpush, hemit⟩ := ih
    obtain ⟨d'', e', hpush', hemit'⟩ := hpush.diStep hemit x
    refine ⟨d'', ?_, hpush', hemit'⟩
    rw [diSteps_append, e]
    simp only [diSteps, e']

/-- Settles O51: by induction on the payload from its end, the bytes emitted go into the frames and each branch moves on by its
inputs. -/
theorem diPushEmitsAndCuts : Obligations.DiPushEmitsAndCuts := by
  intro payload s hinv es bs
  obtain ⟨d, hd, ⟨hcomm, hcount, hbranch⟩, ⟨hsynced, hframe, hfill, houtq⟩⟩ := diSteps_pushedTo hinv payload
  refine ⟨_, by rw [exec, execDiPush, hd, finish_ok], ?_, hframe, hcount, hbranch⟩
  rw [← hcomm, ← hsynced, ← hfill, ← houtq]
  rfl

end Sys2Proof.Machine
end

/-! The rotator (40_rotator.md R130 to R132): `Neg` as an operation on soft values, the rotations as the symmetries of the square
that it generates, and how they compose. -/
section
namespace Sys2Proof.Machine
open Sys2Proof.Spec

/-! ### Negation of a soft bit -/

/-- The subtraction of naturals stops at 0, which is the saturation of `Neg(255)`. -/
theorem negSoft_toNat (b : Byte) : (negSoft b).toNat = 254 - b.toNat := by
  rw [negSoft_eq_neg, neg, BitVec.toNat_ofNat]
  omega

theorem toNat_le_of_ne_saturated {b : Byte} (h : b ≠ 255) : b.toNat ≤ 254 := by
  bv_omega

theorem negSoft_negSoft {b : Byte} (h : b.toNat ≤ 254) : negSoft (negSoft b) = b := by
  apply BitVec.eq_of_toNat_eq
  rw [negSoft_toNat, negSoft_toNat]
  omega

theorem softValue_negSoft {b : Byte} (h : b.toNat ≤ 254) : softValue (negSoft b) = -softValue b := by
  rw [softValue, softValue, negSoft_toNat]
  omega

/-- Settles O26: by the value of `Neg` as a subtraction of naturals. -/
theorem negFormula : Obligations.NegFormula :=
  ⟨fun b _ => negSoft_toNat b, by decide, by decide, by decide, by decide,
    fun _ h => ⟨negSoft_negSoft h, softValue_negSoft h⟩, by decide⟩

/-! ### The rotations -/

/-- R131 on soft values: each row of the table has the signs of its symmetry of the square. -/
theorem softValue_rotSymbol (h : Hyp) {i q : Byte} (hi : i ≠ 255) (hq : q ≠ 255) :
    (softValue (rotSymbol h i q).1, softValue (rotSymbol h i q).2) =
      turns (h.val % 4) (softValue i, if h.val / 4 = 1 then -softValue q else softValue q) := by
  have hni := softValue_negSoft (toNat_le_of_ne_saturated hi)
  have hnq := softValue_negSoft (toNat_le_of_ne_saturated hq)
  fin_cases h <;> simp [rotSymbol, turns, hni, hnq]

/-- Settles O27: the rows of the table, on which `Neg` negates the soft value. -/
theorem rotationTable : Obligations.RotationTable :=
  ⟨rotSymbol_eq_rot, fun h _ _ => softValue_rotSymbol h⟩

/-- R132 (b): two rotations in a row negate a byte at most twice, and a double `Neg` drops out, so each entry of the table is read
off the rows of R131. -/
theorem rotSymbol_rotSymbol (a b : Hyp) {i q : Byte} (hi : i ≠ 255) (hq : q ≠ 255) :
    rotSymbol b (rotSymbol a i q).1 (rotSymbol a i q).2 = rotSymbol (Fin.ofNat 8 (composed a b)) i q := by
  have hni := negSoft_negSoft (toNat_le_of_ne_saturated hi)
  have hnq := negSoft_negSoft (toNat_le_of_ne_saturated hq)
  fin_cases a <;> fin_cases b <;> simp [rotSymbol, composed, hni, hnq]

/-- The symbol `(0, 1)` lies on no axis of the square, so only the identity leaves it where it is. -/
theorem eq_zero_of_rotSymbol_asymmetric : ∀ h : Hyp, rotSymbol h 0 1 = (0, 1) → h = 0 := by decide

/-- The inverse of a hypothesis (R132 (b)). -/
def inverseHyp (a : Hyp) : Hyp :=
  if a = 1 then 3 else if a = 3 then 1 else a

theorem composed_eq_zero_iff : ∀ a x : Hyp, Fin.ofNat 8 (composed a x) = 0 ↔ x = inverseHyp a := by decide

/-- R132 (a): exactly one hypothesis undoes `a`, since the composite leaves every symbol alone only where the table holds 0. -/
theorem rotSymbol_undoes_iff (a x : Hyp) :
    (∀ i q : Byte, i ≠ 255 → q ≠ 255 → rotSymbol x (rotSymbol a i q).1 (rotSymbol a i q).2 = (i, q)) ↔ x = inverseHyp a := by
  rw [← composed_eq_zero_iff]
  constructor
  · intro h
    apply eq_zero_of_rotSymbol_asymmetric
    rw [← rotSymbol_rotSymbol a x (by decide) (by decide)]
    exact h 0 1 (by decide) (by decide)
  · intro h i q hi hq
    rw [rotSymbol_rotSymbol a x hi hq, h]
    rfl

/-- Settles O28: the composition table, in which each row holds the identity once. -/
theorem rotationsFormTheSquareGroup : Obligations.RotationsFormTheSquareGroup :=
  ⟨fun a b _ _ => rotSymbol_rotSymbol a b,
    fun a => ⟨inverseHyp a, by revert a; decide, rotSymbol_undoes_iff a⟩,
    by decide⟩

end Sys2Proof.Machine
end

/-! The scores of the correlator (41_correlator.md R140 to R147): `Score` as a count of positions, the complemented word, and the
search of `CR.RUN` (30_encoding.md R108). -/
section
namespace Sys2Proof.Machine
open Sys2Proof.Spec

/-! ### Match and Score -/

theorem matchElem_eq_matchesElem (p : Params) (x e : Byte) : matchElem p x e = matchesElem p x e := by
  rw [Bool.eq_iff_iff]
  simp [matchElem, matchesElem, hardBit, BitVec.toNat_eq]

theorem matchElem_iff (p : Params) (x e : Byte) :
    matchElem p x e = true ↔ (p.corrT.toNat ≤ x.toNat ∧ e = 0) ∨ (x.toNat < p.corrT.toNat ∧ e = 255) := by
  simp [matchElem, hardBit]

theorem matchElem_of_other (p : Params) (x : Byte) {e : Byte} (h0 : e ≠ 0) (h255 : e ≠ 255) : matchElem p x e = false := by
  rw [← Bool.not_eq_true, matchElem_iff]
  rintro (⟨-, h⟩ | ⟨-, h⟩)
  · exact h0 h
  · exact h255 h

/-- Where the word lies inside the input, position `j` of the word meets byte `o + j` of the input. -/
theorem zipWith_matchElem {p : Params} {ref buf : List Byte} {o : Nat} (hl : ref.length = p.W) (hin : o + p.W ≤ buf.length) :
    List.zipWith (matchElem p) (buf.drop o) ref =
      (List.range p.W).map (fun j => matchesElem p (buf.getD (o + j) 0) (ref.getD j 0)) := by
  refine List.ext_getElem (by simp; omega) fun j hj _ => ?_
  simp only [List.length_zipWith, List.length_drop, lt_min_iff] at hj
  have hbuf : o + j < buf.length := by omega
  simp [matchElem_eq_matchesElem, List.getElem?_eq_getElem hbuf, List.getElem?_eq_getElem hj.2]

theorem score_eq_scoreAt {p : Params} {ref buf : List Byte} {o : Nat} (hl : ref.length = p.W) (hin : o + p.W ≤ buf.length) :
    score p ref buf o = scoreAt p ref buf o := by
  rw [score, zipWith_matchElem hl hin, List.countP_map, List.countP_eq_length_filter, scoreAt]
  rfl

theorem scoreAt_le (p : Params) (ref buf : List Byte) (o : Nat) : scoreAt p ref buf o ≤ p.W :=
  (List.length_filter_le _ _).trans (Nat.le_of_eq List.length_range)

/-- Settles O30: the zip of the input from the offset on with the word is the list of its positions. -/
theorem scoreCountsMatches : Obligations.ScoreCountsMatches := by
  refine ⟨fun p x e => ⟨matchElem_iff p x e, matchElem_of_other p x⟩, fun p ref buf o hl hin => ?_⟩
  have hscore := score_eq_scoreAt hl hin
  exact ⟨hscore, hscore ▸ scoreAt_le p ref buf o⟩

/-! ### The complemented word -/

/-- 0 and 255 exchanged: every input byte matches exactly one of the two. -/
theorem matchElem_complement (p : Params) (x : Byte) {e : Byte} (h : e = 0 ∨ e = 255) :
    matchElem p x (255 - e) = !matchElem p x e := by
  rcases h with rfl | rfl <;> simp [matchElem]

theorem zipWith_matchElem_complement (p : Params) {ref : List Byte} (bs : List Byte) (h : ∀ e ∈ ref, e = 0 ∨ e = 255) :
    List.zipWith (matchElem p) bs (ref.map (fun e => 255 - e)) = (List.zipWith (matchElem p) bs ref).map (fun m => !m) := by
  induction ref generalizing bs with
  | nil => simp
  | cons e ref ih =>
    obtain ⟨he, href⟩ := List.forall_mem_cons.mp h
    cases bs with
    | nil => rfl
    | cons x bs => simp only [List.map_cons, List.zipWith_cons_cons, matchElem_complement p x he, ih bs href]

/-- Settles O31: a position matches the complemented word exactly when it does not match the word. -/
theorem complementedWordScores : Obligations.ComplementedWordScores := by
  intro p ref buf o hl hin hbits
  have hlen : (List.zipWith (matchElem p) (buf.drop o) ref).length = p.W := by
    rw [zipWith_matchElem hl hin, List.length_map, List.length_range]
  have hsplit := List.length_eq_countP_add_countP id (l := List.zipWith (matchElem p) (buf.drop o) ref)
  have hcompl : score p (ref.map (fun e => 255 - e)) buf o =
      (List.zipWith (matchElem p) (buf.drop o) ref).countP (fun m => decide ¬id m = true) := by
    rw [score, zipWith_matchElem_complement p _ hbits, List.countP_map]
    congr 1
    funext m
    cases m <;> rfl
  rw [hcompl, score]
  omega

/-! ### The search -/

theorem CrInv.length_wordOf {p : Params} {c : Cr} (h : CrInv p c) {r : Nat} (hr : r < c.nw) : (wordOf c r).length = p.W := by
  obtain ⟨bs, hl, hb⟩ := exists_of_holdsBelow (h.loaded r hr)
  rw [wordOf, hb, bytesOf, bytesOf_cellsAt, hl]

/-- `(BestOff(r), BestScore(r))` of the loaded word `r` (41_correlator.md R144). -/
def bestOfWord (p : Params) (c : Cr) (buf : List Byte) (r : Nat) : Nat × Nat :=
  bestOf p (wordOf c r) buf

/-- R144 with the scores of the specification: the first offset of the largest score. -/
theorem CrInv.bestOfWord_spec {p : Params} {c : Cr} (h : CrInv p c) {buf : List Byte} (hw : p.W ≤ buf.length) {r : Nat}
    (hr : r < c.nw) :
    (bestOfWord p c buf r).1 + p.W ≤ buf.length ∧
    (bestOfWord p c buf r).2 = scoreAt p (wordOf c r) buf (bestOfWord p c buf r).1 ∧
    (∀ o, o + p.W ≤ buf.length → scoreAt p (wordOf c r) buf o ≤ (bestOfWord p c buf r).2) ∧
    (∀ o, o < (bestOfWord p c buf r).1 → scoreAt p (wordOf c r) buf o < (bestOfWord p c buf r).2) := by
  obtain ⟨hoff, hbest, hmax, hfirst⟩ := bestOf_spec p (wordOf c r) buf
  have hin {o : Nat} (ho : o ≤ buf.length - p.W) : o + p.W ≤ buf.length := by omega
  have hscore {o : Nat} (ho : o + p.W ≤ buf.length) : score p (wordOf c r) buf o = scoreAt p (wordOf c r) buf o :=
    score_eq_scoreAt (h.length_wordOf hr) ho
  refine ⟨hin hoff, hbest.trans (hscore (hin hoff)), fun o ho => ?_, fun o ho => ?_⟩
  · exact hscore ho ▸ hmax o (by omega)
  · exact hscore (hin (ho.le.trans hoff)) ▸ hfirst o ho

/-- A search on an input whose length fits the field `LEN` gives values that fit the 32-bit registers. -/
theorem CrInv.bestOfWord_lt {p : Params} {c : Cr} (h : CrInv p c) {buf : List Byte} (hw : p.W ≤ buf.length)
    (hlen : buf.length < 2 ^ 32) {r : Nat} (hr : r < c.nw) :
    (bestOfWord p c buf r).1 < 2 ^ 32 ∧ (bestOfWord p c buf r).2 < 2 ^ 32 := by
  obtain ⟨hoff, hbest, -, -⟩ := h.bestOfWord_spec hw hr
  have hle := scoreAt_le p (wordOf c r) buf (bestOfWord p c buf r).1
  omega

/-- `BestWord` of the scores `f 0 .. f (n - 1)` (41_correlator.md R145). -/
theorem bestWordOf_map_range {n : Nat} (hn : n ≠ 0) (f : Nat → Nat) :
    bestWordOf ((List.range n).map f) < n ∧ (∀ r, r < n → f r ≤ f (bestWordOf ((List.range n).map f))) ∧
      ∀ r, r < bestWordOf ((List.range n).map f) → f r < f (bestWordOf ((List.range n).map f)) := by
  have hne : (List.range n).map f ≠ [] := by simpa using hn
  have hlt : bestWordOf ((List.range n).map f) < n := by simpa using bestWordOf_lt hne
  have hat {r : Nat} (hr : r < n) : ((List.range n).map f)[r]? = some (f r) := by
    rw [List.getElem?_map, List.getElem?_range hr, Option.map_some]
  obtain ⟨best, hbest, hmax, hfirst⟩ := bestWordOf_spec hne
  obtain rfl : f (bestWordOf ((List.range n).map f)) = best := Option.some.inj ((hat hlt).symm.trans hbest)
  exact ⟨hlt, fun r hr => hmax _ (List.mem_map_of_mem (List.mem_range.mpr hr)),
    fun r hr => hfirst r hr _ (hat (hr.trans hlt))⟩

/-- A register file whose entries `0 .. n - 1` a search has written (41_correlator.md R146). -/
theorem getElem?_map_append_drop {α : Type} (f : Nat → α) (n : Nat) (regs : List α) (r : Nat) :
    ((List.range n).map f ++ regs.drop n)[r]? = if r < n then some (f r) else regs[r]? := by
  by_cases hr : r < n
  · rw [if_pos hr, List.getElem?_append_left (by simpa using hr), List.getElem?_map, List.getElem?_range hr, Option.map_some]
  · rw [if_neg hr, List.getElem?_append_right (by simpa using hr), List.length_map, List.length_range, List.getElem?_drop,
      Nat.add_sub_cancel' (Nat.not_lt.mp hr)]

/-- The result registers after a search on `n` words (41_correlator.md R146), entry by entry. -/
theorem storeResults_entry (f : Nat → Nat × Nat) (n : Nat) (c : Cr) (r : Nat) :
    (storeResults ((List.range n).map f) c).bestOff[r]? =
      (if r < n then some (BitVec.ofNat 32 (f r).1) else c.bestOff[r]?) ∧
    (storeResults ((List.range n).map f) c).bestScore[r]? =
      (if r < n then some (BitVec.ofNat 32 (f r).2) else c.bestScore[r]?) := by
  simp only [storeResults, markValid, List.map_map, List.length_map, List.length_range, getElem?_map_append_drop,
    Function.comp_apply, and_self]

theorem toNat_word32 {x : Nat} (h : x < 2 ^ 32) : (BitVec.ofNat 32 x).toNat = x := by
  rw [BitVec.toNat_ofNat, Nat.mod_eq_of_lt h]

theorem storeResults_written {f : Nat → Nat × Nat} {n r : Nat} (c : Cr) (hr : r < n) (hoff : (f r).1 < 2 ^ 32)
    (hbest : (f r).2 < 2 ^ 32) :
    ((storeResults ((List.range n).map f) c).bestOff.map BitVec.toNat)[r]? = some (f r).1 ∧
    ((storeResults ((List.range n).map f) c).bestScore.map BitVec.toNat)[r]? = some (f r).2 := by
  obtain ⟨hoffReg, hbestReg⟩ := storeResults_entry f n c r
  rw [List.getElem?_map, List.getElem?_map, hoffReg, hbestReg, if_pos hr, if_pos hr, Option.map_some, Option.map_some,
    toNat_word32 hoff, toNat_word32 hbest]
  exact ⟨rfl, rfl⟩

theorem storeResults_kept (f : Nat → Nat × Nat) {n r : Nat} (c : Cr) (hr : n ≤ r) :
    (storeResults ((List.range n).map f) c).bestOff[r]? = c.bestOff[r]? ∧
    (storeResults ((List.range n).map f) c).bestScore[r]? = c.bestScore[r]? := by
  obtain ⟨hoffReg, hbestReg⟩ := storeResults_entry f n c r
  exact ⟨hoffReg.trans (if_neg (Nat.not_lt.mpr hr)), hbestReg.trans (if_neg (Nat.not_lt.mpr hr))⟩

theorem storeResults_bestWord (f : Nat → Nat × Nat) (n : Nat) (c : Cr) :
    (storeResults ((List.range n).map f) c).bestWord = bestWordOf ((List.range n).map (fun r => (f r).2)) := by
  simp only [storeResults, markValid, List.map_map, Function.comp_def]

/-- The answer of `CR.RUN` on `n` words (30_encoding.md R108), where the winner's offset and score fit their fields. -/
theorem runAnswer_eq {f : Nat → Nat × Nat} {n w : Nat} (hw : w = bestWordOf ((List.range n).map (fun r => (f r).2)))
    (hlt : w < n) (hoff : (f w).1 < 2 ^ 32) (hbest : (f w).2 < 2 ^ 32) :
    runAnswer ((List.range n).map f) = indexByte w :: (u32 (f w).1 ++ u32 (f w).2) := by
  have hat : ((List.range n).map f).getD w (0, 0) = f w := by
    rw [List.getD_eq_getElem?_getD, List.getElem?_map, List.getElem?_range hlt, Option.map_some, Option.getD_some]
  have hword : bestWordOf (((List.range n).map f).map (fun b => b.2)) = w := by rw [List.map_map, hw]; rfl
  simp only [runAnswer, hword, hat, be32_eq_u32, toNat_word32 hoff, toNat_word32 hbest]

/-- `CR.RUN` on loaded words and a long enough input, through the results of each word (41_correlator.md R146). -/
theorem exec_crRun_ok {pl : List Byte} {s : State} (h : CrInv s.par s.cr) (hn : s.cr.nw ≠ 0) (hl : s.par.W ≤ pl.length) :
    exec (.crRun pl) s =
      .next ((s.setCr (storeResults ((List.range s.cr.nw).map (bestOfWord s.par s.cr pl)) s.cr)).respond .ok
        (runAnswer ((List.range s.cr.nw).map (bestOfWord s.par s.cr pl)))) :=
  execCrRun_ok h hn hl

/-- Settles O34: the registers hold the winners of the scans of R144, and `CR.BESTWORD` the winner of the scan of R145. -/
theorem crRunFindsTheBest : Obligations.CrRunFindsTheBest := by
  intro payload s hinv hpl
  refine ⟨fun hnone => ?_, fun hn hshort => ?_, fun hn hlong => ?_⟩
  · rw [exec, execCrRun, if_pos hnone]
    rfl
  · rw [exec, execCrRun, if_neg hn, if_pos hshort]
    rfl
  · have hfits (r : Nat) (hr : r < s.cr.nw) := hinv.bestOfWord_lt hlong hpl hr
    have hword := storeResults_bestWord (bestOfWord s.par s.cr payload) s.cr.nw s.cr
    obtain ⟨hlt, hmax, hfirst⟩ := bestWordOf_map_range hn (fun r => (bestOfWord s.par s.cr payload r).2)
    rw [← hword] at hlt hmax hfirst
    obtain ⟨hoff, hbest⟩ := hfits _ hlt
    have hanswer := runAnswer_eq hword hlt hoff hbest
    refine ⟨_, _, fun r => (bestOfWord s.par s.cr payload r).1, fun r => (bestOfWord s.par s.cr payload r).2,
      exec_crRun_ok hinv hn hlong, ?_, indexByte_toNat, fun r hr => ?_, fun r hr => storeResults_kept _ _ hr, hlt, hmax, hfirst⟩
    · rw [hanswer]
      rfl
    · obtain ⟨hoff, hbest⟩ := hfits r hr
      obtain ⟨hoffReg, hbestReg⟩ := storeResults_written s.cr hr hoff hbest
      exact ⟨hoffReg, hbestReg, hinv.bestOfWord_spec hlong hr⟩

end Sys2Proof.Machine
end

/-! The family of the frame synchronizer (42_framesync.md): two puts in a row (R164), the locked and the unlocked cycle (R174), the
sync test (R175, R176), and what a search keeps while it is locked (R184). -/
section
namespace Sys2Proof.Machine
open Sys2Proof.Spec

/-! ### The sync test -/

theorem wrongBits_le (x y : Byte) : wrongBits x y ≤ 8 :=
  (List.length_filter_le _ _).trans_eq List.length_range

/-- Five bytes of eight bits each (42_framesync.md R175). -/
theorem syncErrOf_le (d : List Byte) : syncErrOf d ≤ 40 := by
  have h0 := wrongBits_le (d.getD 0 0) 0xB8
  have h1 := wrongBits_le (d.getD 204 0) 0x47
  have h2 := wrongBits_le (d.getD 408 0) 0x47
  have h3 := wrongBits_le (d.getD 612 0) 0x47
  have h4 := wrongBits_le (d.getD 816 0) 0x47
  rw [syncErrOf]
  omega

/-- Settles O40: a frame that reaches the last tested byte holds a value at all five offsets. -/
theorem syncTestCountsWrongBits : Obligations.SyncTestCountsWrongBits :=
  fun _ d hd hl => ⟨syncErr_of_holdsBytes hd hl, syncErrOf_le d, syncPresent_iff hd hl⟩

/-! ### Two puts in a row -/

theorem FsCore.append {p : Params} {f : Fs} (h : FsCore p f) (xs : List Byte) : FsCore p { f with pend := f.pend ++ xs } :=
  ⟨h.bufHolds, h.posLe, h.readyLocked, h.lockedDecoded, h.decWhole⟩

theorem stream_append (f : Fs) (xs : List Byte) : stream { f with pend := f.pend ++ xs } = stream f ++ xs :=
  (List.append_assoc _ _ _).symm

/-- Where soft bits end is decided by their order in the stream, not by a top-up that comes before the last of them. -/
theorem topUp_append_topUp {p : Params} {f : Fs} (h : FsCore p f) (xs : List Byte) :
    topUp p { topUp p f with pend := (topUp p f).pend ++ xs } = topUp p { f with pend := f.pend ++ xs } := by
  have hstream : stream { topUp p f with pend := (topUp p f).pend ++ xs } = stream { f with pend := f.pend ++ xs } := by
    rw [stream_append, stream_append, topUp_stream h.bufHolds]
  rw [topUp_eq (h.topUp.append xs), topUp_eq (h.append xs), hstream]
  rfl

/-- Settles O37: the top-up of the second put tops up what the first left (42_framesync.md R164). -/
theorem fsPutSplits : Obligations.FsPutSplits := by
  intro a b s hf
  refine ⟨_, _, _, rfl, rfl, rfl, ?_⟩
  have htop := topUp_append_topUp (hf.append a) b
  rw [List.append_assoc] at htop
  exact congrArg (fun f => ((s.setFs f).respond .ok []).respond .ok []) htop

/-! ### The locked and the unlocked cycle -/

/-- What a cycle gives a hypothesis depends on the soft bits and on the hypothesis alone, once it is decoded (42_framesync.md R171,
R172). -/
theorem decodeAll_lane_eq {p : Params} {soft : List Byte} {f g : Fs} {h : Hyp} (hf : h ∈ decodedSet f) (hg : h ∈ decodedSet g)
    (hdec : f.dec = g.dec) :
    (decodeAll p soft f).dec[h] = (decodeAll p soft g).dec[h] ∧ (decodeAll p soft f).err[h] = (decodeAll p soft g).err[h] := by
  simp only [decodeAll_dec, decodeAll_err, if_pos hf, if_pos hg, hdec, and_self]

/-- `FS.UPDATE` runs a cycle on a full buffer whatever the flags are: `FS.READY` may stand beside a cleared `FS.LOCKED`. -/
theorem execFsUpdate_of_full {s : State} (hb : holdsBelow (topUp s.par s.fs).buf (topUp s.par s.fs).pos)
    (hp : (topUp s.par s.fs).pos = s.par.C) :
    execFsUpdate s =
      .next ((s.setFs (decodeAll s.par (bytesOf (topUp s.par s.fs).buf) (topUp s.par s.fs))).respond .ok []) := by
  rw [execFsUpdate, if_neg (Nat.not_lt.mpr hp.ge), decodeCycle_full hb hp, finish_ok]

/-- Settles O39: both cycles run on the same full buffer, and each decodes the active hypothesis (42_framesync.md R170). -/
theorem lockedLaneEqualsUnlockedLane : Obligations.LockedLaneEqualsUnlockedLane := by
  intro s hf hl hs
  have hb := hf.topUp.bufHolds
  have hp : (topUp s.par s.fs).pos = s.par.C := by rw [topUp_of_enough hf hs]
  refine ⟨_, _, execFsUpdate_of_full hb hp,
    execFsUpdate_of_full (s := { s with fs := { s.fs with locked := false } }) hb hp, ?_⟩
  exact decodeAll_lane_eq (mem_decodedSet_of_locked (f := topUp s.par s.fs) hl) (mem_decodedSet_of_unlocked rfl _) rfl

/-! ### A lock kept -/

/-- A lost lock is reported, whatever the turns after it do (42_framesync.md R183). -/
theorem searchLoop_keeps_loss {p : Params} {n : Nat} {loss : Bool} {f : Fs} {r : Search} (h : searchLoop p n loss f = .ok r)
    (hl : loss = true) : r.loss = true := by
  fun_induction searchLoop p n loss f with
  | case1 => cases h
  | case2 | case3 => exact Except.ok.inj h ▸ hl
  | case4 _ _ _ _ _ _ ih => exact ih h (by rw [hl, Bool.true_or])
  | case5 => exact Except.ok.inj h ▸ (by rw [hl, Bool.true_or])

/-- A search that starts locked and loses no lock ends in its first turn: too few soft bits, or sync on the active hypothesis, the
only one tested (42_framesync.md R170, R182). -/
theorem findSync_without_loss {p : Params} {f : Fs} {r : Search} (hf : FsCore p f) (hl : f.locked = true)
    (h : findSync p f = .ok r) (hloss : r.loss = false) :
    r.fs.locked = true ∧ r.fs.active = f.active ∧ ∀ w, r.found = some w → w = f.active := by
  rw [findSync] at h
  obtain hshort | hs := Nat.lt_or_ge (stream f).length p.C
  · rw [searchLoop_of_short hf hshort] at h
    obtain rfl := Except.ok.inj h
    exact ⟨hl, rfl, fun _ hw => nomatch hw⟩
  · unfold searchLoop at h
    obtain ⟨w, hw, e⟩ | ⟨-, e⟩ := searchTurn_of_enough hf hs
    · obtain ⟨htested, -⟩ := (mem_passing_iff hf _ w).mp (selectHyp_mem hw)
      have hactive : w = f.active := htested rfl hl
      rw [e] at h
      obtain rfl := Except.ok.inj h
      exact ⟨rfl, hactive, fun v hv => (Option.some.inj hv).symm.trans hactive⟩
    · rw [e, hl] at h
      have hlost := searchLoop_keeps_loss h rfl
      rw [hloss] at hlost
      cases hlost

/-- 30_encoding.md R112: bit 7 is `LOSS`. -/
theorem syncByte_bit7 (loss : Bool) (w : Option Hyp) : (syncByte loss w).getLsbD 7 = loss := by
  revert loss w
  decide

/-- Settles O44: without a loss the search has ended in its first turn, which tests the active hypothesis alone. -/
theorem hypothesisKeptBetweenLockAndLoss : Obligations.HypothesisKeptBetweenLockAndLoss := by
  intro s t b st hf hl h hrsp hb
  obtain ⟨r, hr, rfl⟩ := finish_eq_next h
  obtain ⟨rfl, rfl⟩ : searchStatus r = st ∧ syncByte r.loss r.found = b := by simpa using hrsp
  have hloss : r.loss = false := (syncByte_bit7 r.loss r.found).symm.trans hb
  obtain ⟨hlocked, hactive, hfound⟩ := findSync_without_loss hf hl hr hloss
  refine ⟨hlocked, hactive, fun hst => ?_⟩
  cases hw : r.found with
  | none => rw [searchStatus, hw] at hst; cases hst
  | some w =>
    obtain rfl := hfound w hw
    have hlt := s.fs.active.isLt
    rw [hloss, syncByte_some, if_neg Bool.false_ne_true, BitVec.toNat_ofNat]
    exact Nat.mod_eq_of_lt (by omega)

end Sys2Proof.Machine
end

/-! The deinterleaver from reset (43_deinterleaver.md R225): what it emits is what was pushed, delayed; the frames are the cuts from the
first sync byte on; and after a forward interleaver the two delays of a branch add up to the same number of bytes for every branch. -/
section
namespace Sys2Proof.Machine
open Sys2Proof.Spec

/-! ### The reset deinterleaver -/

/-- A space without a value is empty (10_state.md R56, `DI.FRAME` after reset). -/
theorem eq_nil_of_memByte {m : Memory} (h : ∀ a, memByte m a = none) : m = [] := by
  cases m with
  | nil => rfl
  | cons c m => simpa [memByte] using h c.1

/-- The elements that R56 lists after reset determine the state. -/
theorem eq_diReset {p : Params} {d : Di} (h : DiAtReset p d) : d = diReset p := by
  obtain ⟨hcount, hfifo, hcomm, hsynced, hfill, houtq, hframe⟩ := h
  have hbranches : d.fifo = (diReset p).fifo := by
    refine List.ext_getElem (by simpa [diReset] using hcount) fun b hb _ => ?_
    rw [← List.getD_eq_getElem d.fifo [] hb, hfifo b (hcount ▸ hb)]
    simp [diReset, branchLen]
  obtain ⟨fifo, comm, synced, frame, fill, outq⟩ := d
  obtain rfl := eq_nil_of_memByte hframe
  subst hbranches hcomm hsynced hfill houtq
  rfl

theorem diInv_of_atReset {p : Params} {d : Di} (h : DiAtReset p d) : DiInv p d :=
  eq_diReset h ▸ diInv_diReset p

/-- 43_deinterleaver.md R225 (b): a branch still full of its zeros emits one of them, then what was pushed `M * (I - 1 - b)` visits
ago. -/
theorem emitted_atReset {p : Params} {d : Di} (h : DiAtReset p d) (payload : List Byte) (n : Nat) :
    emitted p d payload n = delayed p payload n := by
  have hfull : n / p.I < p.M * (p.I - 1 - n % p.I) ↔ n < p.I * (p.M * (p.I - 1 - n % p.I)) :=
    (Nat.div_lt_iff_lt_mul p.hI).trans (by rw [Nat.mul_comm])
  rw [emitted, h.comm, Nat.zero_add, h.fifo _ (Nat.mod_lt n p.hI)]
  simp only [List.length_replicate, hfull]
  rw [delayed]
  split
  · exact List.getD_replicate _ (hfull.mpr ‹_›)
  · rfl

theorem emittedBytes_atReset {p : Params} {d : Di} (h : DiAtReset p d) (payload : List Byte) :
    emittedBytes p d payload = (List.range payload.length).map (delayed p payload) :=
  List.map_congr_left fun n _ => emitted_atReset h payload n

/-- `DI.PUSH` on a reset deinterleaver (43_deinterleaver.md R223 to R225). -/
theorem exec_diPush_atReset {s : State} (h : DiAtReset s.par s.di) (payload : List Byte) :
    ∃ t, exec (.diPush payload) s = .next t ∧ t.di.comm = payload.length % s.par.I ∧
      t.di.synced = (emittedBytes s.par s.di payload).any isSync ∧
      t.di.outq = cuts ((emittedBytes s.par s.di payload).dropWhile (fun y => !isSync y)) := by
  obtain ⟨t, ht, he, -⟩ := diPushEmitsAndCuts payload s (diInv_of_atReset h)
  rw [framed, h.synced, h.comm, h.outq, Nat.zero_add, Bool.false_or, if_neg Bool.false_ne_true, List.nil_append] at he
  exact ⟨t, ht, congrArg (fun t => t.di.comm) he, congrArg (fun t => t.di.synced) he, congrArg (fun t => t.di.outq) he⟩

/-! ### The first sync byte and the frames from it on -/

/-- The emitted bytes from the first sync byte on. -/
theorem dropWhile_map_range {f : Nat → Byte} {n k : Nat} (hk : k < n) (hsync : isSync (f k) = true)
    (hfirst : ∀ j, j < k → isSync (f j) = false) :
    ((List.range n).map f).dropWhile (fun y => !isSync y) = ((List.range n).map f).drop k := by
  have hidx : ((List.range n).map f).findIdx isSync = k := by
    rw [List.findIdx_eq (by simpa using hk)]
    simpa using ⟨hsync, hfirst⟩
  simp only [List.dropWhile_eq_drop_findIdx_not, Bool.not_not, hidx]

theorem length_cuts (bs : List Byte) : (cuts bs).length = bs.length / 204 := by
  rw [cuts, List.length_map, List.length_range]

theorem getD_map_range {α : Type} (f : Nat → α) {n k : Nat} (hk : k < n) (a : α) : ((List.range n).map f).getD k a = f k := by
  rw [List.getD_eq_getElem _ _ (by simpa using hk), List.getElem_map, List.getElem_range]

/-- Byte `j` of frame `m`. -/
theorem getD_cuts {bs : List Byte} {m j : Nat} (hm : m < (cuts bs).length) (hj : j < 204) :
    ((cuts bs).getD m []).getD j 0 = bs.getD (204 * m + j) 0 := by
  rw [length_cuts] at hm
  rw [cuts, getD_map_range _ hm, List.getD_eq_getElem?_getD, List.getElem?_take_of_lt hj, List.getElem?_drop,
    ← List.getD_eq_getElem?_getD]

/-- Byte `j` of frame `m`, where the frames are cut from the emitted byte `k` on. -/
theorem getD_cuts_drop {f : Nat → Byte} {n k m j : Nat} (hm : m < (cuts (((List.range n).map f).drop k)).length) (hj : j < 204) :
    ((cuts (((List.range n).map f).drop k)).getD m []).getD j 0 = f (k + 204 * m + j) := by
  rw [getD_cuts hm hj, List.getD_eq_getElem?_getD, List.getElem?_drop, ← List.getD_eq_getElem?_getD, ← Nat.add_assoc,
    getD_map_range]
  rw [length_cuts, List.length_drop, List.length_map, List.length_range] at hm
  omega

/-- Settles O52: a reset branch delays, and the frames are cut from the first sync byte emitted. -/
theorem diPushFromReset : Obligations.DiPushFromReset := by
  intro payload s h
  obtain ⟨t, ht, hcomm, hsynced, houtq⟩ := exec_diPush_atReset h payload
  rw [emittedBytes_atReset h] at hsynced houtq
  refine ⟨t, ht, hcomm, fun k0 hk hsync hfirst => ?_, fun hnone => ?_⟩
  · rw [dropWhile_map_range hk hsync hfirst] at houtq
    refine ⟨?_, ?_, fun m j hm hj => ?_⟩
    · rw [hsynced, List.any_eq_true]
      exact ⟨_, List.mem_map_of_mem (List.mem_range.mpr hk), hsync⟩
    · rw [houtq, length_cuts, List.length_drop, List.length_map, List.length_range]
    · rw [houtq] at hm ⊢
      exact getD_cuts_drop hm hj
  · refine ⟨?_, ?_⟩
    · rw [hsynced, List.any_eq_false]
      simpa using hnone
    · rw [houtq, List.dropWhile_eq_nil_iff.mpr (by simpa using hnone)]
      rfl

/-! ### After a forward interleaver -/

/-- The transmitter's delay of branch `b` and the receiver's are the same number of bytes for every branch (43_deinterleaver.md
R220). -/
theorem delays_add (p : Params) {b : Nat} (hb : b < p.I) :
    p.I * (p.M * (p.I - 1 - b)) + p.I * (p.M * b) = p.M * p.I * (p.I - 1) := by
  rw [← Nat.mul_add, ← Nat.mul_add, Nat.sub_add_cancel (Nat.le_sub_one_of_lt hb), Nat.mul_left_comm, Nat.mul_assoc]

/-- 43_deinterleaver.md R225 (a), byte by byte: a byte and the one it is emitted for went through the same branch. -/
theorem delayed_interleaved (p : Params) {source : List Byte} {n : Nat} (hn : n < source.length) :
    delayed p (interleaved p source) n =
      if n < p.M * p.I * (p.I - 1) then 0 else source.getD (n - p.M * p.I * (p.I - 1)) 0 := by
  have hadd := delays_add p (Nat.mod_lt n p.hI)
  rw [delayed]
  by_cases hrx : n < p.I * (p.M * (p.I - 1 - n % p.I))
  · rw [if_pos hrx, if_pos (by omega)]
  · have hbranch : (n - p.I * (p.M * (p.I - 1 - n % p.I))) % p.I = n % p.I := Nat.sub_mul_mod (Nat.not_lt.mp hrx)
    rw [if_neg hrx, interleaved, getD_map_range _ (by omega), hbranch, ← hadd, ← Nat.sub_sub]
    simp only [Nat.sub_lt_iff_lt_add' (Nat.not_lt.mp hrx)]

/-- The bytes emitted: zeros, then the source without its last `M * I * (I - 1)` bytes. -/
theorem map_delayed_interleaved (p : Params) (source : List Byte) :
    (List.range source.length).map (delayed p (interleaved p source)) =
      List.replicate (min (p.M * p.I * (p.I - 1)) source.length) 0 ++
        source.take (source.length - p.M * p.I * (p.I - 1)) := by
  refine List.ext_getElem ?_ fun n hn _ => ?_
  · rw [List.length_map, List.length_range, List.length_append, List.length_replicate, List.length_take]
    omega
  · rw [List.length_map, List.length_range] at hn
    rw [List.getElem_map, List.getElem_range, delayed_interleaved p hn, List.getElem_append]
    simp only [List.length_replicate, lt_min_iff, hn, and_true]
    split
    · rw [List.getElem_replicate]
    · rw [List.getElem_take, List.getD_eq_getElem _ _ (by omega)]
      congr 1
      omega

theorem length_interleaved (p : Params) (source : List Byte) : (interleaved p source).length = source.length := by
  rw [interleaved, List.length_map, List.length_range]

/-- Settles O53: the bytes emitted before the source are zeros, and none of them is a sync byte. -/
theorem interleaverRoundTrip : Obligations.InterleaverRoundTrip := by
  intro source s h
  obtain ⟨t, ht, -, -, houtq⟩ := exec_diPush_atReset h (interleaved s.par source)
  refine ⟨t, ht, ?_⟩
  rw [houtq, emittedBytes_atReset h, length_interleaved, map_delayed_interleaved, List.dropWhile_append_of_pos]
  intro y hy
  rw [List.eq_of_mem_replicate hy]
  rfl

end Sys2Proof.Machine
end

/-! The family of the descrambler (44_descrambler.md): one step of the register (R250), the table entry by entry (R252, R253), and
`DS.APPLY` as its own inverse (R258 (a)). -/
section
namespace Sys2Proof.Machine
open Sys2Proof.Spec

/-! ### One step of the register -/

theorem lfsrStep_snd_getLsbD_zero (s : BitVec 15) : (lfsrStep s).2.getLsbD 0 = (lfsrStep s).1 := by
  simp [lfsrStep]

/-- The shift moves bit `k` up, and the bit that enters, one bit wide, does not reach above bit 0. -/
theorem lfsrStep_snd_getLsbD_succ (s : BitVec 15) {k : Nat} (hk : k < 14) :
    (lfsrStep s).2.getLsbD (k + 1) = s.getLsbD k := by
  have hin : k + 1 < 15 := Nat.succ_lt_succ hk
  simp [lfsrStep, hin, BitVec.getLsbD_eq_getElem (Nat.lt_of_succ_lt hin)]

/-- Settles O55: the bit out is the feedback bit by definition; it enters at bit 0, and the shift moves the others up. -/
theorem lfsrStepShifts : Obligations.LfsrStep :=
  fun s => ⟨rfl, lfsrStep_snd_getLsbD_zero s, fun _ => lfsrStep_snd_getLsbD_succ s⟩

/-! ### The table -/

/-- Entry `i` of the table that the unit computes. -/
theorem getElem?_keystream (p : Params) {g i : Nat} (hi : i < 188 * g) : (keystream p g)[i]? = some (keyByte p i) := by
  rw [keystream_eq_keyTable, keyTable, List.getElem?_map, List.getElem?_range hi, Option.map_some]

theorem keyByte_zero (p : Params) : keyByte p 0 = p.ks0 :=
  if_pos rfl

/-- 44_descrambler.md R253: no energy dispersal on the sync byte of a later packet of the group. -/
theorem keyByte_packetStart (p : Params) {m : Nat} (hm : 1 ≤ m) : keyByte p (188 * m) = 0x00 := by
  rw [keyByte, if_neg (by omega), if_pos (Nat.mul_mod_right 188 m)]

/-- Settles O56: the table of the register's steps is the table by index, whose first and forced entries are read off. -/
theorem keystreamTable : Obligations.KeystreamTable := by
  refine fun p g => ⟨keystream_eq_keyTable p g, fun hg => ?_, fun m hm hmg => ?_⟩
  · rw [getElem?_keystream p (by omega), keyByte_zero]
  · rw [getElem?_keystream p (by omega), keyByte_packetStart p hm]

/-! ### `DS.APPLY` twice -/

/-- The exclusive or with a sequence at least as long is its own inverse, byte by byte. -/
theorem xorBytes_xorBytes {x ks : List Byte} (h : x.length ≤ ks.length) : xorBytes (xorBytes x ks) ks = x := by
  refine List.ext_getElem (by simpa [xorBytes] using h) fun k _ _ => ?_
  simp [xorBytes]

/-- Settles O59: the first command leaves the table and the length of the group, so the second applies the same bytes. -/
theorem dsApplyTwice : Obligations.DsApplyTwice := by
  intro payload s hinv hlen
  have hks : payload.length = (keystream s.par s.ds.group).length := by rw [hlen, length_keystream]
  refine ⟨xorBytes payload (keystream s.par s.ds.group), execDsApply_group hinv hlen, ?_⟩
  calc exec (.dsApply _) (answered s .ok _)
    _ = .next (answered (answered s .ok _) .ok
          (xorBytes (xorBytes payload (keystream s.par s.ds.group)) (keystream s.par s.ds.group))) :=
      execDsApply_group (s := answered s .ok _) hinv ((length_xorBytes hks).trans hlen)
    _ = .next (answered (answered s .ok _) .ok payload) := by rw [xorBytes_xorBytes hks.le]

end Sys2Proof.Machine
end

/-! Reset and hazards (70_reset_and_hazards.md): the reset pin, every command on the reset state, `FS.UPDATE` over a ready frame. -/
section
namespace Sys2Proof.Machine
open Sys2Proof.Spec

/-! ### The reset pin and the reset state -/

theorem step_of_pin {s : State} (hp : s.rstPin = true) : step s = .next (resetByPin s) := by
  simp only [step, nextWork, if_pos hp]

/-- Settles O11: the pin puts the reset value of R56 in every unit, as `RESET 0x0F` does, and empties the port. -/
theorem resetPinRestartsTheBlock : Obligations.ResetPinRestartsTheBlock :=
  fun s hp => ⟨resetByPin s, step_of_pin hp, crAtReset_crReset s.par, fsAtReset_fsReset, diAtReset_diReset s.par,
    dsAtReset_dsReset s.par, rfl, rfl, rfl, rfl⟩

/-- Settles O24: the reset state meets the invariant, under which every command answers; nothing is locked, queued, searched or
loaded on it, and the group size is 8. -/
theorem everyCommandIsDefinedOnReset : Obligations.EveryCommandIsDefinedOnReset := by
  intro p s
  refine ⟨fun i => ?_, execFsGetframe_none (.inl rfl), diPopResult.1 s rfl, fun r => ?_, getBerResult s, fun x => ?_,
    fun x hx => ?_⟩
  · obtain ⟨t, ht, -⟩ := exec_inv i (inv_resetOf p)
    exact ⟨t, ht⟩
  · exact (crGetResult r s (inv_resetOf p).cr).2 (.inl rfl)
  · exact exec_of_commandError (i := .crRun x) (s := s) rfl
  · exact ⟨_, execDsApply_group (s := s) (dsInv_dsReset p) hx⟩

/-! ### `FS.UPDATE` over a ready frame -/

/-- `FS.UPDATE` on a stream long enough: the cycle runs on its first window (42_framesync.md R165). -/
theorem execFsUpdate_of_enough {s : State} (hf : FsCore s.par s.fs) (hs : s.par.C ≤ (stream s.fs).length) :
    execFsUpdate s =
      .next ((s.setFs (decodeAll s.par (window s.par (stream s.fs) 0) (topUp s.par s.fs))).respond .ok []) := by
  have hp : (topUp s.par s.fs).pos = s.par.C := by rw [topUp_of_enough hf hs]
  have hbuf : bytesOf (topUp s.par s.fs).buf = window s.par (stream s.fs) 0 :=
    window_of_topUp hf hs (holdsBelow_iff.mp hf.topUp.bufHolds).1
  rw [execFsUpdate_of_full hf.topUp.bufHolds hp, hbuf]

/-- A locked unit whose active hypothesis passes on the first window finds sync there (42_framesync.md R170, R179). -/
theorem firstPass_of_locked {p : Params} {f : Fs} (hl : f.locked = true) (hs : p.C ≤ (stream f).length)
    (hp : passes p (window p (stream f) 0) f.active) : FirstPass p f 0 f.active where
  inStream := (Nat.zero_add p.C).symm ▸ hs
  earlier := fun _ hj => absurd hj (Nat.not_lt_zero _)
  isTested := fun _ _ => rfl
  isPassing := hp
  smallest := fun _ hlt ht => absurd (ht rfl hl) (ne_of_lt hlt)

/-- `FS.FINDSYNC` on a locked unit whose active hypothesis passes leaves that hypothesis with its frame. -/
theorem execFsFindsync_of_locked {s u : State} (hf : FsCore s.par s.fs) (hl : s.fs.locked = true)
    (hs : s.par.C ≤ (stream s.fs).length) (hp : passes s.par (window s.par (stream s.fs) 0) s.fs.active)
    (h : execFsFindsync s = .next u) :
    u.fs.active = s.fs.active ∧
      holdsBytes u.fs.dec[u.fs.active] (frameOn s.par (window s.par (stream s.fs) 0) u.fs.active) := by
  obtain ⟨g, hg, hfields, -, hcycle⟩ := searchLoop_finds hf (Nat.zero_le _) (firstPass_of_locked hl hs hp) false
  rw [execFsFindsync, findSync, hg, finish_ok] at h
  obtain rfl := Host.Outcome.next.inj h
  have hactive : g.active = s.fs.active := by rw [hfields]
  exact ⟨hactive, ((hcycle g.active).1 fun _ _ => hactive).1⟩

/-- Settles O49: the update writes the active frame and no flag, `FS.GETFRAME` reads that frame, and a search from there decodes
the stream's first window again. -/
theorem updateReplacesReadyFrame : Obligations.UpdateReplacesReadyFrame := by
  intro s hf hl hr hs new
  set g := decodeAll s.par (window s.par (stream s.fs) 0) (topUp s.par s.fs)
  have hcore : FsCore s.par g := (hf.topUp.decodeAll _).toFsCore
  have hstream : stream g = stream s.fs := topUp_stream hf.bufHolds
  have hframe : holdsBytes g.dec[s.fs.active] new :=
    ((decoded_decodeAll hf.topUp.toFsCore (window s.par (stream s.fs) 0) s.fs.active).1 fun _ _ => rfl).1
  refine ⟨(s.setFs g).respond .ok [], execFsUpdate_of_enough hf hs, hr, hl, ?_, fun u hu herr => ?_⟩
  · have hget := execFsGetframe_of_core (s := (s.setFs g).respond .ok []) hcore hl hr
    exact hget.trans (by rw [← hframe.2]; rfl)
  · obtain ⟨hactive, hfound⟩ :=
      execFsFindsync_of_locked (s := (s.setFs g).respond .ok []) hcore hl (hstream.symm ▸ hs)
        (hstream.symm ▸ Nat.le_of_lt_succ herr) hu
    have hnew : frameOn s.par (window s.par (stream g) 0) u.fs.active = new := by rw [hstream, hactive]; rfl
    exact ⟨hnew ▸ hfound, hactive⟩

end Sys2Proof.Machine
end

/-! The responses given before are not read (70_reset_and_hazards.md R373): a step commutes with putting more responses before those
of the state. -/
section
namespace Sys2Proof.Machine
open Sys2Proof.Spec

/-! ### More responses before those of a state -/

/-- `s` with the responses `old` given before its own. -/
def State.after (old : List Response) (s : State) : State := { s with rspOut := old ++ s.rspOut }

@[simp] theorem after_par (old : List Response) (s : State) : (s.after old).par = s.par := rfl
@[simp] theorem after_fs (old : List Response) (s : State) : (s.after old).fs = s.fs := rfl
@[simp] theorem after_di (old : List Response) (s : State) : (s.after old).di = s.di := rfl
@[simp] theorem after_ds (old : List Response) (s : State) : (s.after old).ds = s.ds := rfl
@[simp] theorem after_cr (old : List Response) (s : State) : (s.after old).cr = s.cr := rfl
@[simp] theorem after_setFs (old : List Response) (s : State) (f : Fs) : (s.after old).setFs f = (s.setFs f).after old := rfl
@[simp] theorem after_setDi (old : List Response) (s : State) (d : Di) : (s.after old).setDi d = (s.setDi d).after old := rfl
@[simp] theorem after_setDs (old : List Response) (s : State) (d : Ds) : (s.after old).setDs d = (s.setDs d).after old := rfl
@[simp] theorem after_setCr (old : List Response) (s : State) (c : Cr) : (s.after old).setCr c = (s.setCr c).after old := rfl

@[simp] theorem after_resetUnits (old : List Response) (m : BitVec 4) (s : State) :
    resetUnits m (s.after old) = (resetUnits m s).after old := rfl

@[simp] theorem after_respond (old : List Response) (s : State) (st : Status) (pl : List Byte) :
    (s.after old).respond st pl = (s.respond st pl).after old :=
  congrArg (fun rsp => ({ s with rspOut := rsp } : State)) (List.append_assoc old s.rspOut _)

@[simp] theorem after_raiseError (old : List Response) (e : ErrorCode) (s : State) :
    raiseError e (s.after old) = (raiseError e s).after old :=
  after_respond old s (.error e) []

/-- The outcome with the responses `old` given before. -/
def outcomeAfter (old : List Response) : Host.Outcome State Fault Refusal → Host.Outcome State Fault Refusal
  | .next t => .next (t.after old)
  | .fault r => .fault r
  | .refused r => .refused r

@[simp] theorem outcomeAfter_next (old : List Response) (t : State) : outcomeAfter old (.next t) = .next (t.after old) := rfl

@[simp] theorem outcomeAfter_fault (old : List Response) (r : Fault) : outcomeAfter old (.fault r) = .fault r := rfl

@[simp] theorem outcomeAfter_finish {α : Type} (old : List Response) (r : Except Fault α) (k : α → State) :
    outcomeAfter old (finish r k) = finish r (fun a => (k a).after old) := by
  cases r <;> rfl

/-! ### A command and a step after them -/

/-- A command takes the same branch, does the same to the units and answers the same whatever was answered before it. -/
theorem exec_after (old : List Response) (i : Instr) (s : State) : exec i (s.after old) = outcomeAfter old (exec i s) := by
  cases i with
  | reset mask => simp [exec, execReset]
  | rot x pl => simp [exec, execRot, apply_ite (State.after old)]
  | crClr => simp [exec, execCrClr]
  | crAddw pl => simp [exec, execCrAddw, apply_ite (State.after old)]
  | crRun pl => simp [exec, execCrRun, apply_ite (outcomeAfter old)]
  | crGet r =>
    simp only [exec, execCrGet, after_cr, apply_ite (outcomeAfter old)]
    cases readResult (.bestOff r.toNat) s.cr.bestOff r.toNat <;> simp
  | fsPut pl => simp [exec, execFsPut]
  | fsUpdate => simp [exec, execFsUpdate, apply_ite (outcomeAfter old)]
  | fsFindsync => simp [exec, execFsFindsync]
  | fsGetframe => simp [exec, execFsGetframe, apply_ite (outcomeAfter old)]
  | fsGetber => simp [exec, execFsGetber]
  | fsStatus => simp [exec, execFsStatus]
  | diPush pl => simp [exec, execDiPush]
  | diPop =>
    simp only [exec, execDiPop, after_di]
    cases s.di.outq <;> simp
  | dsCfg g => simp [exec, execDsCfg, apply_ite (State.after old)]
  | dsApply pl => simp [exec, execDsApply, apply_ite (outcomeAfter old)]

/-- A step does the same whatever was answered before it (70_reset_and_hazards.md R373). -/
theorem step_after (old : List Response) (s : State) : step (s.after old) = outcomeAfter old (step s) := by
  cases hp : s.rstPin with
  | true => rw [step_of_pin hp, step_of_pin (s := s.after old) hp]; rfl
  | false =>
    cases hd : decode s.cmdIn with
    | incomplete => rw [step_of_incomplete hp hd, step_of_incomplete (s := s.after old) hp hd]; rfl
    | rejected e rest =>
      rw [step_of_rejected hp hd, step_of_rejected (s := s.after old) hp hd]
      exact congrArg _ (after_raiseError old e { s with cmdIn := rest })
    | command i rest =>
      rw [stepRunsTheDecodedCommand s i rest hp hd, stepRunsTheDecodedCommand (s.after old) i rest hp hd]
      exact exec_after old i { s with cmdIn := rest }

theorem outcomeAfter_eq_next {old : List Response} {o : Host.Outcome State Fault Refusal} {t : State}
    (h : outcomeAfter old o = .next t) : ∃ u, o = .next u ∧ t = u.after old := by
  cases o with
  | next u => exact ⟨u, rfl, (Host.Outcome.next.inj h).symm⟩
  | fault r => cases h
  | refused r => cases h

/-- Any past responses are put before none. -/
theorem after_no_responses (s : State) (old : List Response) :
    ({ s with rspOut := [] } : State).after old = { s with rspOut := old } :=
  congrArg (fun rsp => ({ s with rspOut := rsp } : State)) (List.append_nil old)

/-- Settles O21: the step with any past responses is the step with none, whose answers are the new ones, after the past ones. -/
theorem pastResponsesAreNotRead : Obligations.PastResponsesAreNotRead := by
  intro s t other h
  have hstep (old : List Response) : step { s with rspOut := old } = outcomeAfter old (step { s with rspOut := [] }) := by
    rw [← step_after, after_no_responses]
  obtain ⟨u, hu, rfl⟩ := outcomeAfter_eq_next ((hstep s.rspOut).symm.trans h)
  exact ⟨u.rspOut, rfl, by rw [hstep, hu]; rfl⟩

end Sys2Proof.Machine
end

/-! The canonical form of the memories (the model's convention, log 3): every memory changes only by `memWrite` and `memTruncate`, is
replaced by the cells of a list of bytes or is emptied, and each of these leaves its addresses strictly rising. -/
section
namespace Sys2Proof.Machine
open Sys2Proof.Spec

/-! ### The frame synchronizer -/

/-- The memories of the frame synchronizer in their canonical form. -/
structure FsCanonical (f : Fs) : Prop where
  buf : memWf f.buf
  dec : ∀ h : Hyp, memWf f.dec[h]

theorem fsCanonical_fsReset : FsCanonical fsReset where
  buf := List.Pairwise.nil
  dec := fun h => fsReset_dec h ▸ List.Pairwise.nil

theorem FsCanonical.topUp {f : Fs} (h : FsCanonical f) (p : Params) : FsCanonical (topUp p f) :=
  ⟨memWrite_keeps_wf h.buf _ _, h.dec⟩

theorem FsCanonical.decodeAll {f : Fs} (h : FsCanonical f) (p : Params) (soft : List Byte) :
    FsCanonical (decodeAll p soft f) where
  buf := h.buf
  dec := fun x => by
    rw [decodeAll_dec]
    split
    · exact memWrite_keeps_wf (h.dec x) _ _
    · exact h.dec x

theorem FsCanonical.lockOn {f : Fs} (h : FsCanonical f) (w : Hyp) : FsCanonical (lockOn w f) :=
  ⟨h.buf, h.dec⟩

theorem FsCanonical.loseLock {f : Fs} (h : FsCanonical f) : FsCanonical (loseLock f) :=
  ⟨(loseLock_buf f).symm ▸ h.buf, (loseLock_dec f).symm ▸ h.dec⟩

theorem FsCanonical.markReady {f : Fs} (h : FsCanonical f) : FsCanonical (markReady f) :=
  ⟨h.buf, h.dec⟩

theorem FsCanonical.clearReady {f : Fs} (h : FsCanonical f) : FsCanonical (clearReady f) :=
  ⟨h.buf, h.dec⟩

/-- The form `Shift` and `Advance` share: the start of the buffer is written and the rest dropped (42_framesync.md R177, R178). -/
theorem FsCanonical.moveBuf {f : Fs} (h : FsCanonical f) (v : List Byte) (n : Nat) :
    FsCanonical { f with buf := memTruncate (memWrite f.buf 0 v) n, pos := n } :=
  ⟨memTruncate_keeps_wf (memWrite_keeps_wf h.buf 0 v) n, h.dec⟩

theorem FsCanonical.advanceBuf {p : Params} {f g : Fs} (h : FsCanonical f) (hg : advanceBuf p f = .ok g) : FsCanonical g := by
  unfold Machine.advanceBuf at hg
  split at hg
  · cases hg
  · obtain rfl := Except.ok.inj hg
    exact h.moveBuf _ _

theorem FsCanonical.shiftBuf {p : Params} {f g : Fs} (h : FsCanonical f) (hg : shiftBuf p f = .ok g) : FsCanonical g := by
  unfold Machine.shiftBuf at hg
  split at hg
  · cases hg
  · obtain rfl := Except.ok.inj hg
    exact h.moveBuf _ _

theorem FsCanonical.testSync {p : Params} {f : Fs} {u : Turn} (h : FsCanonical f) (hu : testSync p f = .ok u) :
    FsCanonical u.fs := by
  unfold Machine.testSync at hu
  split at hu
  · rename_i w _
    split at hu
    · cases hu
    · rename_i g hg
      obtain rfl := Except.ok.inj hu
      exact ((h.lockOn w).advanceBuf hg).markReady
  · split at hu
    · cases hu
    · rename_i g hg
      obtain rfl := Except.ok.inj hu
      exact h.loseLock.shiftBuf hg

theorem FsCanonical.searchTurn {p : Params} {f : Fs} {u : Turn} (h : FsCanonical f) (hu : searchTurn p f = .ok u) :
    FsCanonical u.fs := by
  unfold Machine.searchTurn at hu
  split at hu
  · obtain rfl := Except.ok.inj hu
    exact h.topUp p
  · split at hu
    · cases hu
    · rename_i g hg
      obtain ⟨soft, -, -, rfl⟩ := decodeCycle_ok hg
      exact ((h.topUp p).decodeAll p soft).testSync hu

theorem FsCanonical.searchLoop {p : Params} {n : Nat} {loss : Bool} {f : Fs} {r : Search} (h : FsCanonical f)
    (hr : searchLoop p n loss f = .ok r) : FsCanonical r.fs := by
  induction n generalizing loss f with
  | zero =>
    obtain ⟨u, hu, hfs⟩ | ⟨k, -, -, hk, -⟩ := searchLoop_cases hr
    · exact hfs ▸ h.searchTurn hu
    · cases hk
  | succ n ih =>
    obtain ⟨u, hu, hfs⟩ | ⟨k, lost, g, hk, hg, hloop⟩ := searchLoop_cases hr
    · exact hfs ▸ h.searchTurn hu
    · obtain rfl := Nat.succ.inj hk
      exact ih (h.searchTurn hg) hloop

/-! ### The deinterleaver -/

/-- 43_deinterleaver.md R224: the byte is written at `DI.FILL`, and a complete frame is dropped from the space. -/
theorem accumulate_frame_wf {y : Byte} {d d' : Di} (h : accumulate y d = .ok d') (hd : memWf d.frame) : memWf d'.frame := by
  have written : memWf (memWrite d.frame d.fill [y]) := memWrite_keeps_wf hd _ _
  unfold accumulate at h
  simp only at h
  split at h
  · split at h
    · cases h
    · obtain rfl := Except.ok.inj h
      exact memTruncate_keeps_wf written 0
  · obtain rfl := Except.ok.inj h
    exact written

theorem emit_frame_wf {y : Byte} {d d' : Di} (h : emit y d = .ok d') (hd : memWf d.frame) : memWf d'.frame := by
  unfold emit at h
  split at h
  · exact accumulate_frame_wf h hd
  · split at h
    · exact accumulate_frame_wf (d := markSynced d) h hd
    · exact Except.ok.inj h ▸ hd

theorem diStep_frame_wf {p : Params} {x : Byte} {d d' : Di} (h : diStep p x d = .ok d') (hd : memWf d.frame) :
    memWf d'.frame := by
  unfold diStep at h
  split at h
  · cases h
  · exact emit_frame_wf h hd

theorem diSteps_frame_wf {p : Params} {xs : List Byte} {d d' : Di} (h : diSteps p xs d = .ok d') (hd : memWf d.frame) :
    memWf d'.frame := by
  induction xs generalizing d with
  | nil => exact Except.ok.inj h ▸ hd
  | cons x xs ih =>
    rw [diSteps] at h
    split at h
    · cases h
    · rename_i d1 h1
      exact ih h (diStep_frame_wf h1 hd)

/-! ### The reference words -/

/-- A word that is not there reads as the empty memory. -/
theorem memWf_getD {ms : List Memory} (h : ∀ m ∈ ms, memWf m) (r : Nat) : memWf (ms.getD r []) := by
  rw [List.getD_eq_getElem?_getD]
  cases hr : ms[r]? with
  | none => exact List.Pairwise.nil
  | some m => exact h m (List.mem_of_getElem? hr)

theorem memWf_set {ms : List Memory} (h : ∀ m ∈ ms, memWf m) (r : Nat) {m : Memory} (hm : memWf m) :
    ∀ x ∈ ms.set r m, memWf x := by
  intro x hx
  obtain hx | rfl := List.mem_or_eq_of_mem_set hx
  · exact h x hx
  · exact hm

theorem crReset_word_wf (p : Params) : ∀ m ∈ (crReset p).word, memWf m :=
  fun _ hm => List.eq_of_mem_replicate hm ▸ List.Pairwise.nil

end Sys2Proof.Machine

namespace Sys2Proof.Spec
open Sys2Proof.Machine

/-! ### The state -/

theorem Canonical.fs {s : State} (h : Canonical s) : FsCanonical s.fs := ⟨h.buf, h.dec⟩

theorem Canonical.respond {s : State} (h : Canonical s) (st : Status) (pl : List Byte) : Canonical (s.respond st pl) :=
  ⟨h.buf, h.dec, h.frame, h.ks, h.word⟩

theorem Canonical.raiseError {s : State} (h : Canonical s) (e : ErrorCode) : Canonical (raiseError e s) :=
  h.respond (.error e) []

theorem Canonical.setCmdIn {s : State} (h : Canonical s) (port : List Byte) : Canonical { s with cmdIn := port } :=
  ⟨h.buf, h.dec, h.frame, h.ks, h.word⟩

theorem Canonical.setFs {s : State} (h : Canonical s) {f : Fs} (hf : FsCanonical f) : Canonical (s.setFs f) :=
  ⟨hf.buf, hf.dec, h.frame, h.ks, h.word⟩

theorem Canonical.setDi {s : State} (h : Canonical s) {d : Di} (hd : memWf d.frame) : Canonical (s.setDi d) :=
  ⟨h.buf, h.dec, hd, h.ks, h.word⟩

theorem Canonical.setDs {s : State} (h : Canonical s) {d : Ds} (hd : memWf d.ks) : Canonical (s.setDs d) :=
  ⟨h.buf, h.dec, h.frame, hd, h.word⟩

theorem Canonical.setCr {s : State} (h : Canonical s) {c : Cr} (hc : ∀ m ∈ c.word, memWf m) : Canonical (s.setCr c) :=
  ⟨h.buf, h.dec, h.frame, h.ks, hc⟩

theorem canonical_resetOf (p : Params) : Canonical (State.resetOf p) :=
  ⟨fsCanonical_fsReset.buf, fsCanonical_fsReset.dec, List.Pairwise.nil, memWf_cellsAt 0 _, crReset_word_wf p⟩

theorem canonical_resetByPin (s : State) : Canonical (resetByPin s) :=
  have h := canonical_resetOf s.par
  ⟨h.buf, h.dec, h.frame, h.ks, h.word⟩

/-- A unit that the mask names gets its canonical reset value, the others keep theirs (70_reset_and_hazards.md R340). -/
theorem Canonical.resetUnits {s : State} (h : Canonical s) (m : BitVec 4) : Canonical (resetUnits m s) := by
  have reset := canonical_resetOf s.par
  have fs : FsCanonical (Machine.resetUnits m s).fs := by
    rw [resetUnits_fs]
    split
    · exact reset.fs
    · exact h.fs
  refine ⟨fs.buf, fs.dec, ?_, ?_, ?_⟩
  · rw [resetUnits_di]
    split
    · exact reset.frame
    · exact h.frame
  · rw [resetUnits_ds]
    split
    · exact reset.ks
    · exact h.ks
  · rw [resetUnits_cr]
    split
    · exact reset.word
    · exact h.word

end Sys2Proof.Spec

namespace Sys2Proof.Machine
open Sys2Proof.Spec

/-! ### The commands and the step -/

/-- `CR.ADDW` answers an error or writes one reference word (41_correlator.md R142). -/
theorem execCrAddw_keeps_canonical {pl : List Byte} {s t : State} (h : Canonical s) (he : execCrAddw pl s = .next t) :
    Canonical t := by
  obtain rfl := Host.Outcome.next.inj he
  split
  · exact h.raiseError .len
  · split
    · exact h.raiseError .full
    · have written := memWrite_keeps_wf (memWf_getD h.word s.cr.nw) 0 pl
      exact (h.setCr (memWf_set h.word s.cr.nw written)).respond _ _

/-- `CR.RUN` answers an error or writes the result registers, which are no memory (41_correlator.md R146). -/
theorem execCrRun_keeps_canonical {pl : List Byte} {s t : State} (h : Canonical s) (he : execCrRun pl s = .next t) :
    Canonical t := by
  unfold execCrRun at he
  split at he
  · exact Host.Outcome.next.inj he ▸ h.raiseError .emptyRef
  · split at he
    · exact Host.Outcome.next.inj he ▸ h.raiseError .shortBuf
    · obtain ⟨refs, -, rfl⟩ := finish_eq_next he
      refine Canonical.respond (h.setCr ?_) _ _
      exact h.word

theorem execDiPop_keeps_canonical {s t : State} (h : Canonical s) (he : execDiPop s = .next t) : Canonical t := by
  obtain rfl := Host.Outcome.next.inj he
  split
  · exact h.respond _ _
  · refine Canonical.respond (h.setDi ?_) _ _
    exact h.frame

/-- `DS.CFG` keeps the table or replaces it by the cells of another (44_descrambler.md R256). -/
theorem execDsCfg_keeps_canonical {g : Byte} {s t : State} (h : Canonical s) (he : execDsCfg g s = .next t) :
    Canonical t := by
  obtain ⟨-, rfl⟩ | ⟨-, -, rfl⟩ | ⟨-, -, rfl⟩ := execDsCfg_cases he
  · exact h.raiseError .illegal
  · exact h.respond _ _
  · exact (h.setDs (memWf_cellsAt 0 _)).respond _ _

theorem exec_keeps_canonical {i : Instr} {s t : State} (h : Canonical s) (he : exec i s = .next t) : Canonical t := by
  cases i with
  | reset m => exact exec_reset_eq he ▸ (h.resetUnits m).respond _ _
  | rot x pl =>
    obtain ⟨st, out, answer⟩ := execRot_answer x pl
    exact Host.Outcome.next.inj ((answer s).symm.trans he) ▸ h.respond st out
  | crClr =>
    obtain rfl := Host.Outcome.next.inj he
    refine Canonical.respond (h.setCr ?_) _ _
    exact h.word
  | crAddw pl => exact execCrAddw_keeps_canonical h he
  | crRun pl => exact execCrRun_keeps_canonical h he
  | crGet r =>
    obtain ⟨st, pl, rfl⟩ := execCrGet_respond he
    exact h.respond st pl
  | fsPut pl =>
    have queued : FsCanonical { s.fs with pend := s.fs.pend ++ pl } := ⟨h.buf, h.dec⟩
    exact Host.Outcome.next.inj he ▸ (h.setFs (queued.topUp s.par)).respond _ _
  | fsUpdate =>
    have filled := h.fs.topUp s.par
    obtain rfl | ⟨soft, rfl⟩ := execFsUpdate_cases he
    · exact (h.setFs filled).respond _ _
    · exact (h.setFs (filled.decodeAll s.par soft)).respond _ _
  | fsFindsync =>
    obtain ⟨r, hr, rfl⟩ := finish_eq_next he
    exact (h.setFs (h.fs.searchLoop hr)).respond _ _
  | fsGetframe =>
    obtain rfl | ⟨d, rfl⟩ := execFsGetframe_cases he
    · exact h.respond _ _
    · exact (h.setFs h.fs.clearReady).respond _ _
  | fsGetber | fsStatus => exact Host.Outcome.next.inj he ▸ h.respond _ _
  | diPush pl =>
    obtain ⟨d, hd, rfl⟩ := finish_eq_next he
    exact (h.setDi (diSteps_frame_wf hd h.frame)).respond _ _
  | diPop => exact execDiPop_keeps_canonical h he
  | dsCfg g => exact execDsCfg_keeps_canonical h he
  | dsApply pl =>
    obtain ⟨st, out, answer⟩ := execDsApply_answer he
    exact Host.Outcome.next.inj ((answer s rfl).symm.trans he) ▸ h.respond st out

theorem step_keeps_canonical {s t : State} (h : Canonical s) (hs : step s = .next t) : Canonical t := by
  obtain ⟨-, rfl⟩ | ⟨-, -, rfl⟩ | ⟨-, e, rest, -, rfl⟩ | ⟨-, i, rest, -, hx⟩ := step_cases hs
  · exact canonical_resetByPin s
  · exact h
  · exact (h.setCmdIn rest).raiseError e
  · exact exec_keeps_canonical (h.setCmdIn rest) hx

/-- Settles O17: the reset memories are empty or the cells of the keystream table; the pin restores them, and each of the sixteen
meanings writes, truncates or replaces a memory by operations that keep its addresses strictly rising. -/
theorem memoryStaysCanonical : Obligations.MemoryStaysCanonical :=
  ⟨canonical_resetOf, fun _ _ => step_keeps_canonical⟩

end Sys2Proof.Machine
end
